-- ==== Sys2Proof/Word.lean ====
section
/-! DEFINITION. Words, bytes, and the data the block's three tables hold (00_scope.md R10, R14; 10_state.md R57, R59). -/
namespace Sys2Proof

/-- A register value (R10 REG_W = 32) and one frequency count (R10 CNT_W = 32). -/
abbrev Word := BitVec 32

/-- One byte of a stream (R16). -/
abbrev Byte := BitVec 8

/-- A symbol: 0..255 are literal bytes, 256 is the end-of-stream sentinel (R10 NSYM, EOS). -/
abbrev Symbol := Fin 257

/-- The end-of-stream symbol (R10 EOS). -/
def eosSymbol : Symbol := 256

/-- An index into the tree-node memory, 0..512 (R10 MAX_NODES = 513). -/
abbrev NodeIdx := Fin 513

/-- A code bit string, the first bit first (R14). -/
abbrev Code := List Bool

/-- One entry of the tree-node memory: the tagged variant of R57. -/
inductive Node where
  | leaf (sym : Symbol) (count : Word)
  | internal (count : Word) (left right : NodeIdx)
  deriving DecidableEq, Repr, Inhabited

/-- The frequency table FREQ[0..256] (R55). -/
abbrev FreqTable := Vector Word 257

/-- The tree-node memory NODE[0..512] (R57). -/
abbrev NodeTable := Vector Node 513

/-- The code table CODE[0..256]: `none` is ABSENT (R59). -/
abbrev CodeTable := Vector (Option Code) 257

/-- The symbol a byte stands for (R10: 0-255 are bytes). -/
def byteSymbol (b : Byte) : Symbol := ⟨b.toNat, Nat.lt_succ_of_lt b.isLt⟩

end Sys2Proof
end

