-- ==== Sys2Proof/Syntax.lean ====
section
/-! DEFINITION. The block's commands: one constructor per row of spec/opcode_table.json (30_encoding.md R121-R123).
Operands are the raw fields of the command word: N is 6 bits, IDX 10 bits, SEL 4 bits (R122). -/
namespace Sys2Proof

/-- One command (R123). -/
inductive Instr where
  /-- NOP (R305) -/
  | nop
  /-- PUTBITS N (R158) -/
  | putbits (n : BitVec 6)
  /-- FLUSH (R159) -/
  | flush
  /-- GETBIT (R160) -/
  | getbit
  /-- COUNT (R181) -/
  | count
  /-- FREQ_RD IDX (R184) -/
  | freqRd (idx : BitVec 10)
  /-- FREQ_WR IDX (R185) -/
  | freqWr (idx : BitVec 10)
  /-- HDR_EMIT (R190) -/
  | hdrEmit
  /-- HDR_LOAD (R198) -/
  | hdrLoad
  /-- BUILD (R220) -/
  | build
  /-- NODE_RD IDX, SEL (R228) -/
  | nodeRd (idx : BitVec 10) (sel : BitVec 4)
  /-- GENCODES (R251) -/
  | gencodes
  /-- CODE_RD IDX, SEL (R253) -/
  | codeRd (idx : BitVec 10) (sel : BitVec 4)
  /-- ENCODE (R270) -/
  | encode
  /-- DECODE (R290) -/
  | decode
  deriving DecidableEq, Repr

/-- The operation a command names, without its operands: the rows of R123. -/
inductive Op where
  | nop | putbits | flush | getbit | count | freqRd | freqWr | hdrEmit | hdrLoad | build | nodeRd | gencodes
  | codeRd | encode | decode
  deriving DecidableEq, Repr

/-- The row of R123 a command belongs to. -/
def Instr.op : Instr → Op
  | .nop => .nop
  | .putbits _ => .putbits
  | .flush => .flush
  | .getbit => .getbit
  | .count => .count
  | .freqRd _ => .freqRd
  | .freqWr _ => .freqWr
  | .hdrEmit => .hdrEmit
  | .hdrLoad => .hdrLoad
  | .build => .build
  | .nodeRd _ _ => .nodeRd
  | .gencodes => .gencodes
  | .codeRd _ _ => .codeRd
  | .encode => .encode
  | .decode => .decode

end Sys2Proof
end

