-- ==== Sys2Proof/WellFormed.lean ====
section
/-! DEFINITION. The field limits that make a command word legal (30_encoding.md R126). A command outside them is
E_ILLEGAL whatever the state. IDX has no limit here: IDX out of range is E_RANGE, found at execution (R126). -/
namespace Sys2Proof

/-- Does the command keep the field limits that decoding checks (R126)? -/
def Instr.wf : Instr → Bool
  | .putbits n => n.toNat ≤ 32
  | .nodeRd _ sel => sel.toNat ≤ 1
  | .codeRd _ sel => sel.toNat ≤ 8
  | .nop => true
  | .flush => true
  | .getbit => true
  | .count => true
  | .freqRd _ => true
  | .freqWr _ => true
  | .hdrEmit => true
  | .hdrLoad => true
  | .build => true
  | .gencodes => true
  | .encode => true
  | .decode => true

end Sys2Proof
end

