-- ==== Sys2Proof/Decode.lean ====
section
/-! DEFINITION. Decoding a command word and encoding a command, both from the one opcode table of 30_encoding.md
R123. Decoding is total on every 32-bit word (R128) and says by name why it refuses (R124-R126). -/
namespace Sys2Proof

/-- Why a word is no legal command. -/
inductive Illegal where
  /-- OP is not in the table (R125) -/
  | undefinedOpcode
  /-- a reserved bit, or a bit the mask fixes, has the wrong value (R124) -/
  | reservedBits
  /-- N > 32 or SEL too large (R126) -/
  | fieldLimit
  deriving DecidableEq, Repr

/-- One row of the opcode table: the word matches when (w AND mask) = pattern. -/
structure Row where
  op : Op
  pattern : Word
  mask : Word
  deriving DecidableEq, Repr

/-- The opcode table of R123. -/
def opcodeTable : List Row :=
  [ ⟨.nop, 0x00000000#32, 0xFFFFFFFF#32⟩,
    ⟨.putbits, 0x00000001#32, 0xFFFFC0FF#32⟩,
    ⟨.flush, 0x00000002#32, 0xFFFFFFFF#32⟩,
    ⟨.getbit, 0x00000003#32, 0xFFFFFFFF#32⟩,
    ⟨.count, 0x00000010#32, 0xFFFFFFFF#32⟩,
    ⟨.freqRd, 0x00000011#32, 0xFFFC00FF#32⟩,
    ⟨.freqWr, 0x00000012#32, 0xFFFC00FF#32⟩,
    ⟨.hdrEmit, 0x00000013#32, 0xFFFFFFFF#32⟩,
    ⟨.hdrLoad, 0x00000014#32, 0xFFFFFFFF#32⟩,
    ⟨.build, 0x00000020#32, 0xFFFFFFFF#32⟩,
    ⟨.nodeRd, 0x00000021#32, 0xFFC000FF#32⟩,
    ⟨.gencodes, 0x00000030#32, 0xFFFFFFFF#32⟩,
    ⟨.codeRd, 0x00000031#32, 0xFFC000FF#32⟩,
    ⟨.encode, 0x00000040#32, 0xFFFFFFFF#32⟩,
    ⟨.decode, 0x00000050#32, 0xFFFFFFFF#32⟩ ]

/-- OP = w[7:0] (R122). -/
def opField (w : Word) : BitVec 8 := w.extractLsb' 0 8

/-- N = w[13:8] (R122). -/
def nField (w : Word) : BitVec 6 := w.extractLsb' 8 6

/-- IDX = w[17:8] (R122). -/
def idxField (w : Word) : BitVec 10 := w.extractLsb' 8 10

/-- SEL = w[21:18] (R122). -/
def selField (w : Word) : BitVec 4 := w.extractLsb' 18 4

/-- The command a row and its word's fields make (R121, R122). -/
def Op.withFields (o : Op) (w : Word) : Instr :=
  match o with
  | .nop => .nop
  | .putbits => .putbits (nField w)
  | .flush => .flush
  | .getbit => .getbit
  | .count => .count
  | .freqRd => .freqRd (idxField w)
  | .freqWr => .freqWr (idxField w)
  | .hdrEmit => .hdrEmit
  | .hdrLoad => .hdrLoad
  | .build => .build
  | .nodeRd => .nodeRd (idxField w) (selField w)
  | .gencodes => .gencodes
  | .codeRd => .codeRd (idxField w) (selField w)
  | .encode => .encode
  | .decode => .decode

/-- Does the word match the row? (R123) -/
def Row.matches (r : Row) (w : Word) : Bool := (w &&& r.mask) == r.pattern

/-- Decode a command word (R123-R128). -/
def decode (w : Word) : Except Illegal Instr :=
  match opcodeTable.find? (·.matches w) with
  | some r => if (r.op.withFields w).wf then .ok (r.op.withFields w) else .error .fieldLimit
  | none =>
    if opcodeTable.any (fun r => opField r.pattern == opField w) then .error .reservedBits
    else .error .undefinedOpcode

/-- The pattern of an operation's row (R123). -/
def Op.pattern (o : Op) : Word :=
  match opcodeTable.find? (fun r => r.op == o) with
  | some r => r.pattern
  | none => 0

/-- The operand fields of a command, in their places (R121, R122). -/
def Instr.fields : Instr → Word
  | .putbits n => n.setWidth 32 <<< 8
  | .freqRd idx => idx.setWidth 32 <<< 8
  | .freqWr idx => idx.setWidth 32 <<< 8
  | .nodeRd idx sel => (idx.setWidth 32 <<< 8) ||| (sel.setWidth 32 <<< 18)
  | .codeRd idx sel => (idx.setWidth 32 <<< 8) ||| (sel.setWidth 32 <<< 18)
  | .nop => 0
  | .flush => 0
  | .getbit => 0
  | .count => 0
  | .hdrEmit => 0
  | .hdrLoad => 0
  | .build => 0
  | .gencodes => 0
  | .encode => 0
  | .decode => 0

/-- The word of a command, as the assembler of R129 writes it: its row's pattern OR its fields. -/
def encode (i : Instr) : Word := i.op.pattern ||| i.fields

/-- The command the decoder reads from an opcode-table word: every command is one 32-bit word (R120), whose bits above
the given ones are 0; something longer than a word is no command. -/
def decodeTableWord (nbits w : Nat) : Option Instr :=
  if nbits ≤ 32 ∧ w < 2 ^ 32 then
    match decode (BitVec.ofNat 32 w) with
    | .ok i => some i
    | .error _ => none
  else none

end Sys2Proof
end

