-- ==== Sys2Proof/Config.lean ====
section
/-! DEFINITION. The fixed parameters of 00_scope.md R10, the open parameters of R11 and the free values of
93_implementation_defined.md. A constant declared `opaque` has no value anywhere: no proof can see one. -/
namespace Sys2Proof.Config

/-- CNT_MAX: the largest count and the largest table sum (R10). -/
def cntMax : Nat := 2 ^ 32 - 1

/-- MAX_BYTES: the largest number of bytes one COUNT accepts (R10, R182). -/
def maxBytes : Nat := 2 ^ 32 - 2

/-- MAX_CODE_LEN: the longest code (R10, R254). -/
def maxCodeLen : Nat := 256

/-- HDR_LEN: the header length in bytes (R10, R196). -/
def hdrLen : Nat := 1036

/-- REG_SPAN: the bytes of the register window (R10, R92). -/
def regSpan : Nat := 0x100

/-- Which 0x100-aligned page of the platform's bus holds the window: not fixed by the spec (R11). -/
opaque hufPage : Nat

/-- HUF_BASE: any address aligned to 0x100 (R11). Log 4. -/
def hufBase : Nat := 0x100 * hufPage

/-- How many tokens past the first the input port holds: not fixed by the spec (R11). -/
opaque inDepthExtra : Nat

/-- IN_DEPTH >= 1 (R11). Log 4. -/
def inDepth : Nat := inDepthExtra + 1

/-- How many tokens past the first the output port holds: not fixed by the spec (R11). -/
opaque outDepthExtra : Nat

/-- OUT_DEPTH >= 1 (R11). Log 4. -/
def outDepth : Nat := outDepthExtra + 1

/-- The word the n-th volatile register read returns while BUSY = 1: any value (R48). Log 3. -/
opaque freeWord : Nat → Word

/-- What NODE[i] holds after the n-th reset: unspecified (R64). Log 2. -/
opaque freeNode : Nat → Nat → Node

/-- What CODE[s] holds after the n-th reset, before the length bound of R59 is applied: unspecified (R64). Log 2. -/
opaque freeCode : Nat → Nat → Option Code

end Sys2Proof.Config
end

