-- ==== Sys2Proof/Machine/State.lean ====
section
/-! DEFINITION. Everything the spec gives the machine (10_state.md R30-R64), the two ports (20_memory.md R81-R83) and
the host's pending actions (R99), as plain data; why a step can stop; and the state after reset (R64). -/
namespace Sys2Proof.Machine

/-- An input token (R16). -/
inductive InToken where
  | byte (b : Byte)
  /-- end of input -/
  | eoi
  /-- the host's source failed -/
  | ioerr
  deriving DecidableEq, Repr

/-- An output token (R16). -/
inductive OutToken where
  | byte (b : Byte)
  /-- end of output: the bit writer was closed -/
  | eoo
  /-- abort: the output since the last EOO or ABT is invalid -/
  | abt
  deriving DecidableEq, Repr

/-- The error codes (60_exceptions.md R312), in the table's order. -/
inductive ErrCode where
  | illegal | range | noTree | noCodes | countOvf | hdrTrunc | hdrMagic | hdrVersion | hdrWidth | hdrCount | hdrEos
  | hdrSum | zeroTable | eosCount | sumOvf | noCode | truncated | io
  deriving DecidableEq, Repr

/-- The bit writer BW (R60): the pending bits are acc[n-1:0], the oldest at bit n-1. -/
structure BitWriter where
  acc : BitVec 8
  n : Fin 8
  deriving DecidableEq, Repr

/-- The bit reader BR (R61): the remaining bits are acc[7:8-n], the next to return at bit 7. -/
structure BitReader where
  acc : BitVec 8
  n : Fin 8
  deriving DecidableEq, Repr

/-- Where the running command stands in its pseudocode, at the points where it waits for a port (R31, R62, R80). -/
inductive Activity where
  /-- the controller is IDLE -/
  | idle
  /-- GETBIT waits for a token (R160) -/
  | getbit
  /-- at the head of COUNT's loop (R181) -/
  | count
  /-- at the head of HDR_LOAD's loop: the header bytes read so far, the newest first, and the running sum (R198) -/
  | hdrLoad (h : List Byte) (sum : Nat)
  /-- at the head of ENCODE's loop (R270) -/
  | encode
  /-- at the head of DECODE's first loop, at node `cur` (R290) -/
  | decode (cur : NodeIdx)
  /-- in DECODE's drain after the EOS leaf (R294) -/
  | decodeEnd
  /-- in the error epilogue's drain; `abort` says that the command is ENCODE or DECODE (R318) -/
  | errDrain (e : ErrCode) (info : Word) (abort : Bool)
  /-- every step is done but the OutWrites still pending; then the command completes, with this error if any -/
  | finish (verdict : Option (ErrCode × Word))
  deriving DecidableEq, Repr

/-- What the host, or the platform's reset input, does next (R99, R130, R350). An address is given as its byte offset
from HUF_BASE, so every address of the platform's bus is some integer (log 4). -/
inductive HostAct where
  /-- a register write of `bits` bits (R88) -/
  | write (off : Int) (bits : Nat) (v : Word)
  /-- a register read of `bits` bits (R88) -/
  | read (off : Int) (bits : Nat)
  /-- offer an input token (R81) -/
  | offer (t : InToken)
  /-- take an output token (R82) -/
  | take
  /-- wait until BUSY = 0 (R95, R130) -/
  | wait
  /-- the reset input is asserted (R350) -/
  | resetPin
  /-- the host lets the core make up to n moves before it acts again (R99; log 7) -/
  | coreTurn (n : Nat)
  /-- from now on the core makes that many moves in the step that accepts a command (log 7) -/
  | pace (p : Option Nat)
  deriving DecidableEq, Repr

/-- The machine. The fields down to `br` are the spec's registers, flags, tables and bit buffers; then the state that
lives inside one command (R62); then the ports and their depths (R81, R82, R11); the rest is the model's own. -/
structure State where
  /-- CTRL.IE (R34) -/
  ie : Bool
  /-- STATUS.BUSY: the IDLE/BUSY controller (R31, R35) -/
  busy : Bool
  /-- STATUS.DONE (R35) -/
  done : Bool
  /-- STATUS.ERR (R35) -/
  err : Bool
  /-- STATUS.REJ (R35) -/
  rej : Bool
  /-- STATUS.TREE_VALID (R36) -/
  treeValid : Bool
  /-- STATUS.CODES_VALID (R36) -/
  codesValid : Bool
  /-- STATUS.ERRCODE (R35, R312) -/
  errCode : BitVec 8
  /-- DATA (R38) -/
  data : Word
  /-- RESULT (R39) -/
  result : Word
  /-- ERRINFO (R40) -/
  errInfo : Word
  /-- BITCNT (R41) -/
  bitCnt : BitVec 64
  /-- SYMCNT (R42) -/
  symCnt : Word
  /-- NLEAF[8:0] (R43) -/
  nleaf : BitVec 9
  /-- NNODE[9:0] (R43) -/
  nnode : BitVec 10
  /-- ROOT (R43) -/
  root : NodeIdx
  /-- FREQ (R55) -/
  freq : FreqTable
  /-- NODE (R57) -/
  node : NodeTable
  /-- CODE (R59) -/
  code : CodeTable
  /-- BW (R60) -/
  bw : BitWriter
  /-- BR (R61) -/
  br : BitReader
  /-- LCMD (R37) -/
  lcmd : Word
  /-- LDATA (R37, R38) -/
  ldata : Word
  /-- seg_ended (R62): the running command has consumed an EOI or IOERR token -/
  segEnded : Bool
  /-- the position inside the running command (R62) -/
  activity : Activity
  /-- the OutWrites the running command has reached but not performed, in order (R62, R82) -/
  pending : List OutToken
  /-- the tokens the input port holds, the oldest first (R81) -/
  inPort : List InToken
  /-- the tokens the output port holds, the oldest first (R82) -/
  outPort : List OutToken
  /-- IN_DEPTH (R11) -/
  inDepth : Nat
  /-- OUT_DEPTH (R11) -/
  outDepth : Nat
  /-- the host's pending actions, the next first (R9, R99) -/
  script : List HostAct
  /-- the output tokens the host has taken, the oldest first -/
  taken : List OutToken
  /-- the words the host's reads have returned, the oldest first -/
  busReads : List Word
  /-- how many moves the core makes in the step that accepts a command; none: as many as the ports allow (log 7) -/
  pace : Option Nat
  /-- how many free values have been drawn (log 2, 3) -/
  freeCtr : Nat
  deriving DecidableEq, Repr

/-- Why no step can be taken (log 11). -/
inductive Fault where
  /-- The step: a running command waits at a port and no pending host action can free it
  (93_implementation_defined.md entry 11, 'stuck'; R100, R101). Safe: the model takes no step. -/
  | hang
  /-- The step: the core is idle and the host waits at a port, offering into a full one or taking from an empty one
  (R106). Safe: the model takes no step. -/
  | hostBlocked
  /-- The step: the run has ended (R9; `State.runEnded`). Safe: nothing is left to do. -/
  | runEnded
  /-- The step: the core is idle and the host has no further action, but output tokens are not taken: the run has not
  ended (R9), and the host breaks its duty to take them (R101). Safe: the model takes no step. -/
  | outputUntaken
  deriving DecidableEq, Repr

/-- What has no meaning. -/
inductive Refusal where
  /-- `exec`, for a command that has no meaning yet. Safe. No arm uses it. -/
  | notModelled (mnemonic : String)
  /-- The step: a register access that is misaligned, not 32 bits wide or outside the window; the spec says a model
  gives it no meaning (R89). Safe (log 10). -/
  | busError
  deriving DecidableEq, Repr

/-- The free contents of NODE after the n-th reset (R64, log 2). -/
def freeNodes (n : Nat) : NodeTable :=
  ⟨((List.range 513).map (Config.freeNode n)).toArray, by simp⟩

/-- The free contents of CODE after the n-th reset, within the length bound of R59 (log 2). -/
def freeCodes (n : Nat) : CodeTable :=
  ⟨((List.range 257).map fun s => (Config.freeCode n s).map (·.take Config.maxCodeLen)).toArray, by simp⟩

/-- An empty bit writer (R64). -/
def BitWriter.empty : BitWriter := ⟨0, 0⟩

/-- An empty bit reader (R64). -/
def BitReader.empty : BitReader := ⟨0, 0⟩

/-- FREQ all 0 (R64). -/
def zeroFreq : FreqTable := Vector.replicate 257 0

/-- The machine after hardware reset (R64, R350), both ports empty and the host with nothing to do (log 1, 2, 4, 17). -/
def State.reset : State where
  ie := false
  busy := false
  done := false
  err := false
  rej := false
  treeValid := false
  codesValid := false
  errCode := 0
  data := 0
  result := 0
  errInfo := 0
  bitCnt := 0
  symCnt := 0
  nleaf := 0
  nnode := 0
  root := 0
  freq := zeroFreq
  node := freeNodes 0
  code := freeCodes 0
  bw := BitWriter.empty
  br := BitReader.empty
  lcmd := 0
  ldata := 0
  segEnded := false
  activity := .idle
  pending := []
  inPort := []
  outPort := []
  inDepth := Config.inDepth
  outDepth := Config.outDepth
  script := []
  taken := []
  busReads := []
  pace := none
  freeCtr := 0

end Sys2Proof.Machine
end

