-- ==== Sys2Proof/Machine/Flags.lean ====
section
/-! DEFINITION. Error codes and phases (60_exceptions.md R312, R315), the STATUS word and its write-one-to-clear bits
(10_state.md R35, R47), the validity flags (R36), the counters (R41, R42) and the interrupt output (R322). -/
namespace Sys2Proof.Machine

/-- The 8-bit code STATUS.ERRCODE records (R312). -/
def ErrCode.toByte : ErrCode → BitVec 8
  | .illegal => 0x01
  | .range => 0x02
  | .noTree => 0x03
  | .noCodes => 0x04
  | .countOvf => 0x10
  | .hdrTrunc => 0x20
  | .hdrMagic => 0x21
  | .hdrVersion => 0x22
  | .hdrWidth => 0x23
  | .hdrCount => 0x24
  | .hdrEos => 0x25
  | .hdrSum => 0x26
  | .zeroTable => 0x30
  | .eosCount => 0x31
  | .sumOvf => 0x32
  | .noCode => 0x40
  | .truncated => 0x50
  | .io => 0x60

/-- Is the error a stream-phase error (R315)? -/
def ErrCode.stream : ErrCode → Bool
  | .illegal => false
  | .range => false
  | .noTree => false
  | .noCodes => false
  | .zeroTable => false
  | .eosCount => false
  | .sumOvf => false
  | .countOvf => true
  | .hdrTrunc => true
  | .hdrMagic => true
  | .hdrVersion => true
  | .hdrWidth => true
  | .hdrCount => true
  | .hdrEos => true
  | .hdrSum => true
  | .noCode => true
  | .truncated => true
  | .io => true

/-- A one-bit field of a register word at bit k. -/
def bitAt (b : Bool) (k : Nat) : Word := (BitVec.ofBool b).setWidth 32 <<< k

/-- The STATUS word with the two validity bits as given (R35); reserved bits read 0 (R46). -/
def statusWith (s : State) (tree codes : Bool) : Word :=
  bitAt s.busy 0 ||| bitAt s.done 1 ||| bitAt s.err 2 ||| bitAt s.rej 3 ||| bitAt tree 4 ||| bitAt codes 5
    ||| (s.errCode.setWidth 32 <<< 8)

/-- The STATUS word (R35). -/
def statusWord (s : State) : Word := statusWith s s.treeValid s.codesValid

/-- A host write of v to STATUS: DONE, ERR and REJ are write-one-to-clear, and clearing ERR is the return from an error
(R47, R320). -/
def writeStatus (v : Word) (s : State) : State :=
  { s with
    done := s.done && !v.getLsbD 1
    err := s.err && !v.getLsbD 2
    errCode := if v.getLsbD 2 then 0 else s.errCode
    errInfo := if v.getLsbD 2 then 0 else s.errInfo
    rej := s.rej && !v.getLsbD 3 }

/-- Both validity flags are cleared together (R36). -/
def State.invalidate (s : State) : State := { s with treeValid := false, codesValid := false }

/-- BITCNT grows by k modulo 2^64 (R41). -/
def State.countBits (k : Nat) (s : State) : State := { s with bitCnt := s.bitCnt + BitVec.ofNat 64 k }

/-- SYMCNT grows by one modulo 2^32 (R42). -/
def State.countSymbol (s : State) : State := { s with symCnt := s.symCnt + 1 }

/-- The interrupt output: irq = CTRL.IE AND STATUS.DONE (R322). -/
def irq (s : State) : Bool := s.ie && s.done

end Sys2Proof.Machine
end

