-- ==== Sys2Proof/Machine/Ops.lean ====
section
/-! DEFINITION. The named operations every command is written with (00_scope.md R15): the bit writer and the bit reader
(40_bitio.md R150-R157), acceptance (10_state.md R37), completion (R35), the one error epilogue (60_exceptions.md
R318), and reset (70_reset_and_hazards.md R350-R352). -/
namespace Sys2Proof.Machine

/-! The bit writer. -/

/-- A bit shifted in at the low end (R152, R156). -/
def shiftIn (v : Byte) (b : Bool) : Byte := (v <<< 1) ||| (BitVec.ofBool b).setWidth 8

/-- WriteBit(b): the writer after it, and the byte it emits if the eighth bit has gathered (R152). -/
def BitWriter.writeBit (bw : BitWriter) (b : Bool) : BitWriter × List OutToken :=
  if h : bw.n.val < 7 then (⟨shiftIn bw.acc b, ⟨bw.n.val + 1, by omega⟩⟩, [])
  else (BitWriter.empty, [.byte (shiftIn bw.acc b)])

/-- WriteBit of each bit in order: WriteCode(p), and WriteBits over the bits of a value (R153, R154). -/
def BitWriter.writeAll (bw : BitWriter) : List Bool → BitWriter × List OutToken
  | [] => (bw, [])
  | b :: bs =>
    match bw.writeBit b with
    | (bw1, out1) =>
      match bw1.writeAll bs with
      | (bw2, out2) => (bw2, out1 ++ out2)

/-- The low n bits of v, the most significant first: what WriteBits(v, n) writes (R153). -/
def lowBits {w : Nat} (v : BitVec w) : Nat → List Bool
  | 0 => []
  | n + 1 => v.getLsbD n :: lowBits v n

/-- Close(): pad and emit the partial byte if there is one, then EOO (R157, 90_conflicts.md C5). -/
def BitWriter.close (bw : BitWriter) : BitWriter × List OutToken :=
  if bw.n.val > 0 then (BitWriter.empty, [.byte (bw.acc <<< (8 - bw.n.val)), .eoo]) else (bw, [.eoo])

/-! The bit reader. `next` is the byte of the token ReadBit takes from the port when no bit is left. -/

/-- ReadBit() when a bit is left or the next token is the byte `next` (R155). -/
def BitReader.readBit (br : BitReader) (next : Byte) : Bool × BitReader :=
  if br.n.val = 0 then (next.getLsbD 7, ⟨next <<< 1, 7⟩)
  else (br.acc.getLsbD 7, ⟨br.acc <<< 1, ⟨br.n.val - 1, by omega⟩⟩)

/-- j ReadBit calls, the bits shifted into v (R156). -/
def BitReader.readBits (br : BitReader) (next : Byte) : Nat → Byte → Byte × BitReader
  | 0, v => (v, br)
  | j + 1, v =>
    match br.readBit next with
    | (r, br') => br'.readBits next j (shiftIn v r)

/-- ReadGroup8() when the one token it takes is the byte `next` (R156; log 8). -/
def BitReader.readGroup8 (br : BitReader) (next : Byte) : Byte × BitReader := br.readBits next 8 0

/-- The reader after ReadGroup8 has met a terminator: the bits it held were taken and discarded (R156). -/
def BitReader.discarded (br : BitReader) : BitReader := ⟨br.acc <<< br.n.val, 0⟩

/-! Acceptance and completion. -/

/-- EOI and IOERR end an input segment (R16). -/
def InToken.terminates : InToken → Bool
  | .byte _ => false
  | .eoi => true
  | .ioerr => true

/-- The acceptance of a command word: LCMD, LDATA, DONE and BUSY (R37). No token of a new command's input is consumed
yet, and no OutWrite is pending (R62). -/
def State.accept (w : Word) (s : State) : State :=
  { s with lcmd := w, ldata := s.data, done := false, busy := true, segEnded := false, activity := .idle, pending := [] }

/-- Every step of the command is done but these last OutWrites; it then completes with success. -/
def State.succeed (out : List OutToken) (s : State) : State :=
  { s with pending := out, activity := .finish none }

/-- Completion, with an error or without (R35, R310): DONE and BUSY, and on an error ERR, ERRCODE and ERRINFO (R318;
log 9). The transient state ends (R62; log 1). -/
def State.complete (verdict : Option (ErrCode × Word)) (s : State) : State :=
  match verdict with
  | none =>
    { s with done := true, busy := false, lcmd := 0, ldata := 0, segEnded := false, activity := .idle }
  | some (e, info) =>
    { s with
      done := true, busy := false, lcmd := 0, ldata := 0, segEnded := false, activity := .idle
      err := true, errCode := e.toByte, errInfo := info }

/-- The end of the epilogue of a stream-phase error, the input segment being over: BR is emptied, and ENCODE and DECODE
discard BW's pending bits and emit ABT (R318). -/
def State.abandon (e : ErrCode) (info : Word) (abort : Bool) (s : State) : State :=
  { s with
    br := BitReader.empty
    bw := if abort then BitWriter.empty else s.bw
    pending := if abort then [.abt] else []
    activity := .finish (some (e, info)) }

/-- raise E_X(info): the one error epilogue (R318). A stream-phase error first drains the input segment, unless its
terminator is already consumed; `abort` says that the command is ENCODE or DECODE. -/
def State.raise (e : ErrCode) (info : Word) (abort : Bool) (s : State) : State :=
  if e.stream then
    if s.segEnded then s.abandon e info abort
    else { s with pending := [], activity := .errDrain e info abort }
  else { s with pending := [], activity := .finish (some (e, info)) }

/-! Reset. -/

/-- Hardware reset and soft reset: every item of the spec's state takes its reset value, a running command stops where
it is, and neither port changes (R350-R352). The host's own record and the free-value counter go on (log 2, 17). -/
def State.doReset (s : State) : State :=
  { State.reset with
    node := freeNodes (s.freeCtr + 1)
    code := freeCodes (s.freeCtr + 1)
    inPort := s.inPort
    outPort := s.outPort
    inDepth := s.inDepth
    outDepth := s.outDepth
    script := s.script
    taken := s.taken
    busReads := s.busReads
    pace := s.pace
    freeCtr := s.freeCtr + 1 }

/-! Table access. -/

/-- FREQ[k] <- v (R15, R55). -/
def State.setFreq (k : Nat) (v : Word) (s : State) : State := { s with freq := s.freq.setIfInBounds k v }

/-- Every FREQ entry is 0: the start of COUNT, and what a failed COUNT or HDR_LOAD leaves (R181, R183, R199). -/
def State.clearFreq (s : State) : State := { s with freq := zeroFreq }

end Sys2Proof.Machine
end

