-- ==== Sys2Proof/Machine/Operands.lean ====
section
/-! DEFINITION. Operand checks and result words: table indices (30_encoding.md R126), the words NODE_RD and CODE_RD
return (42_tree.md R228, 43_codes.md R253), and GETBIT's (40_bitio.md R160). -/
namespace Sys2Proof.Machine

/-- An IDX operand as a symbol, if it is at most 256 (R126). -/
def symbolOf (idx : BitVec 10) : Option Symbol :=
  if h : idx.toNat < 257 then some ⟨idx.toNat, h⟩ else none

/-- An IDX operand as a node index, if it is below NNODE (R126); NNODE is at most 513 (R226). -/
def nodeOf (idx : BitVec 10) (nnode : BitVec 10) : Option NodeIdx :=
  if h : idx.toNat < nnode.toNat ∧ idx.toNat < 513 then some ⟨idx.toNat, h.2⟩ else none

/-- A node's count (R57). -/
def nodeCount : Node → Word
  | .leaf _ c => c
  | .internal c _ _ => c

/-- NODE_RD with SEL = 1: a leaf's symbol, or bit 31 and the two child indices (R228). -/
def nodeShape : Node → Word
  | .leaf sym _ => BitVec.ofNat 32 sym.val
  | .internal _ l r => 0x80000000#32 ||| (BitVec.ofNat 32 l.val <<< 20) ||| BitVec.ofNat 32 r.val

/-- CODE_RD with SEL = 0: bit 31 says the entry is present, bits 8:0 hold its length (R253). -/
def codeHead (p : Code) : Word := 0x80000000#32 ||| BitVec.ofNat 32 p.length

/-- CODE_RD with SEL = w + 1: code bits 32w to 32w + 31, the first in bit 31, 0 past the code's end (R253). -/
def codeWord (p : Code) (w : Nat) : Word :=
  (List.range 32).foldl (fun acc j => acc ||| bitAt (p.getD (32 * w + j) false) (31 - j)) 0

/-- What CODE_RD returns for an entry (R253). -/
def codeResult (entry : Option Code) (sel : BitVec 4) : Word :=
  match entry with
  | none => 0
  | some p => if sel = 0 then codeHead p else codeWord p (sel.toNat - 1)

/-- GETBIT's end-of-input result: not a bit (R160). -/
def endOfInput : Word := 0x80000000#32

/-- GETBIT's result for a bit (R160). -/
def bitResult (b : Bool) : Word := (BitVec.ofBool b).setWidth 32

end Sys2Proof.Machine
end

