-- ==== Sys2Proof/Machine/Header.lean ====
section
/-! DEFINITION. The header: its bytes (41_freq.md R196) and the checks HDR_LOAD makes on them in stream order
(R197, R198). -/
namespace Sys2Proof.Machine

/-- A 32-bit value as four big-endian bytes (R86, R196). -/
def bigEndian (v : Word) : List Byte :=
  [v.extractLsb' 24 8, v.extractLsb' 16 8, v.extractLsb' 8 8, v.extractLsb' 0 8]

/-- Header(F): the 1036 bytes of R196. -/
def headerBytes (f : FreqTable) : List Byte :=
  [0x48, 0x55, 0x46, 0x46, 0x01, 0x04, 0x01, 0x01] ++ f.toList.flatMap bigEndian

/-- The j-th newest byte of a newest-first buffer. -/
def newest (h : List Byte) (j : Nat) : Byte := h.getD j 0

/-- The last four bytes read, as a big-endian value (R86). -/
def lastFour (h : List Byte) : Word := newest h 3 ++ newest h 2 ++ newest h 1 ++ newest h 0

/-- The last two bytes read, as a big-endian value (R86). -/
def lastTwo (h : List Byte) : BitVec 16 := newest h 1 ++ newest h 0

/-- What the checks say when header byte i has just been read. -/
inductive HeaderVerdict where
  /-- the first check that fails (R197) -/
  | bad (e : ErrCode) (info : Word)
  /-- no field ends here, or a fixed field is as it must be -/
  | more
  /-- entry k is complete and good: its value, and the running sum with it (R198) -/
  | entry (k : Nat) (v : Word) (sum : Nat)
  deriving DecidableEq, Repr

/-- The checks of R198 when byte i has been read; `h` holds bytes 0..i, the newest first, and `sum` is the sum of the
entries before. -/
def headerVerdict (i : Nat) (h : List Byte) (sum : Nat) : HeaderVerdict :=
  if i = 3 ∧ lastFour h ≠ 0x48554646#32 then .bad .hdrMagic (lastFour h)
  else if i = 4 ∧ newest h 0 ≠ 0x01 then .bad .hdrVersion ((newest h 0).setWidth 32)
  else if i = 5 ∧ newest h 0 ≠ 0x04 then .bad .hdrWidth ((newest h 0).setWidth 32)
  else if i = 7 ∧ lastTwo h ≠ 257 then .bad .hdrCount ((lastTwo h).setWidth 32)
  else if i ≥ 11 ∧ (i - 8) % 4 = 3 then
    if (i - 8) / 4 = 256 ∧ lastFour h ≠ 1 then .bad .hdrEos (lastFour h)
    else if sum + (lastFour h).toNat > Config.cntMax then .bad .hdrSum (BitVec.ofNat 32 ((i - 8) / 4))
    else .entry ((i - 8) / 4) (lastFour h) (sum + (lastFour h).toNat)
  else .more

end Sys2Proof.Machine
end

