-- ==== Sys2Proof/Machine/Huffman.lean ====
section
/-! DEFINITION. The port-free computations on the tables: BUILD's checks and merge (42_tree.md R220-R226) and GENCODES'
walk (43_codes.md R250, R251). -/
namespace Sys2Proof.Machine

/-- The least k at which the running sum of FREQ[0..k] exceeds CNT_MAX, if there is one (R221); `k` is the index of the
list's first count and `sum` the sum before it. -/
def firstOverflow (sum k : Nat) : List Word → Option Nat
  | [] => none
  | c :: cs => if sum + c.toNat > Config.cntMax then some k else firstOverflow (sum + c.toNat) (k + 1) cs

/-- BUILD's checks, in order (R221). -/
def buildCheck (f : FreqTable) : Option (ErrCode × Word) :=
  if f.toList.all (· == 0) then some (.zeroTable, 0)
  else if f[256] ≠ 1 then some (.eosCount, f[256])
  else
    match firstOverflow 0 0 f.toList with
    | some k => some (.sumOvf, BitVec.ofNat 32 k)
    | none => none

/-- The leaves: one per symbol with a nonzero count, in ascending symbol order (R222). -/
def leavesOf (f : FreqTable) : List Node :=
  (List.finRange 257).filterMap fun sym => if f[sym] = 0 then none else some (.leaf sym f[sym])

/-- An element of the priority queue: a node's count and its index (R223). -/
structure QItem where
  count : Nat
  idx : Nat
  deriving DecidableEq, Repr

/-- The key order of R223: the count first, then the index. -/
def QItem.before (a b : QItem) : Bool := a.count < b.count || (a.count == b.count && a.idx ≤ b.idx)

/-- The item with the least key among `a` and the list's. -/
def leastOf (a : QItem) : List QItem → QItem
  | [] => a
  | b :: bs => leastOf (if a.before b then a else b) bs

/-- Remove the item with the least key (R223). -/
def popLeast : List QItem → Option (QItem × List QItem)
  | [] => none
  | a :: q => some (leastOf a q, (a :: q).erase (leastOf a q))

/-- The merge loop (R220, R224): at most `fuel` merges over the nodes made so far, in index order, and the queue. -/
def mergeLoop : Nat → List Node → List QItem → List Node × List QItem
  | 0, nodes, q => (nodes, q)
  | fuel + 1, nodes, q =>
    match popLeast q with
    | none => (nodes, q)
    | some (a, q1) =>
      match popLeast q1 with
      | none => (nodes, q)
      | some (b, q2) =>
        mergeLoop fuel
          (nodes ++ [.internal (BitVec.ofNat 32 (a.count + b.count)) (Fin.ofNat 513 a.idx) (Fin.ofNat 513 b.idx)])
          (q2 ++ [⟨a.count + b.count, nodes.length⟩])

/-- The first queue: every leaf's index with its count (R220). -/
def firstQueue (leaves : List Node) : List QItem :=
  leaves.zipIdx.map fun (l, i) => ⟨(nodeCount l).toNat, i⟩

/-- What BUILD makes. -/
structure Tree where
  /-- NODE[0..NNODE-1], in index order -/
  nodes : List Node
  nleaf : Nat
  root : Nat
  deriving DecidableEq, Repr

/-- The tree BUILD makes from a table that passes its checks (R220, R225): n leaves take n - 1 merges (R226). -/
def treeOf (f : FreqTable) : Tree :=
  match mergeLoop (leavesOf f).length (leavesOf f) (firstQueue (leavesOf f)) with
  | (nodes, q) => ⟨nodes, (leavesOf f).length, (q.head?.map (·.idx)).getD 0⟩

/-- NODE with its first entries written; the others are not written (R225). -/
def writeNodes (mem : NodeTable) (nodes : List Node) : NodeTable :=
  ⟨((nodes ++ mem.toList.drop nodes.length).take 513).toArray, by simp; omega⟩

/-- Walk(i, p) (R251). The first argument bounds the depth: a path of BUILD's tree has at most 256 steps (R254; log 13). -/
def walkCodes (node : NodeTable) : Nat → NodeIdx → Code → CodeTable → CodeTable
  | 0, _, _, t => t
  | d + 1, i, p, t =>
    match node[i] with
    | .leaf sym _ => t.set sym (some p)
    | .internal _ l r => walkCodes node d r (p ++ [true]) (walkCodes node d l (p ++ [false]) t)

/-- The code table of the tree at `root`: every entry ABSENT, then Walk(ROOT, "") (R251). -/
def codesOf (node : NodeTable) (root : NodeIdx) : CodeTable :=
  walkCodes node (Config.maxCodeLen + 1) root [] (Vector.replicate 257 none)

end Sys2Proof.Machine
end

