-- ==== Sys2Proof/Machine/Moves.lean ====
section
/-! DEFINITION. What a running command does from one port operation to the next: the loops of GETBIT, COUNT, HDR_LOAD,
ENCODE, DECODE and of the error epilogue, one turn of a loop at a time, and the core's moves (00_scope.md R8, R17;
20_memory.md R80-R84; log 6). Each `...Token` function is what its command does with the token InRead has just
returned. -/
namespace Sys2Proof.Machine

/-! GETBIT (40_bitio.md R160). -/

/-- GETBIT's bit is in hand. -/
def gotBit (r : Bool × BitReader) (s : State) : State :=
  { s with br := r.2, result := bitResult r.1 }.succeed []

/-- GETBIT with the token of its ReadBit (R155, R160). -/
def getbitToken (t : InToken) (s : State) : State :=
  match t with
  | .byte b => gotBit (s.br.readBit b) s
  | .eoi => { s with result := endOfInput }.succeed []
  | .ioerr => s.raise .io 0 false

/-! COUNT (41_freq.md R181-R183). -/

/-- One turn of COUNT's loop. On an error every FREQ entry is 0 before the epilogue (R183). -/
def countToken (t : InToken) (s : State) : State :=
  match t with
  | .byte b =>
    match s.br.readGroup8 b with
    | (g, br) =>
      if s.symCnt.toNat = Config.maxBytes then
        ({ s with br := br }.clearFreq).raise .countOvf (g.setWidth 32) false
      else
        { ({ s with br := br }.setFreq g.toNat (s.freq[byteSymbol g] + 1)).countSymbol with activity := .count }
  | .eoi => ({ s with br := s.br.discarded }.setFreq 256 1).succeed []
  | .ioerr => ({ s with br := s.br.discarded }.clearFreq).raise .io 0 false

/-! HDR_LOAD (41_freq.md R197-R199). -/

/-- One turn of HDR_LOAD's loop; `h` holds the header bytes read before, the newest first. On an error every FREQ entry
is 0 before the epilogue (R199). -/
def hdrLoadToken (h : List Byte) (sum : Nat) (t : InToken) (s : State) : State :=
  match t with
  | .byte b =>
    match s.br.readGroup8 b with
    | (g, br) =>
      match headerVerdict h.length (g :: h) sum with
      | .bad e info => ({ s with br := br }.clearFreq).raise e info false
      | .more => { s with br := br, activity := .hdrLoad (g :: h) sum }
      | .entry k v sum' =>
        if h.length + 1 = Config.hdrLen then ({ s with br := br }.setFreq k v).succeed []
        else { ({ s with br := br }.setFreq k v) with activity := .hdrLoad (g :: h) sum' }
  | .eoi => ({ s with br := s.br.discarded }.clearFreq).raise .hdrTrunc (BitVec.ofNat 32 h.length) false
  | .ioerr => ({ s with br := s.br.discarded }.clearFreq).raise .io 0 false

/-! ENCODE (44_encode.md R270-R274). -/

/-- The end of ENCODE: the EOS code, then Close (R271). EOS always has a code here (R271; log 12). -/
def encodeEnd (s : State) : State :=
  match s.bw.writeAll ((s.code[eosSymbol]).getD []) with
  | (bw1, out1) =>
    match bw1.close with
    | (bw2, out2) => ({ s with bw := bw2 }.countBits ((s.code[eosSymbol]).getD []).length).succeed (out1 ++ out2)

/-- One turn of ENCODE's loop (R270). -/
def encodeToken (t : InToken) (s : State) : State :=
  match t with
  | .byte b =>
    match s.br.readGroup8 b with
    | (g, br) =>
      match s.code[byteSymbol g] with
      | none => { s with br := br }.raise .noCode (g.setWidth 32) true
      | some p =>
        match s.bw.writeAll p with
        | (bw, out) =>
          { ({ s with br := br, bw := bw }.countBits p.length).countSymbol with pending := out, activity := .encode }
  | .eoi => encodeEnd { s with br := s.br.discarded }
  | .ioerr => { s with br := s.br.discarded }.raise .io 0 true

/-! DECODE (45_decode.md R290-R294). -/

/-- DECODE's turn at a leaf: EOS ends the payload and drops the padding bits (R291, R294); another symbol is written as
a byte and the walk goes back to ROOT (R297). -/
def decodeLeaf (sym : Symbol) (s : State) : State :=
  if sym = eosSymbol then { s with br := BitReader.empty, activity := .decodeEnd }
  else
    match s.bw.writeAll (lowBits (BitVec.ofNat 8 sym.val) 8) with
    | (bw, out) => { { s with bw := bw }.countSymbol with pending := out, activity := .decode s.root }

/-- DECODE's turn at an internal node with the bit just read: 0 goes left, 1 goes right (R290, R250). -/
def decodeBit (left right : NodeIdx) (r : Bool × BitReader) (s : State) : State :=
  { { s with br := r.2 }.countBits 1 with activity := .decode (if r.1 then right else left) }

/-- DECODE at an internal node, with no bit left and the token its ReadBit took (R290, R292). -/
def decodeToken (left right : NodeIdx) (t : InToken) (s : State) : State :=
  match t with
  | .byte b => decodeBit left right (s.br.readBit b) s
  | .eoi => s.raise .truncated s.symCnt true
  | .ioerr => s.raise .io 0 true

/-- One turn of DECODE's drain after the EOS leaf (R294). -/
def decodeEndToken (t : InToken) (s : State) : State :=
  match t with
  | .byte _ => s
  | .eoi =>
    match s.bw.close with
    | (bw, out) => { s with bw := bw }.succeed out
  | .ioerr => s.raise .io 0 true

/-! The error epilogue's drain (60_exceptions.md R318). -/

/-- One turn of the drain: an IOERR only ends it. -/
def drainToken (e : ErrCode) (info : Word) (abort : Bool) (t : InToken) (s : State) : State :=
  if t.terminates then s.abandon e info abort else s

/-! The core's moves. -/

/-- InRead(): take the oldest token of the input port and let `use` act on it; none while the port is empty (R81). -/
def inRead (s : State) (act : InToken → State → State) : Option State :=
  match s.inPort with
  | [] => none
  | t :: rest => some (act t { s with inPort := rest, segEnded := s.segEnded || t.terminates })

/-- OutWrite(t) for the first pending token: none while the output port is full (R82). -/
def outWrite (t : OutToken) (rest : List OutToken) (s : State) : Option State :=
  if s.outPort.length < s.outDepth then some { s with outPort := s.outPort ++ [t], pending := rest } else none

/-- DECODE's next turn at node `cur`: the leaf test comes before any reading (R291). -/
def decodeMove (cur : NodeIdx) (s : State) : Option State :=
  match s.node[cur] with
  | .leaf sym _ => some (decodeLeaf sym s)
  | .internal _ l r =>
    if s.br.n.val = 0 then inRead s (decodeToken l r)
    else some (decodeBit l r (s.br.readBit 0) s)

/-- One move of the core: the next pending OutWrite; else one turn of the running command's loop, or its completion.
None when no command runs or the move needs a port that blocks it (R81, R82). -/
def coreMove (s : State) : Option State :=
  match s.pending with
  | t :: rest => outWrite t rest s
  | [] =>
    match s.activity with
    | .idle => none
    | .finish verdict => some (s.complete verdict)
    | .getbit => inRead s getbitToken
    | .count => inRead s countToken
    | .hdrLoad h sum => inRead s (hdrLoadToken h sum)
    | .encode => inRead s encodeToken
    | .decode cur => decodeMove cur s
    | .decodeEnd => inRead s decodeEndToken
    | .errDrain e info abort => inRead s (drainToken e info abort)

/-- At most n moves of the core. -/
def coreRun : Nat → State → State
  | 0, s => s
  | n + 1, s =>
    match coreMove s with
    | none => s
    | some s' => coreRun n s'

/-- A number of moves after which the core has completed its command or is blocked at a port, whatever the command: each
move uses up a token, a bit, or room in the output port, but for four. -/
def moveBound (s : State) : Nat :=
  8 * s.inPort.length + s.br.n.val + 2 * (s.outDepth - s.outPort.length) + 4

/-- The core runs until its command completes or a port blocks it. -/
def runOn (s : State) : State := coreRun (moveBound s) s

/-- The moves the core makes in the step that accepts a command (log 7). -/
def launch (s : State) : State :=
  match s.pace with
  | none => runOn s
  | some n => coreRun n s

end Sys2Proof.Machine
end

