-- ==== Sys2Proof/Machine/BitIo.lean ====
section
/-! DEFINITION. The bit writer's and bit reader's commands: PUTBITS, FLUSH, GETBIT (40_bitio.md R158-R160). -/
namespace Sys2Proof.Machine

/-- PUTBITS N, its operand in range: WriteBits(LDATA, N) (R158). -/
def startPutbits (n : BitVec 6) (s : State) : State :=
  match s.bw.writeAll (lowBits s.ldata n.toNat) with
  | (bw, out) => { s with bw := bw }.succeed out

/-- PUTBITS N (R158); N > 32 is illegal (R126). -/
def execPutbits (n : BitVec 6) (s : State) : Host.Outcome State Fault Refusal :=
  .next (launch (if n.toNat ≤ 32 then startPutbits n s else s.raise .illegal s.lcmd false))

/-- FLUSH: Close() (R159). -/
def startFlush (s : State) : State :=
  match s.bw.close with
  | (bw, out) => { s with bw := bw }.succeed out

/-- FLUSH (R159). -/
def execFlush (s : State) : Host.Outcome State Fault Refusal := .next (launch (startFlush s))

/-- GETBIT: a bit that is left is returned at once; else the core waits for a token (R160, R155). -/
def startGetbit (s : State) : State :=
  if s.br.n.val = 0 then { s with pending := [], activity := .getbit } else gotBit (s.br.readBit 0) s

/-- GETBIT (R160). -/
def execGetbit (s : State) : Host.Outcome State Fault Refusal := .next (launch (startGetbit s))

end Sys2Proof.Machine
end

