-- ==== Sys2Proof/Machine/Codes.lean ====
section
/-! DEFINITION. The code table's commands: GENCODES and CODE_RD (43_codes.md). -/
namespace Sys2Proof.Machine

/-- GENCODES: E_NO_TREE, or the code table of the tree (R251). -/
def startGencodes (s : State) : State :=
  if s.treeValid then { s with codesValid := true, code := codesOf s.node s.root }.succeed []
  else s.raise .noTree 0 false

/-- GENCODES (R251). -/
def execGencodes (s : State) : Host.Outcome State Fault Refusal := .next (launch (startGencodes s))

/-- CODE_RD IDX, SEL with a legal SEL: E_NO_CODES, then E_RANGE, then the entry (R253, R314). -/
def startCodeRd (idx : BitVec 10) (sel : BitVec 4) (s : State) : State :=
  if s.codesValid then
    match symbolOf idx with
    | none => s.raise .range (idx.setWidth 32) false
    | some k => { s with result := codeResult s.code[k] sel }.succeed []
  else s.raise .noCodes 0 false

/-- CODE_RD IDX, SEL (R253); SEL > 8 is illegal (R126). -/
def execCodeRd (idx : BitVec 10) (sel : BitVec 4) (s : State) : Host.Outcome State Fault Refusal :=
  .next (launch (if sel.toNat ≤ 8 then startCodeRd idx sel s else s.raise .illegal s.lcmd false))

end Sys2Proof.Machine
end

