-- ==== Sys2Proof/Machine/Control.lean ====
section
/-! DEFINITION. NOP (46_control.md). A meaning acts on a state in which the command is accepted: it starts the command
and lets the core run (R8, log 7). -/
namespace Sys2Proof.Machine

/-- NOP: complete without effect (R305). -/
def execNop (s : State) : Host.Outcome State Fault Refusal := .next (launch (s.succeed []))

end Sys2Proof.Machine
end

