-- ==== Sys2Proof/Machine/Decoder.lean ====
section
/-! DEFINITION. DECODE (45_decode.md). -/
namespace Sys2Proof.Machine

/-- The start of DECODE: E_NO_TREE, or both counters cleared and the walk begun at ROOT (R290). -/
def startDecode (s : State) : State :=
  if s.treeValid then { s with bitCnt := 0, symCnt := 0, pending := [], activity := .decode s.root }
  else s.raise .noTree 0 false

/-- DECODE (R290). -/
def execDecode (s : State) : Host.Outcome State Fault Refusal := .next (launch (startDecode s))

end Sys2Proof.Machine
end

