-- ==== Sys2Proof/Machine/Encoder.lean ====
section
/-! DEFINITION. ENCODE (44_encode.md). -/
namespace Sys2Proof.Machine

/-- The start of ENCODE: E_NO_CODES, or both counters cleared and the loop entered (R270). -/
def startEncode (s : State) : State :=
  if s.codesValid then { s with bitCnt := 0, symCnt := 0, pending := [], activity := .encode }
  else s.raise .noCodes 0 false

/-- ENCODE (R270). -/
def execEncode (s : State) : Host.Outcome State Fault Refusal := .next (launch (startEncode s))

end Sys2Proof.Machine
end

