-- ==== Sys2Proof/Machine/Freq.lean ====
section
/-! DEFINITION. The frequency table's commands: COUNT, FREQ_RD, FREQ_WR, HDR_EMIT, HDR_LOAD (41_freq.md). -/
namespace Sys2Proof.Machine

/-- The start of COUNT (R181). -/
def startCount (s : State) : State :=
  { s.invalidate.clearFreq with symCnt := 0, pending := [], activity := .count }

/-- COUNT (R181). -/
def execCount (s : State) : Host.Outcome State Fault Refusal := .next (launch (startCount s))

/-- FREQ_RD IDX: RESULT <- FREQ[IDX], or E_RANGE (R184). -/
def startFreqRd (idx : BitVec 10) (s : State) : State :=
  match symbolOf idx with
  | none => s.raise .range (idx.setWidth 32) false
  | some k => { s with result := s.freq[k] }.succeed []

/-- FREQ_RD IDX (R184). -/
def execFreqRd (idx : BitVec 10) (s : State) : Host.Outcome State Fault Refusal := .next (launch (startFreqRd idx s))

/-- FREQ_WR IDX: FREQ[IDX] <- LDATA and both flags cleared, or E_RANGE (R185). -/
def startFreqWr (idx : BitVec 10) (s : State) : State :=
  match symbolOf idx with
  | none => s.raise .range (idx.setWidth 32) false
  | some k => (s.invalidate.setFreq k.val s.ldata).succeed []

/-- FREQ_WR IDX (R185). -/
def execFreqWr (idx : BitVec 10) (s : State) : Host.Outcome State Fault Refusal := .next (launch (startFreqWr idx s))

/-- HDR_EMIT: WriteBits(Header(FREQ)[i], 8) for every i (R190). -/
def startHdrEmit (s : State) : State :=
  match s.bw.writeAll ((headerBytes s.freq).flatMap (lowBits · 8)) with
  | (bw, out) => { s with bw := bw }.succeed out

/-- HDR_EMIT (R190). -/
def execHdrEmit (s : State) : Host.Outcome State Fault Refusal := .next (launch (startHdrEmit s))

/-- The start of HDR_LOAD (R198). -/
def startHdrLoad (s : State) : State := { s.invalidate with pending := [], activity := .hdrLoad [] 0 }

/-- HDR_LOAD (R198). -/
def execHdrLoad (s : State) : Host.Outcome State Fault Refusal := .next (launch (startHdrLoad s))

end Sys2Proof.Machine
end

