-- ==== Sys2Proof/Machine/Tree.lean ====
section
/-! DEFINITION. The tree builder's commands: BUILD and NODE_RD (42_tree.md). -/
namespace Sys2Proof.Machine

/-- BUILD: both flags cleared, the checks of R221, then the tree of R220; a failed check also clears NLEAF, NNODE and
ROOT (R227). -/
def startBuild (s : State) : State :=
  match buildCheck s.freq with
  | some (e, info) => { s.invalidate with nleaf := 0, nnode := 0, root := 0 }.raise e info false
  | none =>
    { s with
      treeValid := true
      codesValid := false
      node := writeNodes s.node (treeOf s.freq).nodes
      nleaf := BitVec.ofNat 9 (treeOf s.freq).nleaf
      nnode := BitVec.ofNat 10 (treeOf s.freq).nodes.length
      root := Fin.ofNat 513 (treeOf s.freq).root }.succeed []

/-- BUILD (R220). -/
def execBuild (s : State) : Host.Outcome State Fault Refusal := .next (launch (startBuild s))

/-- NODE_RD IDX, SEL with a legal SEL: E_NO_TREE, then E_RANGE, then the node's count or shape (R228, R314). -/
def startNodeRd (idx : BitVec 10) (sel : BitVec 4) (s : State) : State :=
  if s.treeValid then
    match nodeOf idx s.nnode with
    | none => s.raise .range (idx.setWidth 32) false
    | some i => { s with result := if sel = 0 then nodeCount s.node[i] else nodeShape s.node[i] }.succeed []
  else s.raise .noTree 0 false

/-- NODE_RD IDX, SEL (R228); SEL > 1 is illegal (R126). -/
def execNodeRd (idx : BitVec 10) (sel : BitVec 4) (s : State) : Host.Outcome State Fault Refusal :=
  .next (launch (if sel.toNat ≤ 1 then startNodeRd idx sel s else s.raise .illegal s.lcmd false))

end Sys2Proof.Machine
end

