-- ==== Sys2Proof/Machine/Dispatch.lean ====
section
/-! DEFINITION. The meaning of every command: one arm per constructor of Instr. -/
namespace Sys2Proof.Machine

def exec (i : Instr) (s : State) : Host.Outcome State Fault Refusal :=
  match i with
  | .nop => Sys2Proof.Machine.execNop s
  | .putbits n => Sys2Proof.Machine.execPutbits n s
  | .flush => Sys2Proof.Machine.execFlush s
  | .getbit => Sys2Proof.Machine.execGetbit s
  | .count => Sys2Proof.Machine.execCount s
  | .freqRd idx => Sys2Proof.Machine.execFreqRd idx s
  | .freqWr idx => Sys2Proof.Machine.execFreqWr idx s
  | .hdrEmit => Sys2Proof.Machine.execHdrEmit s
  | .hdrLoad => Sys2Proof.Machine.execHdrLoad s
  | .build => Sys2Proof.Machine.execBuild s
  | .nodeRd idx sel => Sys2Proof.Machine.execNodeRd idx sel s
  | .gencodes => Sys2Proof.Machine.execGencodes s
  | .codeRd idx sel => Sys2Proof.Machine.execCodeRd idx sel s
  | .encode => Sys2Proof.Machine.execEncode s
  | .decode => Sys2Proof.Machine.execDecode s

end Sys2Proof.Machine
end

