-- ==== Sys2Proof/Machine/HostActs.lean ====
section
/-! DEFINITION. What the host and the reset input do to the machine: register reads and writes (10_state.md R32-R48,
20_memory.md R88-R91), the two ports (R81, R82), waiting (R95), reset (R350, R351); and who acts next (R94, R99;
log 5, 7, 11). -/
namespace Sys2Proof.Machine

/-- The byte offset of a bus address from HUF_BASE (R92; log 4). -/
def busOffset (addr : Nat) : Int := (addr : Int) - (Config.hufBase : Int)

/-- The register an access reaches: k in 0..63 for a 32-bit access at HUF_BASE + 4k; none where R89 refuses it. -/
def accessIndex (off : Int) (bits : Nat) : Option Nat :=
  if bits = 32 ∧ 0 ≤ off ∧ off < (Config.regSpan : Int) ∧ off % 4 = 0 then some (off.toNat / 4) else none

/-- BITSTATE (R44). -/
def bitState (s : State) : Word :=
  s.bw.acc.setWidth 32 ||| (BitVec.ofNat 32 s.bw.n.val <<< 8) ||| (s.br.acc.setWidth 32 <<< 16)
    ||| (BitVec.ofNat 32 s.br.n.val <<< 24)

/-- What register k (at offset 4k) reads while BUSY = 0 (R32-R46). -/
def regValue (k : Nat) (s : State) : Word :=
  match k with
  | 0 => 0x48554643#32
  | 1 => 0x00000001#32
  | 2 => bitAt s.ie 0
  | 3 => statusWord s
  | 4 => 0
  | 5 => s.data
  | 6 => s.result
  | 7 => s.errInfo
  | 8 => s.bitCnt.extractLsb' 0 32
  | 9 => s.bitCnt.extractLsb' 32 32
  | 10 => s.symCnt
  | 11 => s.nleaf.setWidth 32
  | 12 => s.nnode.setWidth 32
  | 13 => BitVec.ofNat 32 s.root.val
  | 14 => bitState s
  | _ => 0

/-- The registers whose reads return any value while BUSY = 1: RESULT, ERRINFO, BITCNT, SYMCNT, NLEAF, NNODE, ROOT,
BITSTATE (R48). -/
def volatile (k : Nat) : Bool := 6 ≤ k && k ≤ 14

/-- What register k reads while BUSY = 1, `any` being a free value: STATUS has its two validity bits from it (R48). -/
def busyValue (k : Nat) (any : Word) (s : State) : Word :=
  if k = 3 then statusWith s (any.getLsbD 4) (any.getLsbD 5)
  else if volatile k then any
  else regValue k s

/-- A register read: the word goes to the host, and no register changes (R91). While BUSY = 1 a free value is drawn
(R48; log 3). -/
def readReg (k : Nat) (s : State) : State :=
  if s.busy then
    { s with busReads := s.busReads ++ [busyValue k (Config.freeWord s.freeCtr) s], freeCtr := s.freeCtr + 1 }
  else { s with busReads := s.busReads ++ [regValue k s] }

/-- A write to CTRL: SRST = 1 resets, whatever else the word holds; else IE takes bit 0 (R34, R351). -/
def writeCtrl (v : Word) (s : State) : State :=
  if v.getLsbD 1 then s.doReset else { s with ie := v.getLsbD 0 }

/-- The command an accepted word starts, or E_ILLEGAL (R37, R124-R127). -/
def issue (w : Word) (s : State) : Host.Outcome State Fault Refusal :=
  match decode w with
  | .ok i => exec i (s.accept w)
  | .error _ => .next (launch ((s.accept w).raise .illegal w false))

/-- A write to CMD: accepted if and only if BUSY = 0 and ERR = 0; else lost, with REJ set (R37). -/
def writeCmd (w : Word) (s : State) : Host.Outcome State Fault Refusal :=
  if s.busy || s.err then .next { s with rej := true } else issue w s

/-- A register write of v to register k (R32-R47); read-only registers and reserved offsets ignore it (R45, R46, R91). -/
def writeReg (k : Nat) (v : Word) (s : State) : Host.Outcome State Fault Refusal :=
  match k with
  | 2 => .next (writeCtrl v s)
  | 3 => .next (writeStatus v s)
  | 4 => writeCmd v s
  | 5 => .next { s with data := v }
  | _ => .next s

/-- The host cannot act until the core moves: the core runs, and the host's action stays pending. If the core cannot
move, no step can be taken (log 11). -/
def coreInstead (s : State) : Host.Outcome State Fault Refusal :=
  if (coreMove s).isSome then .next (runOn s)
  else if s.busy then .fault .hang
  else .fault .hostBlocked

/-- The host's next action, `rest` being its actions after it. An action that a port or BUSY holds back waits, and the
core runs instead (R81, R82, R95). -/
def hostAct (a : HostAct) (rest : List HostAct) (s : State) : Host.Outcome State Fault Refusal :=
  match a with
  | .write off bits v =>
    match accessIndex off bits with
    | none => .refused .busError
    | some k => writeReg k v { s with script := rest }
  | .read off bits =>
    match accessIndex off bits with
    | none => .refused .busError
    | some k => .next (readReg k { s with script := rest })
  | .offer t =>
    if s.inPort.length < s.inDepth then .next { s with script := rest, inPort := s.inPort ++ [t] } else coreInstead s
  | .take =>
    match s.outPort with
    | [] => coreInstead s
    | t :: port => .next { s with script := rest, outPort := port, taken := s.taken ++ [t] }
  | .wait => if s.busy then coreInstead s else .next { s with script := rest }
  | .resetPin => .next { s with script := rest }.doReset
  | .coreTurn n => .next (coreRun n { s with script := rest })
  | .pace p => .next { s with script := rest, pace := p }

/-- Has the run ended (R9)? No command runs, the host has no further action, and it has taken every output token. That the
core has consumed no token beyond those its commands needed holds of every state: nothing looks ahead (R84). -/
def State.runEnded (s : State) : Bool := !s.busy && s.script.isEmpty && s.outPort.isEmpty

/-- The host has no action left: a core that can move runs on; else the run has ended, or no step can be taken (R9, R101;
log 11). -/
def coreAlone (s : State) : Host.Outcome State Fault Refusal :=
  if (coreMove s).isSome then .next (runOn s)
  else if s.busy then .fault .hang
  else if s.runEnded then .fault .runEnded
  else .fault .outputUntaken

/-- The host action that writes command word w to CMD (R37). -/
def cmdWrite (w : Word) : HostAct := .write 0x10 32 w

end Sys2Proof.Machine
end

