-- ==== Sys2Proof/Machine/Step.lean ====
section
/-! DEFINITION. One step: the host's next pending action, or the core's moves where the host has none or must wait
(00_scope.md R7-R9). -/
namespace Sys2Proof.Machine

/-- One step of the machine. -/
def step (s : State) : Host.Outcome State Fault Refusal :=
  match s.script with
  | [] => coreAlone s
  | a :: rest => hostAct a rest s

/-- The block fetches nothing (R31, R92): a command is run by the host writing its word to CMD, so the word is placed as
the host's next action (log 5). It is accepted if BUSY = 0 and ERR = 0, as after reset (R37). -/
def State.withFetchWord (s : State) (_nbits w : Nat) : State :=
  { s with script := cmdWrite (BitVec.ofNat 32 w) :: s.script }

end Sys2Proof.Machine
end

