-- ==== Sys2Proof/Safety.lean ====
section
/-! DEFINITION. What holds of every state a run reaches: the invariants 10_state.md and 20_memory.md state about the bit
buffers (R60, R61), STATUS (R35), the controller (R31, R62), the ports (R81, R82), the code store (R59) and the validity
flags (R36). Claims use them to shut out states that no run reaches. -/
namespace Sys2Proof.Machine

/-- BW.acc < 2^BW.n: the bits above the pending ones are 0 (R60). -/
def BitWriter.wf (bw : BitWriter) : Bool := bw.acc.toNat < 2 ^ bw.n.val

/-- BR.acc[7-n:0] = 0: the bits below the remaining ones are 0 (R61). -/
def BitReader.wf (br : BitReader) : Bool := br.acc.toNat % 2 ^ (8 - br.n.val) == 0

/-- No stored code is longer than 256 bits (R59, R254). FREQ and NODE need no such condition (log 18). -/
def Memory.wf (code : CodeTable) : Bool :=
  code.toList.all fun entry =>
    match entry with
    | none => true
    | some p => p.length ≤ Config.maxCodeLen

/-- The invariants of STATUS, and ERRINFO's with them (R35, R40). -/
def State.StatusOk (s : State) : Prop :=
  (s.err = false → s.errCode = 0 ∧ s.errInfo = 0) ∧ (s.err = true → s.errCode ≠ 0) ∧
  (s.busy = true → s.done = false ∧ s.err = false) ∧ (s.codesValid = true → s.treeValid = true)

/-- BUSY = 0 exactly when no command runs, and then nothing is left to emit (R31, R35). -/
def State.ControlOk (s : State) : Prop :=
  (s.busy = false ↔ s.activity = .idle) ∧ (s.busy = false → s.pending = [])

/-- What holds while the running command stands at each of its loops (R36, R62, R161). -/
def State.ActivityOk (s : State) : Prop :=
  match s.activity with
  | .idle => True
  | .getbit => s.br.n = 0
  | .count => s.treeValid = false
  | .hdrLoad h _ => s.treeValid = false ∧ h.length < Config.hdrLen
  | .encode => s.codesValid = true
  | .decode _ => s.treeValid = true
  | .decodeEnd => s.br = BitReader.empty ∧ s.treeValid = true
  | .errDrain e _ _ => e.stream = true
  | .finish _ => True

/-- Neither port holds more than its depth, and both depths are at least 1 (R11, R81, R82). -/
def State.PortsOk (s : State) : Prop :=
  1 ≤ s.inDepth ∧ 1 ≤ s.outDepth ∧ s.inPort.length ≤ s.inDepth ∧ s.outPort.length ≤ s.outDepth

/-- TREE_VALID = 1 means that NODE, NLEAF, NNODE and ROOT hold the tree BUILD makes from the current FREQ (R36). -/
def State.TreeOk (s : State) : Prop :=
  buildCheck s.freq = none ∧ (∀ i : NodeIdx, i.val < (treeOf s.freq).nodes.length →
      (treeOf s.freq).nodes[i.val]? = some s.node[i]) ∧
  s.nleaf = BitVec.ofNat 9 (treeOf s.freq).nleaf ∧
  s.nnode = BitVec.ofNat 10 (treeOf s.freq).nodes.length ∧ s.root = Fin.ofNat 513 (treeOf s.freq).root

/-- CODES_VALID = 1 means that CODE holds the code table GENCODES derives from that tree (R36). -/
def State.CodesOk (s : State) : Prop := s.code = codesOf s.node s.root

/-- What both validity flags mean (R36). -/
def State.FlagsOk (s : State) : Prop :=
  (s.treeValid = true → s.TreeOk) ∧ (s.codesValid = true → s.CodesOk)

/-- Everything above together: the machine's invariant. -/
structure State.Inv (s : State) : Prop where
  writer : s.bw.wf = true
  reader : s.br.wf = true
  memory : Memory.wf s.code = true
  status : s.StatusOk
  control : s.ControlOk
  activity : s.ActivityOk
  ports : s.PortsOk
  flags : s.FlagsOk

/-- The core cannot move: it is idle, or the running command waits at a port. -/
def State.Stopped (s : State) : Prop := coreMove s = none

/-! The words claims are stated in. -/

/-- A state in which the running command has completed with success, and nothing else has changed (R35, R310). -/
def State.finished (s : State) : State :=
  { s with
    done := true, busy := false, lcmd := 0, ldata := 0, segEnded := false, activity := .idle, pending := [] }

/-- A state in which the running command has ended in error e, and nothing else has changed (R318). -/
def State.failed (e : ErrCode) (info : Word) (s : State) : State :=
  { s.finished with err := true, errCode := e.toByte, errInfo := info }

/-- The writer's pending bits, the oldest first (R60). -/
def BitWriter.bits (bw : BitWriter) : List Bool := lowBits bw.acc bw.n.val

/-- The reader's remaining bits, the next to return first (R61). -/
def BitReader.bits (br : BitReader) : List Bool := (lowBits br.acc 8).take br.n.val

/-- A byte's bits in stream order, the most significant first (R85). -/
def byteBits (b : Byte) : List Bool := lowBits b 8

/-- Bytes as input tokens. -/
def bytesIn (bs : List Byte) : List InToken := bs.map .byte

/-- Bytes as output tokens. -/
def bytesOut (bs : List Byte) : List OutToken := bs.map .byte

/-- The bits as one value, the first bit the most significant (R156). -/
def packByte (bits : List Bool) : Byte := bits.foldl shiftIn 0

/-- A bit stream cut into groups of 8; a partial group at the end is dropped (R156). -/
def groups : List Bool → List Byte
  | b7 :: b6 :: b5 :: b4 :: b3 :: b2 :: b1 :: b0 :: rest => packByte [b7, b6, b5, b4, b3, b2, b1, b0] :: groups rest
  | _ => []

/-- The bits the reader hands out of a segment of these bytes: what it still holds, then theirs (R155). -/
def inputBits (br : BitReader) (bs : List Byte) : List Bool := br.bits ++ bs.flatMap byteBits

/-- The node a path leads to, each step going through an internal node: 0 left, 1 right (R250). -/
def follow (node : NodeTable) : NodeIdx → Code → Option NodeIdx
  | i, [] => some i
  | i, b :: p =>
    match node[i] with
    | .leaf _ _ => none
    | .internal _ l r => follow node (if b then r else l) p

/-- p is the path from ROOT to a leaf of sym (R250). -/
def State.IsCode (s : State) (sym : Symbol) (p : Code) : Prop :=
  ∃ i c, follow s.node s.root p = some i ∧ s.node[i] = .leaf sym c

/-- The host actions that only work the ports or let the core move (R99). -/
def HostAct.onPorts : HostAct → Bool
  | .offer _ => true
  | .take => true
  | .wait => true
  | .coreTurn _ => true
  | .write _ _ _ => false
  | .read _ _ => false
  | .resetPin => false
  | .pace _ => false

/-- The token an action offers, if it offers one. -/
def HostAct.offered : HostAct → Option InToken
  | .offer t => some t
  | .take => none
  | .wait => none
  | .coreTurn _ => none
  | .write _ _ _ => none
  | .read _ _ => none
  | .resetPin => none
  | .pace _ => none

/-- The same state with the ports' timing taken out: every token the host is still to offer is in the input port, no
output token has been taken yet, the output port holds d tokens, and the core is not paced (R8, R11). -/
def State.atOnce (d : Nat) (s : State) : State :=
  { s with
    script := [], inPort := s.inPort ++ s.script.filterMap HostAct.offered, outPort := s.taken ++ s.outPort
    taken := [], outDepth := d, pace := none }

/-- The sum of a frequency table, exact (R221). -/
def tableSum (f : FreqTable) : Nat := (f.toList.map BitVec.toNat).sum

/-- A table that HDR_LOAD and BUILD accept: FREQ[256] = 1 and the sum at most CNT_MAX (R197, R221). -/
def LegalTable (f : FreqTable) : Prop := f[256] = 1 ∧ tableSum f ≤ Config.cntMax

end Sys2Proof.Machine
end

