-- ==== Sys2Proof/Certificates/Slice0/Obligations.lean ====
section
/-! DEFINITION. The statements for the provers. Each docstring names the rules of spec/ the statement formalises. What is
the model's in them, not the spec's: a statement that a command completes in its own step assumes `pace = none`, the
host letting the core run in the step that accepts the command (log 7), and room in the output port for what the command
emits (R82, R101); and a completed command leaves the transient fields lcmd, ldata, segEnded, activity and pending at the
values of log 1 (`State.finished`, `State.failed`). Every other field not named is unchanged. -/

open Sys2Proof Sys2Proof.Machine

/-! Encoding (30_encoding.md). -/

/-- R120-R123, R129: every well-formed command is read back from its word. -/
def Obligations.DecodeOfEncode : Prop :=
  ∀ i : Instr, i.wf = true → decode (encode i) = .ok i

/-- R127, R128: a word that decodes is the word of exactly one well-formed command. -/
def Obligations.EncodeOfDecode : Prop :=
  ∀ (w : Word) (i : Instr), decode w = .ok i →
    encode i = w ∧ i.wf = true ∧ ∀ j : Instr, j.wf = true → encode j = w → j = i

/-- R124, R125, R126: why a word is illegal. -/
def Obligations.DecodeRefusesByName : Prop :=
  ∀ w : Word,
    (decode w = .error .undefinedOpcode ↔
      (w.extractLsb' 0 8).toNat ∉ [0x00, 0x01, 0x02, 0x03, 0x10, 0x11, 0x12, 0x13, 0x14, 0x20, 0x21, 0x30, 0x31, 0x40, 0x50]) ∧
    (decode w = .error .fieldLimit ↔
      (w &&& 0xFFFFC0FF#32 = 0x01#32 ∧ 32 < (w.extractLsb' 8 6).toNat) ∨
      (w &&& 0xFFC000FF#32 = 0x21#32 ∧ 1 < (w.extractLsb' 18 4).toNat) ∨
      (w &&& 0xFFC000FF#32 = 0x31#32 ∧ 8 < (w.extractLsb' 18 4).toNat)) ∧
    (decode w = .error .reservedBits ↔
      ((w.extractLsb' 0 8).toNat ∈ [0x00, 0x02, 0x03, 0x10, 0x13, 0x14, 0x20, 0x30, 0x40, 0x50] ∧
        w.extractLsb' 8 24 ≠ 0) ∨
      ((w.extractLsb' 0 8).toNat = 0x01 ∧ w.extractLsb' 14 18 ≠ 0) ∨
      ((w.extractLsb' 0 8).toNat ∈ [0x11, 0x12] ∧ w.extractLsb' 18 14 ≠ 0) ∨
      ((w.extractLsb' 0 8).toNat ∈ [0x21, 0x31] ∧ w.extractLsb' 22 10 ≠ 0))

/-- R129: the examples of the assembler syntax, and one word of every family. -/
def Obligations.SpecWordsDecode : Prop :=
  decode 0x00000301#32 = .ok (.putbits 3) ∧ decode 0x00002001#32 = .ok (.putbits 32) ∧
  decode 0x00010011#32 = .ok (.freqRd 256) ∧ decode 0x00004112#32 = .ok (.freqWr 65) ∧
  decode 0x00040421#32 = .ok (.nodeRd 4 1) ∧ decode 0x00044131#32 = .ok (.codeRd 65 1) ∧
  decode 0x00000000#32 = .ok .nop ∧ decode 0x00000040#32 = .ok .encode ∧ decode 0x00000050#32 = .ok .decode

/-! Command issue, register access, ports, reset (10_state.md, 20_memory.md, 70_reset_and_hazards.md). -/

/-- R37: a CMD write with BUSY = 0 and ERR = 0 latches the word and DATA, sets BUSY, clears DONE and starts the command
the word selects; the host's script moves on. -/
def Obligations.StepRunsDecodedCommand : Prop :=
  ∀ (s : State) (w : Word) (rest : List HostAct) (i : Instr),
    s.script = .write 0x10 32 w :: rest → s.busy = false → s.err = false → decode w = .ok i →
    step s = exec i { s with
      script := rest, lcmd := w, ldata := s.data, done := false, busy := true, segEnded := false,
      activity := .idle, pending := [] }

/-- R127, R318: an accepted word that is no legal command ends in E_ILLEGAL with ERRINFO = the word, and has no other
effect. -/
def Obligations.IllegalWordHasOnlyTheEpilogue : Prop :=
  ∀ (s : State) (w : Word) (rest : List HostAct) (e : Illegal),
    s.script = .write 0x10 32 w :: rest → s.busy = false → s.err = false → s.pace = none → decode w = .error e →
    step s = .next { s with
      script := rest, done := true, err := true, errCode := 0x01, errInfo := w, lcmd := 0, ldata := 0,
      segEnded := false, activity := .idle, pending := [] }

/-- R37: a CMD write while BUSY = 1 or ERR = 1 changes nothing but REJ. -/
def Obligations.CmdWriteRejected : Prop :=
  ∀ (s : State) (w : Word) (rest : List HostAct),
    s.script = .write 0x10 32 w :: rest → (s.busy = true ∨ s.err = true) →
    step s = .next { s with script := rest, rej := true }

/-- R88, R89, R92: the only register access is a 32-bit one at HUF_BASE + 4k, 0 <= k <= 63; any other is refused. That an
access outside the window is the same refusal, busError, is the model's (log 10), and HUF_BASE has no value (log 4). -/
def Obligations.OtherAccessRefused : Prop :=
  ∀ (s : State) (addr bits : Nat) (v : Word) (rest : List HostAct),
    ((step { s with script := .read (busOffset addr) bits :: rest } = .refused .busError ↔
        ¬ (bits = 32 ∧ ∃ k, k ≤ 63 ∧ addr = Config.hufBase + 4 * k)) ∧
      (step { s with script := .write (busOffset addr) bits v :: rest } = .refused .busError ↔
        ¬ (bits = 32 ∧ ∃ k, k ≤ 63 ∧ addr = Config.hufBase + 4 * k)))

/-- R47: a write of v to STATUS. -/
def Obligations.StatusWriteClears : Prop :=
  ∀ (s : State) (v : Word) (rest : List HostAct), s.script = .write 0x0C 32 v :: rest →
    step s = .next { s with
      script := rest
      done := if v.getLsbD 1 then false else s.done
      err := if v.getLsbD 2 then false else s.err
      errCode := if v.getLsbD 2 then 0x00 else s.errCode
      errInfo := if v.getLsbD 2 then 0 else s.errInfo
      rej := if v.getLsbD 3 then false else s.rej }

/-- R34, R62, R64, R351, R352: a CTRL write with SRST = 1 resets in any state, whatever IE it carries: every register, FREQ
and the bit buffers take their reset values, no transient state is left, neither port changes, no token is emitted, and DONE
is not set. One with SRST = 0 changes IE alone. The model's: that the transient fields lcmd, ldata and segEnded then hold 0
(log 1), and that the script moves on and the host's record and `pace` stay (log 17). -/
def Obligations.CtrlWrite : Prop :=
  ∀ (s : State) (v : Word) (rest : List HostAct), s.script = .write 0x08 32 v :: rest →
    (v.getLsbD 1 = false → step s = .next { s with script := rest, ie := v.getLsbD 0 }) ∧
    (v.getLsbD 1 = true → ∃ t, step s = .next t ∧
      (∀ k, k ≠ 0 → k ≠ 1 → regValue k t = 0) ∧ irq t = false ∧
      t.busy = false ∧ t.done = false ∧ t.err = false ∧ t.rej = false ∧ t.treeValid = false ∧ t.codesValid = false ∧
      (∀ k : Symbol, t.freq[k] = 0) ∧ t.bw = ⟨0, 0⟩ ∧ t.br = ⟨0, 0⟩ ∧ t.activity = .idle ∧ t.pending = [] ∧
      t.lcmd = 0 ∧ t.ldata = 0 ∧ t.segEnded = false ∧
      t.script = rest ∧ t.taken = s.taken ∧ t.busReads = s.busReads ∧ t.pace = s.pace ∧
      t.inPort = s.inPort ∧ t.outPort = s.outPort ∧ t.inDepth = s.inDepth ∧ t.outDepth = s.outDepth)

/-- R38, R91, R33, R45, R46: a DATA write stores its value; a write to a read-only register or a reserved offset changes
nothing. -/
def Obligations.DataWriteStoresOthersIgnore : Prop :=
  ∀ (s : State) (k : Nat) (v : Word) (rest : List HostAct), k ≤ 63 → s.script = .write (4 * (k : Int)) 32 v :: rest →
    (k = 5 → step s = .next { s with script := rest, data := v }) ∧
    (k ∉ [2, 3, 4, 5] → step s = .next { s with script := rest })

/-- R351, R350: a CTRL write with SRST = 1 and the reset input leave the same state, whatever the block was doing. -/
def Obligations.ResetInputIsSoftReset : Prop :=
  ∀ (s : State) (v : Word) (rest : List HostAct), v.getLsbD 1 = true → ∃ t,
    step { s with script := .resetPin :: rest } = .next t ∧ step { s with script := .write 0x08 32 v :: rest } = .next t

/-- R64, R350, R33: what reset leaves. -/
def Obligations.ResetValues : Prop :=
  regValue 0 State.reset = 0x48554643#32 ∧ regValue 1 State.reset = 0x00000001#32 ∧
  (∀ k, k ≠ 0 → k ≠ 1 → regValue k State.reset = 0) ∧
  State.reset.busy = false ∧ State.reset.done = false ∧ State.reset.err = false ∧ State.reset.rej = false ∧
  State.reset.treeValid = false ∧ State.reset.codesValid = false ∧ State.reset.errCode = 0x00 ∧
  State.reset.ie = false ∧ irq State.reset = false ∧ (∀ k : Symbol, State.reset.freq[k] = 0) ∧
  State.reset.bw = ⟨0, 0⟩ ∧ State.reset.br = ⟨0, 0⟩ ∧ State.reset.activity = .idle

/-- R32-R46, R88, R91: while BUSY = 0 a read at offset 4k hands the register's value, field by field, to the host and
changes nothing: the register map. -/
def Obligations.IdleReadReturnsRegister : Prop :=
  ∀ (s : State) (k : Nat) (rest : List HostAct), k ≤ 63 → s.script = .read (4 * (k : Int)) 32 :: rest → s.busy = false →
    ∃ v : Word, step s = .next { s with script := rest, busReads := s.busReads ++ [v] } ∧
      (k = 0 → v = 0x48554643#32) ∧ (k = 1 → v = 0x00000001#32) ∧
      (k = 2 → v.getLsbD 0 = s.ie ∧ v.extractLsb' 1 31 = 0) ∧
      (k = 3 → v.getLsbD 0 = false ∧ v.getLsbD 1 = s.done ∧ v.getLsbD 2 = s.err ∧ v.getLsbD 3 = s.rej ∧
        v.getLsbD 4 = s.treeValid ∧ v.getLsbD 5 = s.codesValid ∧ v.extractLsb' 6 2 = 0 ∧
        v.extractLsb' 8 8 = s.errCode ∧ v.extractLsb' 16 16 = 0) ∧
      (k = 4 → v = 0) ∧ (k = 5 → v = s.data) ∧ (k = 6 → v = s.result) ∧ (k = 7 → v = s.errInfo) ∧
      (k = 8 → v = s.bitCnt.extractLsb' 0 32) ∧ (k = 9 → v = s.bitCnt.extractLsb' 32 32) ∧ (k = 10 → v = s.symCnt) ∧
      (k = 11 → v.toNat = s.nleaf.toNat) ∧ (k = 12 → v.toNat = s.nnode.toNat) ∧ (k = 13 → v.toNat = s.root.val) ∧
      (k = 14 → v.extractLsb' 0 8 = s.bw.acc ∧ (v.extractLsb' 8 4).toNat = s.bw.n.val ∧ v.extractLsb' 12 4 = 0 ∧
        v.extractLsb' 16 8 = s.br.acc ∧ (v.extractLsb' 24 4).toNat = s.br.n.val ∧ v.extractLsb' 28 4 = 0) ∧
      (15 ≤ k → v = 0)

/-- R48: while BUSY = 1, ID, VERSION, CTRL and DATA read their values, and STATUS reads BUSY = 1, DONE = 0, ERR = 0,
ERRCODE = 0x00, REJ at its value and its reserved bits 0 (R46); no read changes a register (R91). R48 does not list CMD
and the reserved offsets: that they read 0 then too is read from R37 and R45 (log 3, DEDUCED), and that a read draws one
free value, freeCtr + 1, is the model's (log 3, DESIGN CHOICE). -/
def Obligations.BusyReadReturnsStableValues : Prop :=
  ∀ (s : State) (k : Nat) (rest : List HostAct), k ≤ 63 → s.script = .read (4 * (k : Int)) 32 :: rest → s.busy = true →
    s.StatusOk →
    ∃ v : Word, step s = .next { s with script := rest, busReads := s.busReads ++ [v], freeCtr := s.freeCtr + 1 } ∧
      (k = 0 → v = 0x48554643#32) ∧ (k = 1 → v = 0x00000001#32) ∧
      (k = 2 → v.getLsbD 0 = s.ie ∧ v.extractLsb' 1 31 = 0) ∧
      (k = 3 → v.getLsbD 0 = true ∧ v.getLsbD 1 = false ∧ v.getLsbD 2 = false ∧ v.getLsbD 3 = s.rej ∧
        v.extractLsb' 6 2 = 0 ∧ v.extractLsb' 8 8 = 0x00#8 ∧ v.extractLsb' 16 16 = 0) ∧
      (k = 4 → v = 0) ∧ (k = 5 → v = s.data) ∧ (15 ≤ k → v = 0)

/-- R45: the reserved offsets 0x3C to 0xFC, whatever the block is doing. R48 does not list them: that they read 0 while
BUSY = 1 too is read from R45 (log 3, DEDUCED), and that a read then draws one free value, freeCtr + 1, is the model's (log
3, DESIGN CHOICE). -/
def Obligations.ReservedOffsets : Prop :=
  ∀ (s : State) (k : Nat) (rest : List HostAct), 15 ≤ k → k ≤ 63 →
    (s.script = .read (4 * (k : Int)) 32 :: rest →
      step s = .next { s with
        script := rest, busReads := s.busReads ++ [0], freeCtr := if s.busy then s.freeCtr + 1 else s.freeCtr }) ∧
    (∀ v, s.script = .write (4 * (k : Int)) 32 v :: rest → step s = .next { s with script := rest })

/-- R81, R82: an offered token goes in behind the held ones and a taken token is the oldest; a port that is full, or
empty, holds the host back, so that it is the core that moves or no one. -/
def Obligations.PortsAreFifo : Prop :=
  ∀ (s : State) (rest : List HostAct),
    (∀ t, s.script = .offer t :: rest →
      (s.inPort.length < s.inDepth → step s = .next { s with script := rest, inPort := s.inPort ++ [t] }) ∧
      (s.inDepth ≤ s.inPort.length → ∀ u, step s = .next u → u.script = s.script ∧ u.inPort <:+ s.inPort)) ∧
    (s.script = .take :: rest →
      (∀ t port, s.outPort = t :: port →
        step s = .next { s with script := rest, outPort := port, taken := s.taken ++ [t] }) ∧
      (s.outPort = [] → ∀ u, step s = .next u → u.script = s.script ∧ u.taken = s.taken))

/-! The commands: where each completes and what it leaves. -/

/-- R305: NOP completes and changes nothing. -/
def Obligations.NopOnlyCompletes : Prop :=
  ∀ s : State, s.pace = none → exec .nop s = .next s.finished

/-- R158, R150, R152, R153: PUTBITS N emits the whole bytes of the pending bits followed by LDATA[N-1..0], keeps the
rest, and changes nothing else; N > 32 is E_ILLEGAL and changes nothing. -/
def Obligations.PutbitsWritesLowBits : Prop :=
  ∀ (s : State) (n : BitVec 6), s.pace = none →
    (n.toNat ≤ 32 → s.bw.wf = true → s.outPort.length + (s.bw.n.val + n.toNat) / 8 ≤ s.outDepth →
      ∃ (bw : BitWriter) (bs : List Byte),
        exec (.putbits n) s = .next { s.finished with bw := bw, outPort := s.outPort ++ bytesOut bs } ∧
        bs.flatMap byteBits ++ bw.bits = s.bw.bits ++ lowBits s.ldata n.toNat ∧
        bs.length = (s.bw.n.val + n.toNat) / 8 ∧ bw.n.val = (s.bw.n.val + n.toNat) % 8 ∧ bw.wf = true) ∧
    (32 < n.toNat → exec (.putbits n) s = .next (s.failed .illegal s.lcmd))

/-- R159, R157: FLUSH pads and emits the partial byte if there is one, then EOO, and leaves the writer empty. -/
def Obligations.FlushClosesSegment : Prop :=
  ∀ s : State, s.pace = none →
    (s.bw.n.val = 0 → s.outPort.length + 1 ≤ s.outDepth →
      exec .flush s = .next { s.finished with outPort := s.outPort ++ [.eoo] }) ∧
    (0 < s.bw.n.val → s.outPort.length + 2 ≤ s.outDepth →
      exec .flush s = .next { s.finished with
        bw := ⟨0, 0⟩, outPort := s.outPort ++ [.byte (s.bw.acc <<< (8 - s.bw.n.val)), .eoo] })

/-- R160, R155: GETBIT returns the next bit, most significant first, taking a token only when no bit is left; EOI gives
0x80000000, IOERR gives E_IO, and with no token offered the command waits. -/
def Obligations.GetbitReturnsNextBit : Prop :=
  ∀ s : State, s.pace = none →
    (∀ h : 0 < s.br.n.val, exec .getbit s = .next { s.finished with
      result := if s.br.acc.getLsbD 7 then 1 else 0, br := ⟨s.br.acc <<< 1, ⟨s.br.n.val - 1, by omega⟩⟩ }) ∧
    (s.br.n.val = 0 →
      (∀ b rest, s.inPort = .byte b :: rest → exec .getbit s = .next { s.finished with
        inPort := rest, result := if b.getLsbD 7 then 1 else 0, br := ⟨b <<< 1, 7⟩ }) ∧
      (∀ rest, s.inPort = .eoi :: rest → exec .getbit s = .next { s.finished with
        inPort := rest, result := 0x80000000#32 }) ∧
      (∀ rest, s.inPort = .ioerr :: rest → exec .getbit s = .next ({ s with
        inPort := rest, br := ⟨0, 0⟩ }.failed .io 0)) ∧
      (s.inPort = [] → exec .getbit s = .next { s with pending := [], activity := .getbit }))

/-- R181, R180, R156: COUNT over a segment that ends in EOI: FREQ[b] counts the groups equal to b, FREQ[256] = 1,
SYMCNT is their number, both validity flags are 0, the segment is consumed and the reader is empty. -/
def Obligations.CountBuildsTable : Prop :=
  ∀ (s : State) (bs : List Byte) (rest : List InToken),
    s.pace = none → s.br.wf = true → s.inPort = bytesIn bs ++ .eoi :: rest → bs.length ≤ Config.maxBytes →
    ∃ f : FreqTable,
      exec .count s = .next { s.finished with
        treeValid := false, codesValid := false, freq := f, symCnt := BitVec.ofNat 32 bs.length,
        br := ⟨0, 0⟩, inPort := rest } ∧
      f[256] = 1 ∧ ∀ b : Byte, f[byteSymbol b] = BitVec.ofNat 32 ((groups (inputBits s.br bs)).count b)

/-- R181-R183, R318: COUNT meeting IOERR, or a byte past MAX_BYTES: FREQ is cleared, SYMCNT keeps the bytes counted, the
segment is drained and the reader emptied. -/
def Obligations.CountFails : Prop :=
  ∀ s : State, s.br.wf = true →
    (∀ (bs : List Byte) (rest : List InToken),
      s.pace = none → s.inPort = bytesIn bs ++ .ioerr :: rest → bs.length ≤ Config.maxBytes →
      exec .count s = .next ({ s with
        treeValid := false, codesValid := false, freq := zeroFreq, symCnt := BitVec.ofNat 32 bs.length,
        br := ⟨0, 0⟩, inPort := rest }.failed .io 0)) ∧
    (∀ (b : Byte) (bs : List Byte) (t : InToken) (rest : List InToken),
      s.activity = .count → s.pending = [] → s.segEnded = false → s.symCnt.toNat = Config.maxBytes →
      s.inPort = .byte b :: (bytesIn bs ++ t :: rest) → t = .eoi ∨ t = .ioerr →
      ∃ g, (groups (inputBits s.br [b])).head? = some g ∧
        runOn s = { s with freq := zeroFreq, br := ⟨0, 0⟩, inPort := rest }.failed .countOvf (g.setWidth 32))

/-- R184: FREQ_RD k reads FREQ[k]; k > 256 is E_RANGE and changes nothing else. -/
def Obligations.FreqRdReadsCount : Prop :=
  ∀ (s : State) (idx : BitVec 10), s.pace = none →
    (∀ k : Symbol, k.val = idx.toNat → exec (.freqRd idx) s = .next { s.finished with result := s.freq[k] }) ∧
    (256 < idx.toNat → exec (.freqRd idx) s = .next (s.failed .range (BitVec.ofNat 32 idx.toNat)))

/-- R185, R36: FREQ_WR k writes LDATA to FREQ[k], to no other entry, and clears both validity flags; k > 256 is E_RANGE
and changes nothing else. -/
def Obligations.FreqWrWritesCount : Prop :=
  ∀ (s : State) (idx : BitVec 10), s.pace = none →
    (∀ k : Symbol, k.val = idx.toNat → ∃ f : FreqTable,
      exec (.freqWr idx) s = .next { s.finished with treeValid := false, codesValid := false, freq := f } ∧
      f[k] = s.ldata ∧ ∀ j : Symbol, j ≠ k → f[j] = s.freq[j]) ∧
    (256 < idx.toNat → exec (.freqWr idx) s = .next (s.failed .range (BitVec.ofNat 32 idx.toNat)))

/-- R196: the header's 1036 bytes. -/
def Obligations.HeaderLayout : Prop :=
  ∀ f : FreqTable,
    (headerBytes f).length = 1036 ∧
    (headerBytes f).take 8 = [0x48, 0x55, 0x46, 0x46, 0x01, 0x04, 0x01, 0x01] ∧
    ∀ k : Symbol, ((headerBytes f).drop (8 + 4 * k.val)).take 4 =
      [f[k].extractLsb' 24 8, f[k].extractLsb' 16 8, f[k].extractLsb' 8 8, f[k].extractLsb' 0 8]

/-- R190: HDR_EMIT writes the header's bits behind the pending ones, emits 1036 bytes, leaves as many bits pending as
before, and changes nothing else. -/
def Obligations.HdrEmitWritesHeader : Prop :=
  ∀ s : State, s.pace = none → s.bw.wf = true → s.outPort.length + 1036 ≤ s.outDepth →
    ∃ (bw : BitWriter) (bs : List Byte),
      exec .hdrEmit s = .next { s.finished with bw := bw, outPort := s.outPort ++ bytesOut bs } ∧
      bs.length = 1036 ∧ bw.n = s.bw.n ∧
      bs.flatMap byteBits ++ bw.bits = s.bw.bits ++ (headerBytes s.freq).flatMap byteBits

/-- R198: HDR_LOAD over the header of a legal table loads that table, consumes exactly the header's 1036 bytes, and
leaves as many bits in the reader as before. -/
def Obligations.HdrLoadLoadsTable : Prop :=
  ∀ (s : State) (f : FreqTable) (bs : List Byte) (rest : List InToken),
    s.pace = none → s.br.wf = true → LegalTable f → bs.length = 1036 → s.inPort = bytesIn bs ++ rest →
    groups (inputBits s.br bs) = headerBytes f →
    ∃ br : BitReader,
      exec .hdrLoad s = .next { s.finished with
        treeValid := false, codesValid := false, freq := f, br := br, inPort := rest } ∧
      br.n = s.br.n ∧ br.bits = (inputBits s.br bs).drop (8 * 1036)

/-- R197, R198: a header that passes is exactly the header of the table it loads, and that table is legal. BUSY = 1 and
ERR = 0, as acceptance leaves them (R37). -/
def Obligations.HdrLoadAcceptsOnlyHeaders : Prop :=
  ∀ (s t : State) (bs : List Byte) (rest : List InToken),
    s.pace = none → s.br.wf = true → s.busy = true → s.err = false → bs.length = 1036 → s.inPort = bytesIn bs ++ rest →
    exec .hdrLoad s = .next t → t.busy = false → t.err = false →
    LegalTable t.freq ∧ groups (inputBits s.br bs) = headerBytes t.freq

/-- R197, R199, R318: the header errors, each found as soon as its field has been read. The segment is `bs`, then the
terminator `e`; `g` is what the reader makes of it, the bits it still holds first (R156). No terminator is consumed at the
start, as acceptance leaves it (R62). A segment cut after i < 1036 bytes has been checked in its first c bytes, where no field of the fixed part is cut, and in
the sum of its (i - 8) / 4 whole entries; no check looks at the rest. FREQ is cleared, the segment consumed and the reader emptied. -/
def Obligations.HdrLoadFindsBadHeader : Prop :=
  ∀ (s : State) (f : FreqTable) (bs : List Byte) (e : InToken) (rest : List InToken),
    s.pace = none → s.br.wf = true → s.segEnded = false → s.inPort = bytesIn bs ++ e :: rest → e = .eoi ∨ e = .ioerr →
    let g := groups (inputBits s.br bs)
    let bad (code : ErrCode) (info : Word) : Prop := exec .hdrLoad s = .next ({ s with
      treeValid := false, codesValid := false, freq := zeroFreq, br := ⟨0, 0⟩, inPort := rest }.failed code info)
    (∀ i c, i < 1036 → c = (if i < 4 then 0 else if i = 7 then 6 else i) → g.length = i →
      g.take c = (headerBytes f).take c → ((f.toList.take ((i - 8) / 4)).map BitVec.toNat).sum ≤ Config.cntMax →
      (e = .eoi → bad .hdrTrunc (BitVec.ofNat 32 i)) ∧ (e = .ioerr → bad .io 0)) ∧
    (∀ a b c d tail, g = a :: b :: c :: d :: tail → [a, b, c, d] ≠ [0x48, 0x55, 0x46, 0x46] →
      bad .hdrMagic (a ++ b ++ c ++ d)) ∧
    (∀ v tail, g = [0x48, 0x55, 0x46, 0x46] ++ v :: tail → v ≠ 0x01 → bad .hdrVersion (v.setWidth 32)) ∧
    (∀ v tail, g = [0x48, 0x55, 0x46, 0x46, 0x01] ++ v :: tail → v ≠ 0x04 → bad .hdrWidth (v.setWidth 32)) ∧
    (∀ u v tail, g = [0x48, 0x55, 0x46, 0x46, 0x01, 0x04] ++ u :: v :: tail → [u, v] ≠ [0x01, 0x01] →
      bad .hdrCount ((u ++ v).setWidth 32)) ∧
    (∀ tail, g = headerBytes f ++ tail → ((f.toList.take 256).map BitVec.toNat).sum ≤ Config.cntMax → f[256] ≠ 1 →
      bad .hdrEos f[256]) ∧
    (∀ (k : Nat) (tail : List Byte), k ≤ 256 → g = (headerBytes f).take (12 + 4 * k) ++ tail →
      (k = 256 → f[256] = 1) → ((f.toList.take k).map BitVec.toNat).sum ≤ Config.cntMax →
      Config.cntMax < ((f.toList.take (k + 1)).map BitVec.toNat).sum → bad .hdrSum (BitVec.ofNat 32 k))

/-- R220, R225, R226: BUILD over a legal table: n leaves, 2n - 1 nodes, ROOT = 2n - 2, TREE_VALID = 1, CODES_VALID = 0;
the first NNODE entries of NODE are the tree's and the others are not written. -/
def Obligations.BuildMakesTree : Prop :=
  ∀ s : State, s.pace = none → LegalTable s.freq →
    ∃ (mem : NodeTable) (n : Nat) (root : NodeIdx),
      exec .build s = .next { s.finished with
        treeValid := true, codesValid := false, node := mem, nleaf := BitVec.ofNat 9 n,
        nnode := BitVec.ofNat 10 (2 * n - 1), root := root } ∧
      n = ((List.finRange 257).filter fun k => s.freq[k] ≠ 0).length ∧ root.val = 2 * n - 2 ∧
      (treeOf s.freq).nodes.length = 2 * n - 1 ∧
      ∀ i : NodeIdx, (i.val < 2 * n - 1 → (treeOf s.freq).nodes[i.val]? = some mem[i]) ∧
        (2 * n - 1 ≤ i.val → mem[i] = s.node[i])

/-- R221, R227: BUILD's checks in order; a failed one clears both flags, NLEAF, NNODE and ROOT and writes no node. -/
def Obligations.BuildChecksTable : Prop :=
  ∀ s : State, s.pace = none →
    let bad (code : ErrCode) (info : Word) : Prop := exec .build s = .next ({ s with
      treeValid := false, codesValid := false, nleaf := 0, nnode := 0, root := 0 }.failed code info)
    ((∀ k : Symbol, s.freq[k] = 0) → bad .zeroTable 0) ∧
    ((∃ k : Symbol, s.freq[k] ≠ 0) → s.freq[256] ≠ 1 → bad .eosCount s.freq[256]) ∧
    (s.freq[256] = 1 → Config.cntMax < tableSum s.freq →
      ∃ k, k ≤ 256 ∧ bad .sumOvf (BitVec.ofNat 32 k) ∧
        ((s.freq.toList.take k).map BitVec.toNat).sum ≤ Config.cntMax ∧
        Config.cntMax < ((s.freq.toList.take (k + 1)).map BitVec.toNat).sum)

/-- R223: a nonempty queue hands out an item, the one with the least count and, among equal counts, the least index, and
keeps the others. -/
def Obligations.QueueGivesLeastKey : Prop :=
  ∀ q : List QItem,
    (q ≠ [] → ∃ (a : QItem) (q' : List QItem), popLeast q = some (a, q')) ∧
    (∀ (a : QItem) (q' : List QItem), popLeast q = some (a, q') →
      q.Perm (a :: q') ∧ ∀ b ∈ q, a.count < b.count ∨ (a.count = b.count ∧ a.idx ≤ b.idx))

/-- R222-R224, R226, R229, R58: the tree of a legal table. An internal node i joins the two nodes with the least (count,
index) keys, the least first, among those that stand when it is made: the nodes before i that are no child of an internal
node before i. -/
def Obligations.TreeShape : Prop :=
  ∀ f : FreqTable, LegalTable f →
    let t := treeOf f
    let n := t.nleaf
    1 ≤ n ∧ n ≤ 257 ∧ t.nodes.length = 2 * n - 1 ∧ t.root = 2 * n - 2 ∧
    t.nodes.take n = ((List.finRange 257).filter fun k => f[k] ≠ 0).map (fun k => Node.leaf k f[k]) ∧
    (∀ i, n ≤ i → i < 2 * n - 1 → ∃ (c : Word) (l r : NodeIdx) (x y : Node),
      t.nodes[i]? = some (Node.internal c l r) ∧ l.val < i ∧ r.val < i ∧ l ≠ r ∧
      t.nodes[l.val]? = some x ∧ t.nodes[r.val]? = some y ∧
      c.toNat = (nodeCount x).toNat + (nodeCount y).toNat ∧
      ((nodeCount x).toNat < (nodeCount y).toNat ∨ (nodeCount x = nodeCount y ∧ l.val < r.val)) ∧
      ∀ (j : Nat) (z : Node), j < i → t.nodes[j]? = some z → j ≠ l.val → j ≠ r.val →
        (∀ (m : Nat) (c' : Word) (l' r' : NodeIdx), m < i → t.nodes[m]? = some (Node.internal c' l' r') →
          l'.val ≠ j ∧ r'.val ≠ j) →
        (nodeCount y).toNat < (nodeCount z).toNat ∨ (nodeCount y = nodeCount z ∧ r.val < j)) ∧
    (∀ j : Nat, j < 2 * n - 2 → ∃! i : Nat, ∃ (c : Word) (l r : NodeIdx),
      t.nodes[i]? = some (Node.internal c l r) ∧ (l.val = j ∨ r.val = j)) ∧
    (∃ x, t.nodes[t.root]? = some x ∧ (nodeCount x).toNat = tableSum f)

/-- R228, R314: NODE_RD's errors in their order, and its result. -/
def Obligations.NodeRdReadsNode : Prop :=
  ∀ (s : State) (idx : BitVec 10) (sel : BitVec 4), s.pace = none → s.nnode.toNat ≤ 513 →
    (1 < sel.toNat → exec (.nodeRd idx sel) s = .next (s.failed .illegal s.lcmd)) ∧
    (sel.toNat ≤ 1 → s.treeValid = false → exec (.nodeRd idx sel) s = .next (s.failed .noTree 0)) ∧
    (sel.toNat ≤ 1 → s.treeValid = true → s.nnode.toNat ≤ idx.toNat →
      exec (.nodeRd idx sel) s = .next (s.failed .range (BitVec.ofNat 32 idx.toNat))) ∧
    (s.treeValid = true → ∀ i : NodeIdx, i.val = idx.toNat → idx.toNat < s.nnode.toNat →
      (∀ sym c, s.node[i] = .leaf sym c →
        exec (.nodeRd idx 0) s = .next { s.finished with result := c } ∧
        exec (.nodeRd idx 1) s = .next { s.finished with result := BitVec.ofNat 32 sym.val }) ∧
      (∀ c l r, s.node[i] = .internal c l r →
        exec (.nodeRd idx 0) s = .next { s.finished with result := c } ∧
        exec (.nodeRd idx 1) s = .next { s.finished with
          result := BitVec.ofNat 32 (2 ^ 31 + 2 ^ 20 * l.val + r.val) }))

/-- R251, R250: GENCODES needs TREE_VALID. On BUILD's tree it records, for every symbol, the path from ROOT to the
symbol's leaf, and ABSENT where there is none; nothing else changes but CODES_VALID. -/
def Obligations.GencodesRecordsPaths : Prop :=
  ∀ s : State, s.pace = none →
    (s.treeValid = false → exec .gencodes s = .next (s.failed .noTree 0)) ∧
    (s.treeValid = true → ∃ code : CodeTable,
      exec .gencodes s = .next { s.finished with codesValid := true, code := code } ∧
      (LegalTable s.freq → s.TreeOk →
        (∀ (sym : Symbol) (p : Code), code[sym] = some p ↔ s.IsCode sym p) ∧
        (∀ sym : Symbol, code[sym] = none ↔ s.freq[sym] = 0)))

/-- R255, R254, R271: on BUILD's tree the codes are prefix-free, none is longer than NLEAF - 1, and EOS has one. -/
def Obligations.CodesPrefixFree : Prop :=
  ∀ s : State, LegalTable s.freq → s.TreeOk → s.CodesOk →
    (∀ (a b : Symbol) (p q : Code), s.code[a] = some p → s.code[b] = some q → p <+: q → a = b) ∧
    (∀ (a : Symbol) (p : Code), s.code[a] = some p → p.length ≤ s.nleaf.toNat - 1 ∧ p.length ≤ 256) ∧
    (∃ p, s.code[(256 : Symbol)] = some p)

/-- R257: on a tree with at least two leaves, every bit sequence of 256 bits has exactly one present code as a prefix. -/
def Obligations.CodesComplete : Prop :=
  ∀ (s : State) (bits : List Bool), LegalTable s.freq → s.TreeOk → s.CodesOk → 2 ≤ s.nleaf.toNat → 256 ≤ bits.length →
    ∃! a : Symbol, ∃ p, s.code[a] = some p ∧ p <+: bits

/-- R253, R314: CODE_RD's errors in their order, and its result. -/
def Obligations.CodeRdReadsEntry : Prop :=
  ∀ (s : State) (idx : BitVec 10) (sel : BitVec 4), s.pace = none →
    (8 < sel.toNat → exec (.codeRd idx sel) s = .next (s.failed .illegal s.lcmd)) ∧
    (sel.toNat ≤ 8 → s.codesValid = false → exec (.codeRd idx sel) s = .next (s.failed .noCodes 0)) ∧
    (sel.toNat ≤ 8 → s.codesValid = true → 256 < idx.toNat →
      exec (.codeRd idx sel) s = .next (s.failed .range (BitVec.ofNat 32 idx.toNat))) ∧
    (sel.toNat ≤ 8 → s.codesValid = true → ∀ k : Symbol, k.val = idx.toNat → ∃ v : Word,
      exec (.codeRd idx sel) s = .next { s.finished with result := v } ∧
      (s.code[k] = none → v = 0) ∧
      (∀ p, s.code[k] = some p → p.length ≤ 256 →
        (sel = 0 → v = BitVec.ofNat 32 (2 ^ 31 + p.length)) ∧
        (sel ≠ 0 → ∀ j, j < 32 → v.getLsbD (31 - j) = p.getD (32 * (sel.toNat - 1) + j) false)))

/-- R270-R272: ENCODE over a segment whose every group has a code: the pending bits, the codes of the groups in order and
the EOS code, padded with 0 bits to whole bytes, then EOO; BITCNT counts the code bits and SYMCNT the groups. -/
def Obligations.EncodeWritesPayload : Prop :=
  ∀ (s : State) (bs : List Byte) (rest : List InToken) (codes : List Code) (eos : Code),
    s.pace = none → s.codesValid = true → s.bw.wf = true → s.br.wf = true → s.inPort = bytesIn bs ++ .eoi :: rest →
    (groups (inputBits s.br bs)).map (fun g => s.code[byteSymbol g]) = codes.map some →
    s.code[(256 : Symbol)] = some eos →
    s.outPort.length + (s.bw.n.val + codes.flatten.length + eos.length + 7) / 8 + 1 ≤ s.outDepth →
    ∃ (out : List Byte) (pad : List Bool),
      exec .encode s = .next { s.finished with
        bitCnt := BitVec.ofNat 64 (codes.flatten.length + eos.length), symCnt := BitVec.ofNat 32 bs.length,
        bw := ⟨0, 0⟩, br := ⟨0, 0⟩, inPort := rest, outPort := s.outPort ++ bytesOut out ++ [.eoo] } ∧
      out.flatMap byteBits = s.bw.bits ++ codes.flatten ++ eos ++ pad ∧ pad.length < 8 ∧ (∀ b ∈ pad, b = false)

/-- R273, R274, R318: ENCODE meeting a group with no code, or IOERR: the whole bytes written so far stay, the pending
bits are discarded, ABT is emitted, the segment is consumed, and BITCNT and SYMCNT keep what they had reached. No terminator is consumed at
the start, as acceptance leaves it (R62). -/
def Obligations.EncodeFails : Prop :=
  ∀ (s : State) (bs : List Byte) (codes : List Code) (tail : List Byte) (e : InToken) (rest : List InToken),
    s.pace = none → s.codesValid = true → s.bw.wf = true → s.br.wf = true → s.segEnded = false →
    s.inPort = bytesIn bs ++ bytesIn tail ++ e :: rest → e = .eoi ∨ e = .ioerr →
    (groups (inputBits s.br bs)).map (fun g => s.code[byteSymbol g]) = codes.map some →
    s.outPort.length + (s.bw.n.val + codes.flatten.length) / 8 + 1 ≤ s.outDepth →
    let bad (code : ErrCode) (info : Word) : Prop := ∃ (out : List Byte) (lost : List Bool),
      exec .encode s = .next ({ s with
        bitCnt := BitVec.ofNat 64 codes.flatten.length, symCnt := BitVec.ofNat 32 bs.length,
        bw := ⟨0, 0⟩, br := ⟨0, 0⟩, inPort := rest, outPort := s.outPort ++ bytesOut out ++ [OutToken.abt] }.failed code info) ∧
      out.flatMap byteBits ++ lost = s.bw.bits ++ codes.flatten ∧ lost.length < 8
    (tail = [] → e = .ioerr → bad .io 0) ∧
    (∀ g, (groups (inputBits s.br (bs ++ tail)))[bs.length]? = some g → s.code[byteSymbol g] = none →
      bad .noCode (g.setWidth 32))

/-- R290, R291, R294, R296, R297: DECODE over a segment whose bits are the codes of the bytes `xs`, then the EOS code,
then anything: each byte goes to the writer as 8 bits, the EOS symbol writes nothing, the rest of the segment is
discarded unchecked, and the writer is closed. -/
def Obligations.DecodeWritesSymbols : Prop :=
  ∀ (s : State) (bs : List Byte) (rest : List InToken) (xs : List Byte) (codes : List Code) (eos : Code)
    (tail : List Bool),
    s.pace = none → s.treeValid = true → s.bw.wf = true → s.br.wf = true → s.inPort = bytesIn bs ++ .eoi :: rest →
    List.Forall₂ (fun x p => s.IsCode (byteSymbol x) p) xs codes → s.IsCode 256 eos →
    inputBits s.br bs = codes.flatten ++ eos ++ tail →
    s.outPort.length + (s.bw.n.val + 8 * xs.length + 7) / 8 + 1 ≤ s.outDepth →
    ∃ (out : List Byte) (pad : List Bool),
      exec .decode s = .next { s.finished with
        bitCnt := BitVec.ofNat 64 (codes.flatten.length + eos.length), symCnt := BitVec.ofNat 32 xs.length,
        bw := ⟨0, 0⟩, br := ⟨0, 0⟩, inPort := rest, outPort := s.outPort ++ bytesOut out ++ [.eoo] } ∧
      out.flatMap byteBits = s.bw.bits ++ xs.flatMap byteBits ++ pad ∧ pad.length < 8 ∧ (∀ b ∈ pad, b = false)

/-- R290, R292-R294, R318: DECODE over a segment that ends, by EOI or IOERR, inside a code, or by IOERR in the drain after
the EOS code: the bytes written so far stay, the pending bits are discarded, ABT is emitted. EOI is E_TRUNCATED with the
number of bytes written, IOERR is E_IO; BITCNT and SYMCNT keep what they had reached. -/
def Obligations.DecodeFindsTruncation : Prop :=
  ∀ (s : State) (bs : List Byte) (e : InToken) (rest : List InToken) (xs : List Byte) (codes : List Code),
    s.pace = none → s.treeValid = true → s.bw.wf = true → s.br.wf = true → s.inPort = bytesIn bs ++ e :: rest →
    List.Forall₂ (fun x p => s.IsCode (byteSymbol x) p) xs codes →
    s.outPort.length + (s.bw.n.val + 8 * xs.length) / 8 + 1 ≤ s.outDepth →
    let bad (bits : Nat) (code : ErrCode) (info : Word) : Prop := ∃ (out : List Byte) (lost : List Bool),
      exec .decode s = .next ({ s with
        bitCnt := BitVec.ofNat 64 bits, symCnt := BitVec.ofNat 32 xs.length, bw := ⟨0, 0⟩, br := ⟨0, 0⟩
        inPort := rest, outPort := s.outPort ++ bytesOut out ++ [OutToken.abt] }.failed code info) ∧
      out.flatMap byteBits ++ lost = s.bw.bits ++ xs.flatMap byteBits ∧ lost.length < 8
    (∀ (part : Code) (i : NodeIdx) (c : Word) (l r : NodeIdx),
      follow s.node s.root part = some i → s.node[i] = .internal c l r → inputBits s.br bs = codes.flatten ++ part →
      (e = .eoi → bad (codes.flatten.length + part.length) .truncated (BitVec.ofNat 32 xs.length)) ∧
      (e = .ioerr → bad (codes.flatten.length + part.length) .io 0)) ∧
    (∀ (eos : Code) (tail : List Bool), s.IsCode 256 eos → inputBits s.br bs = codes.flatten ++ eos ++ tail →
      e = .ioerr → bad (codes.flatten.length + eos.length) .io 0)

/-- R317, R354: the state preconditions. ENCODE needs CODES_VALID and DECODE needs TREE_VALID; a command without its
precondition changes only what the epilogue writes, consumes nothing and emits nothing. -/
def Obligations.StreamCommandsNeedTables : Prop :=
  ∀ s : State, s.pace = none →
    (s.codesValid = false → exec .encode s = .next (s.failed .noCodes 0)) ∧
    (s.treeValid = false → exec .decode s = .next (s.failed .noTree 0))

/-! Rules about the whole machine. -/

/-- The invariant holds at reset (R64; the depths are at least 1 by R11). -/
def Obligations.InvariantAtReset : Prop := State.reset.Inv

/-- R35, R36, R59, R60, R61, R81, R82: whatever step is taken from a state with the invariant, the next state has it. -/
def Obligations.StepKeepsInvariant : Prop :=
  ∀ s t : State, s.Inv → step s = .next t → t.Inv

/-- R8, R81, R82: a command the core runs on with ends, or waits at an empty input port, or waits at a full output port;
it has no other way to stop. -/
def Obligations.CommandStopsOnlyAtPorts : Prop :=
  ∀ (i : Instr) (s t : State), s.pace = none → exec i s = .next t →
    (t.busy = false ∧ t.activity = .idle ∧ t.pending = []) ∨
    (t.activity ≠ .idle ∧ t.pending = [] ∧ t.inPort = []) ∨
    (t.activity ≠ .idle ∧ t.pending ≠ [] ∧ t.outDepth ≤ t.outPort.length)

/-- R310, R35, R312, R322: the interrupt output is IE AND DONE in every state; the 18 error codes have the numbers of R312;
and however far the core has run, a command that has ended has ended in success (ERR, ERRCODE and ERRINFO as they were) or
in one of those errors, and has set DONE and cleared BUSY, so that the interrupt output is IE. -/
def Obligations.CommandEndsInSuccessOrError : Prop :=
  (∀ s : State, irq s = true ↔ s.ie = true ∧ s.done = true) ∧
  (ErrCode.illegal.toByte = 0x01 ∧ ErrCode.range.toByte = 0x02 ∧ ErrCode.noTree.toByte = 0x03 ∧
    ErrCode.noCodes.toByte = 0x04 ∧ ErrCode.countOvf.toByte = 0x10 ∧ ErrCode.hdrTrunc.toByte = 0x20 ∧
    ErrCode.hdrMagic.toByte = 0x21 ∧ ErrCode.hdrVersion.toByte = 0x22 ∧ ErrCode.hdrWidth.toByte = 0x23 ∧
    ErrCode.hdrCount.toByte = 0x24 ∧ ErrCode.hdrEos.toByte = 0x25 ∧ ErrCode.hdrSum.toByte = 0x26 ∧
    ErrCode.zeroTable.toByte = 0x30 ∧ ErrCode.eosCount.toByte = 0x31 ∧ ErrCode.sumOvf.toByte = 0x32 ∧
    ErrCode.noCode.toByte = 0x40 ∧ ErrCode.truncated.toByte = 0x50 ∧ ErrCode.io.toByte = 0x60) ∧
  ∀ (i : Instr) (s t : State), exec i s = .next t → t.activity = .idle →
    t.done = true ∧ t.busy = false ∧ irq t = s.ie ∧
    ((t.err = s.err ∧ t.errCode = s.errCode ∧ t.errInfo = s.errInfo) ∨
      (t.err = true ∧ ∃ e : ErrCode, t.errCode = e.toByte))

/-- R38, R34, R37, R11: no command writes DATA, IE, REJ or anything of the host's. -/
def Obligations.CommandsLeaveHostStateAlone : Prop :=
  ∀ (i : Instr) (s t : State), exec i s = .next t →
    t.data = s.data ∧ t.ie = s.ie ∧ t.rej = s.rej ∧ t.inDepth = s.inDepth ∧ t.outDepth = s.outDepth ∧
    t.script = s.script ∧ t.taken = s.taken ∧ t.busReads = s.busReads ∧ t.pace = s.pace ∧ t.freeCtr = s.freeCtr

/-- R39, R41, R42, R43, R55, R57, R59: which commands can change RESULT, BITCNT, SYMCNT, NLEAF, NNODE, ROOT, FREQ, NODE,
CODE. -/
def Obligations.TablesAndCountersChangeOnlyByTheirCommands : Prop :=
  ∀ (i : Instr) (s t : State), exec i s = .next t →
    (i.op ∉ [.getbit, .freqRd, .nodeRd, .codeRd] → t.result = s.result) ∧
    (i.op ∉ [.encode, .decode] → t.bitCnt = s.bitCnt) ∧
    (i.op ∉ [.count, .encode, .decode] → t.symCnt = s.symCnt) ∧
    (i.op ≠ .build → t.nleaf = s.nleaf ∧ t.nnode = s.nnode ∧ t.root = s.root ∧ t.node = s.node) ∧
    (i.op ∉ [.count, .freqWr, .hdrLoad] → t.freq = s.freq) ∧
    (i.op ≠ .gencodes → t.code = s.code)

/-- R36: which commands can change TREE_VALID and CODES_VALID, and which way. -/
def Obligations.ValidityFlagsChangeOnlyByTheirCommands : Prop :=
  ∀ (i : Instr) (s t : State), exec i s = .next t →
    (i.op ∉ [.count, .freqWr, .hdrLoad, .build, .gencodes] → t.treeValid = s.treeValid ∧ t.codesValid = s.codesValid) ∧
    (i.op = .gencodes → t.treeValid = s.treeValid) ∧
    (i.op ≠ .build → t.treeValid = true → s.treeValid = true) ∧
    (i.op ≠ .gencodes → t.codesValid = true → s.codesValid = true) ∧
    (i.op ∈ [.count, .hdrLoad] → t.treeValid = false ∧ t.codesValid = false) ∧
    (i.op = .build → t.codesValid = false)

/-- R84, R60, R61: which commands touch which port and which bit buffer. -/
def Obligations.PortlessCommandsTouchNoPort : Prop :=
  ∀ (i : Instr) (s t : State), exec i s = .next t →
    (i.op ∉ [.getbit, .count, .hdrLoad, .encode, .decode] → t.inPort = s.inPort ∧ t.br = s.br) ∧
    (i.op ∉ [.putbits, .flush, .hdrEmit, .encode, .decode] → t.outPort = s.outPort ∧ t.bw = s.bw)

/-- R81, R82: a command consumes the oldest input tokens in order and puts its output tokens behind those held; it
neither reorders, duplicates nor drops a token, and never fills the output port past its depth. -/
def Obligations.CommandsKeepTokenOrder : Prop :=
  ∀ (i : Instr) (s t : State), exec i s = .next t →
    t.inPort <:+ s.inPort ∧ s.outPort <+: t.outPort ∧
    (s.outPort.length ≤ s.outDepth → t.outPort.length ≤ t.outDepth)

/-- R84: no lookahead. What a completed command did does not depend on tokens it did not consume: with more tokens
offered behind them it does the same and leaves those too. -/
def Obligations.NoLookahead : Prop :=
  ∀ (i : Instr) (s t : State) (extra : List InToken), exec i s = .next t → t.activity = .idle →
    exec i { s with inPort := s.inPort ++ extra } = .next { t with inPort := t.inPort ++ extra }

/-- R8, R11, R80: neither the ports' depths nor when the host offers and takes tokens changes what a command computes. A
command that starts from s, and that the host then serves by offering, taking and letting the core move until it ends in
t, ends as it does with every token at hand and room for its whole output, in its own step: the same state, the same
tokens left, and, taken and still held together, the same output. Waiting, the script and `pace` are the model's (log 7). -/
def Obligations.PortTimingChangesNoResult : Prop :=
  ∀ (i : Instr) (s u t : State) (n d : Nat),
    (∀ a ∈ s.script, a.onPorts = true) → exec i s = .next u → Host.Core.run core n u = .next t →
    t.script = [] → t.activity = .idle → t.taken.length + t.outPort.length ≤ d →
    exec i (s.atOnce d) = .next (t.atOnce d)

/-- R9: with the controller's invariant, a step finds that the run has ended exactly when BUSY = 0, the host has no further
action and every output token is taken; with tokens untaken it stops as outputUntaken (log 11). That the core has consumed
no token beyond those its commands needed is `NoLookahead`. -/
def Obligations.RunEndsWhenAllIsTaken : Prop :=
  ∀ s : State, s.ControlOk →
    (step s = .fault .runEnded ↔ s.busy = false ∧ s.script = [] ∧ s.outPort = []) ∧
    (step s = .fault .outputUntaken ↔ s.busy = false ∧ s.script = [] ∧ s.outPort ≠ [])

/-- R100, R101: a step that finds the machine hung finds its command waiting at an empty input port or a full output
port: the block never hangs of itself. -/
def Obligations.HangOnlyAtBlockedPort : Prop :=
  ∀ s : State, s.Inv → step s = .fault .hang →
    s.busy = true ∧ ((s.pending = [] ∧ s.inPort = []) ∨ (s.pending ≠ [] ∧ s.outPort.length = s.outDepth))

/-- R161: a move of the core that consumes a segment's terminator leaves the reader empty, so the first bit read from the
next segment is bit 7 of its first byte. -/
def Obligations.TerminatorEmptiesReader : Prop :=
  ∀ s t : State, s.Inv → s.segEnded = false → coreMove s = some t → t.segEnded = true → t.br = ⟨0, 0⟩

/-! The headline: what is encoded decodes to itself (R276). -/

/-- R276, R291, R295: on one tree and its codes, with BW and BR empty, the payload ENCODE writes for the bytes x decodes
to x, whatever states the two commands start from. -/
def Obligations.PayloadDecodesToItself : Prop :=
  ∀ (s u t : State) (x : List Byte) (rest rest' : List InToken),
    LegalTable s.freq → s.TreeOk → s.CodesOk → s.codesValid = true → s.pace = none → s.bw = ⟨0, 0⟩ → s.br = ⟨0, 0⟩ →
    s.inPort = bytesIn x ++ .eoi :: rest → s.outPort = [] → 256 * (x.length + 1) + 1 ≤ s.outDepth →
    (∀ b ∈ x, s.freq[byteSymbol b] ≠ 0) → exec .encode s = .next t →
    u.treeValid = true → u.node = s.node → u.root = s.root → u.pace = none → u.bw = ⟨0, 0⟩ → u.br = ⟨0, 0⟩ →
    u.outPort = [] → x.length + 2 ≤ u.outDepth →
    ∃ payload : List Byte, t.err = s.err ∧ t.outPort = bytesOut payload ++ [.eoo] ∧ t.inPort = rest ∧
      (u.inPort = bytesIn payload ++ .eoi :: rest' → ∃ v : State, exec .decode u = .next v ∧
        v.err = u.err ∧ v.outPort = bytesOut x ++ [.eoo] ∧ v.inPort = rest' ∧
        v.bitCnt = t.bitCnt ∧ v.symCnt = t.symCnt)

/-- R276, R136, R137: COMPRESS over any bytes x (up to MAX_BYTES of them, none included) succeeds in five steps, and
DECOMPRESS over the file it made succeeds in three and gives back x. Both start idle, without error, with BW and BR empty
and room in the output port; `DECOMPRESS` may start from any such state. -/
def Obligations.DecompressInvertsCompress : Prop :=
  ∀ (s u : State) (x : List Byte) (rest rest' : List InToken) (next next' : List HostAct),
    x.length ≤ Config.maxBytes →
    s.busy = false → s.err = false → s.pace = none → s.bw = ⟨0, 0⟩ → s.br = ⟨0, 0⟩ → s.outPort = [] →
    1036 + 256 * (x.length + 1) + 1 ≤ s.outDepth →
    s.inPort = bytesIn x ++ .eoi :: (bytesIn x ++ .eoi :: rest) →
    s.script = cmdWrite 0x10 :: cmdWrite 0x13 :: cmdWrite 0x20 :: cmdWrite 0x30 :: cmdWrite 0x40 :: next →
    u.busy = false → u.err = false → u.pace = none → u.bw = ⟨0, 0⟩ → u.br = ⟨0, 0⟩ → u.outPort = [] →
    x.length + 2 ≤ u.outDepth → u.script = cmdWrite 0x14 :: cmdWrite 0x20 :: cmdWrite 0x50 :: next' →
    ∃ (t : State) (file : List Byte), Host.Core.run core 5 s = .next t ∧ t.err = false ∧ t.busy = false ∧
      t.outPort = bytesOut file ++ [.eoo] ∧ t.inPort = rest ∧
      (u.inPort = bytesIn file ++ .eoi :: rest' → ∃ v : State, Host.Core.run core 3 u = .next v ∧
        v.err = false ∧ v.busy = false ∧ v.outPort = bytesOut x ++ [.eoo] ∧ v.inPort = rest')
end

