-- ==== Sys2Proof/Laws/Bits.lean ====
section
/-! SUPPORT. What the bit writer and the bit reader do, said once: the order of the bits, the counts, and the
invariants of 10_state.md R60 and R61. -/
namespace Sys2Proof.Machine

@[simp] theorem lowBits_zero {w : Nat} (v : BitVec w) : lowBits v 0 = [] := rfl

@[simp] theorem length_lowBits {w : Nat} (v : BitVec w) (n : Nat) : (lowBits v n).length = n := by
  induction n with
  | zero => rfl
  | succ n ih => simp [lowBits, ih]

@[simp] theorem length_byteBits (b : Byte) : (byteBits b).length = 8 := length_lowBits b 8

@[simp] theorem length_writer_bits (bw : BitWriter) : bw.bits.length = bw.n.val := length_lowBits _ _

@[simp] theorem length_reader_bits (br : BitReader) : br.bits.length = br.n.val := by
  simp [BitReader.bits]

/-- A byte is the value of its eight bits. -/
theorem packByte_byteBits : ∀ b : Byte, packByte (byteBits b) = b := by decide +kernel

/-- Eight bits are the bits of their value. -/
theorem byteBits_packByte : ∀ a b c d e f g h : Bool,
    byteBits (packByte [a, b, c, d, e, f, g, h]) = [a, b, c, d, e, f, g, h] := by decide +kernel

theorem groups_cons (b : Byte) (rest : List Bool) : groups (byteBits b ++ rest) = b :: groups rest := by
  have h : byteBits b ++ rest = b.getLsbD 7 :: b.getLsbD 6 :: b.getLsbD 5 :: b.getLsbD 4 :: b.getLsbD 3 ::
      b.getLsbD 2 :: b.getLsbD 1 :: b.getLsbD 0 :: rest := rfl
  rw [h, groups]
  exact congrArg (· :: _) (packByte_byteBits b)

/-- Fewer than eight bits make no group. -/
theorem groups_short : ∀ bits : List Bool, bits.length < 8 → groups bits = []
  | [], _ => rfl
  | [_], _ => rfl
  | [_, _], _ => rfl
  | [_, _, _], _ => rfl
  | [_, _, _, _], _ => rfl
  | [_, _, _, _, _], _ => rfl
  | [_, _, _, _, _, _], _ => rfl
  | [_, _, _, _, _, _, _], _ => rfl
  | _ :: _ :: _ :: _ :: _ :: _ :: _ :: _ :: _, h => by simp at h; omega

/-- The groups of whole bytes, then a partial group, are those bytes. -/
theorem groups_bytes (bs : List Byte) (rest : List Bool) (h : rest.length < 8) :
    groups (bs.flatMap byteBits ++ rest) = bs := by
  induction bs with
  | nil => exact groups_short rest h
  | cons b bs ih => rw [List.flatMap_cons, List.append_assoc, groups_cons, ih]

/-! The reader. -/

/-- ReadBit with a bit left returns the first of the remaining bits (R155). -/
theorem readBit_left (br : BitReader) (next : Byte) (h : 0 < br.n.val) :
    br.bits = (br.readBit next).1 :: (br.readBit next).2.bits ∧ (br.readBit next).2.n.val = br.n.val - 1 := by
  have key : ∀ (acc : BitVec 8) (n : Fin 8), 0 < n.val → (BitReader.mk acc n).bits =
      ((BitReader.mk acc n).readBit 0).1 :: ((BitReader.mk acc n).readBit 0).2.bits := by decide +kernel
  have hn : br.n.val ≠ 0 := by omega
  have e : br.readBit next = br.readBit 0 := by simp [BitReader.readBit, hn]
  rw [e]
  exact ⟨key br.acc br.n h, by simp [BitReader.readBit, hn]⟩

/-- ReadBit with no bit left takes a byte and returns its first bit (R155). -/
theorem readBit_fetch (br : BitReader) (next : Byte) (h : br.n.val = 0) :
    byteBits next = (br.readBit next).1 :: (br.readBit next).2.bits ∧ (br.readBit next).2.n.val = 7 := by
  have key : ∀ b : Byte, byteBits b = b.getLsbD 7 :: (BitReader.mk (b <<< 1) 7).bits := by decide +kernel
  simp only [BitReader.readBit, h, if_true]
  exact ⟨key next, rfl⟩

/-- ReadBit keeps the reader's invariant (R61). -/
theorem readBit_wf (br : BitReader) (next : Byte) (h : br.wf = true) : (br.readBit next).2.wf = true := by
  have left : ∀ (acc : BitVec 8) (n : Fin 8), (BitReader.mk acc n).wf = true → n.val ≠ 0 →
      ((BitReader.mk acc n).readBit 0).2.wf = true := by decide +kernel
  have fetch : ∀ b : Byte, (BitReader.mk (b <<< 1) 7).wf = true := by decide +kernel
  by_cases hn : br.n.val = 0
  · simp only [BitReader.readBit, hn, if_true]; exact fetch next
  · have e : br.readBit next = br.readBit 0 := by simp [BitReader.readBit, hn]
    rw [e]; exact left br.acc br.n h hn

/-- ReadBit calls while bits are left: they come off the front of the remaining bits. -/
theorem readBits_left (br : BitReader) (next : Byte) (j : Nat) (v : Byte) (h : j ≤ br.n.val) :
    (br.readBits next j v).1 = (br.bits.take j).foldl shiftIn v ∧
    (br.readBits next j v).2.bits = br.bits.drop j ∧ (br.readBits next j v).2.n.val = br.n.val - j := by
  induction j generalizing br v with
  | zero => simp [BitReader.readBits]
  | succ j ih =>
    obtain ⟨hb, hn⟩ := readBit_left br next (by omega)
    obtain ⟨h1, h2, h3⟩ := ih (br.readBit next).2 (shiftIn v (br.readBit next).1) (by omega)
    simp only [BitReader.readBits]
    rw [hb]
    exact ⟨by simpa using h1, by simpa using h2, by omega⟩

/-- ReadBit calls that run past the bits left: the next ones are the new byte's. -/
theorem readBits_past (br : BitReader) (next : Byte) (j : Nat) (v : Byte) (h : br.n.val < j) (h8 : j ≤ 8) :
    (br.readBits next j v).1 =
      ((br.bits ++ byteBits next).take j).foldl shiftIn v ∧
    (br.readBits next j v).2.bits = (br.bits ++ byteBits next).drop j ∧
    (br.readBits next j v).2.n.val = br.n.val + 8 - j := by
  induction j generalizing br v with
  | zero => omega
  | succ j ih =>
    by_cases hn : br.n.val = 0
    · obtain ⟨hb, h7⟩ := readBit_fetch br next hn
      obtain ⟨h1, h2, h3⟩ := readBits_left (br.readBit next).2 next j
        (shiftIn v (br.readBit next).1) (by omega)
      have hnil : br.bits = [] := List.eq_nil_of_length_eq_zero (by simp [hn])
      simp only [BitReader.readBits]
      rw [hnil, List.nil_append, hb]
      exact ⟨by simpa using h1, by simpa using h2, by omega⟩
    · obtain ⟨hb, hn'⟩ := readBit_left br next (by omega)
      obtain ⟨h1, h2, h3⟩ := ih (br.readBit next).2 (shiftIn v (br.readBit next).1)
        (by omega) (by omega)
      simp only [BitReader.readBits]
      rw [hb]
      exact ⟨by simpa using h1, by simpa using h2, by omega⟩

/-- ReadGroup8 over a byte token: the group is the first eight of the bits at hand, and the reader keeps as many bits as
it had (R156). -/
theorem readGroup8_spec (br : BitReader) (next : Byte) :
    byteBits (br.readGroup8 next).1 ++ (br.readGroup8 next).2.bits = br.bits ++ byteBits next ∧
    (br.readGroup8 next).2.n = br.n := by
  obtain ⟨h1, h2, h3⟩ := readBits_past br next 8 0 (by omega) (by omega)
  refine ⟨?_, Fin.ext (by simp only [BitReader.readGroup8]; omega)⟩
  have hl : ((br.bits ++ byteBits next).take 8).length = 8 := by simp
  have hp : (br.readGroup8 next).1 = packByte ((br.bits ++ byteBits next).take 8) := h1
  have hb : byteBits (packByte ((br.bits ++ byteBits next).take 8)) = (br.bits ++ byteBits next).take 8 := by
    match hx : (br.bits ++ byteBits next).take 8, hl with
    | [a, b, c, d, e, f, g, h], _ => exact byteBits_packByte a b c d e f g h
  rw [hp, hb]
  show _ ++ (br.readBits next 8 0).2.bits = _
  rw [h2, List.take_append_drop]

theorem readBits_wf (br : BitReader) (next : Byte) (j : Nat) (v : Byte) (h : br.wf = true) :
    (br.readBits next j v).2.wf = true := by
  induction j generalizing br v with
  | zero => exact h
  | succ j ih => simp only [BitReader.readBits]; exact ih _ _ (readBit_wf br next h)

theorem readGroup8_wf (br : BitReader) (next : Byte) (h : br.wf = true) : (br.readGroup8 next).2.wf = true :=
  readBits_wf br next 8 0 h

/-- A reader with the invariant that discards its bits is empty (R156, R161). -/
theorem discarded_eq_empty (br : BitReader) (h : br.wf = true) : br.discarded = BitReader.empty := by
  have key : ∀ (acc : BitVec 8) (n : Fin 8), (BitReader.mk acc n).wf = true →
      (BitReader.mk acc n).discarded = BitReader.empty := by decide +kernel
  exact key br.acc br.n h

/-- A reader with the invariant and no bit left is empty (R61). -/
theorem reader_eq_empty (br : BitReader) (h : br.wf = true) (hn : br.n.val = 0) : br = BitReader.empty := by
  have key : ∀ (acc : BitVec 8) (n : Fin 8), (BitReader.mk acc n).wf = true → n.val = 0 →
      BitReader.mk acc n = BitReader.empty := by decide +kernel
  exact key br.acc br.n h hn

@[simp] theorem reader_empty_wf : BitReader.empty.wf = true := by decide
@[simp] theorem writer_empty_wf : BitWriter.empty.wf = true := by decide
@[simp] theorem reader_empty_bits : BitReader.empty.bits = [] := rfl
@[simp] theorem writer_empty_bits : BitWriter.empty.bits = [] := rfl

/-! The writer. -/

@[simp] theorem writeAll_nil (bw : BitWriter) : bw.writeAll [] = (bw, []) := rfl

theorem writeAll_cons (bw : BitWriter) (b : Bool) (bs : List Bool) :
    bw.writeAll (b :: bs) =
      (((bw.writeBit b).1.writeAll bs).1, (bw.writeBit b).2 ++ ((bw.writeBit b).1.writeAll bs).2) := rfl

/-- Writing one string after another is writing their concatenation. -/
theorem writeAll_append (bw : BitWriter) (p q : List Bool) :
    bw.writeAll (p ++ q) = (((bw.writeAll p).1.writeAll q).1, (bw.writeAll p).2 ++ ((bw.writeAll p).1.writeAll q).2) := by
  induction p generalizing bw with
  | nil => simp
  | cons b p ih => simp [writeAll_cons, ih]

/-- WriteBit: the pending bits and the new one, cut into whole bytes and what is left (R152). -/
theorem writeBit_spec (bw : BitWriter) (b : Bool) :
    ∃ bs : List Byte, (bw.writeBit b).2 = bytesOut bs ∧ bs.length = (bw.n.val + 1) / 8 ∧
      bs.flatMap byteBits ++ (bw.writeBit b).1.bits = bw.bits ++ [b] ∧
      (bw.writeBit b).1.n.val = (bw.n.val + 1) % 8 := by
  have key : ∀ (acc : BitVec 8) (n : Fin 8) (b : Bool),
      lowBits (shiftIn acc b) (n.val + 1) = lowBits acc n.val ++ [b] := by decide +kernel
  have k := key bw.acc bw.n b
  by_cases h : bw.n.val < 7
  · refine ⟨[], ?_, ?_, ?_, ?_⟩
    · simp [BitWriter.writeBit, h, bytesOut]
    · simp; omega
    · simpa [BitWriter.writeBit, h, BitWriter.bits] using k
    · simp [BitWriter.writeBit, h]; omega
  · have h7 : bw.n.val = 7 := by omega
    refine ⟨[shiftIn bw.acc b], ?_, ?_, ?_, ?_⟩
    · simp [BitWriter.writeBit, h, bytesOut]
    · simp [h7]
    · rw [h7] at k
      simp only [BitWriter.writeBit, List.flatMap_cons, List.flatMap_nil, List.append_nil, BitWriter.bits, h7]
      exact k
    · simp [BitWriter.writeBit, h7, BitWriter.empty]

/-- WriteBit keeps the writer's invariant (R60, R152). -/
theorem writeBit_wf (bw : BitWriter) (b : Bool) (h : bw.wf = true) : (bw.writeBit b).1.wf = true := by
  have key : ∀ (acc : BitVec 8) (n : Fin 8) (b : Bool), (BitWriter.mk acc n).wf = true →
      ((BitWriter.mk acc n).writeBit b).1.wf = true := by decide +kernel
  exact key bw.acc bw.n b h

theorem writeAll_wf (bw : BitWriter) (bits : List Bool) (h : bw.wf = true) : (bw.writeAll bits).1.wf = true := by
  induction bits generalizing bw with
  | nil => exact h
  | cons b bits ih => rw [writeAll_cons]; exact ih _ (writeBit_wf bw b h)

/-- Writing a bit string: the pending bits and the new ones, cut into whole bytes and what is left (R150-R154). -/
theorem writeAll_spec (bw : BitWriter) (bits : List Bool) :
    ∃ bs : List Byte, (bw.writeAll bits).2 = bytesOut bs ∧ bs.length = (bw.n.val + bits.length) / 8 ∧
      bs.flatMap byteBits ++ (bw.writeAll bits).1.bits = bw.bits ++ bits ∧
      (bw.writeAll bits).1.n.val = (bw.n.val + bits.length) % 8 := by
  induction bits generalizing bw with
  | nil => exact ⟨[], rfl, by simp; omega, by simp, by simp; omega⟩
  | cons b bits ih =>
    obtain ⟨bs1, e1, l1, s1, n1⟩ := writeBit_spec bw b
    obtain ⟨bs2, e2, l2, s2, n2⟩ := ih (bw.writeBit b).1
    refine ⟨bs1 ++ bs2, ?_, ?_, ?_, ?_⟩
    · simp [writeAll_cons, e1, e2, bytesOut]
    · simp only [List.length_append, List.length_cons]; omega
    · rw [writeAll_cons, List.flatMap_append, List.append_assoc, s2, ← List.append_assoc, s1]; simp
    · rw [writeAll_cons, n2]; simp only [List.length_cons]; omega

/-- A writer with the invariant and no pending bit is empty (R60). -/
theorem writer_eq_empty (bw : BitWriter) (h : bw.wf = true) (hn : bw.n.val = 0) : bw = BitWriter.empty := by
  have key : ∀ (acc : BitVec 8) (n : Fin 8), (BitWriter.mk acc n).wf = true → n.val = 0 →
      BitWriter.mk acc n = BitWriter.empty := by decide +kernel
  exact key bw.acc bw.n h hn

/-- Close: the pending bits, padded with 0 bits to a whole byte if there are any, then EOO; the writer is empty (R157). -/
theorem close_spec (bw : BitWriter) (h : bw.wf = true) :
    bw.close.1 = BitWriter.empty ∧ ∃ (bs : List Byte) (pad : List Bool), bw.close.2 = bytesOut bs ++ [.eoo] ∧
      bs.flatMap byteBits = bw.bits ++ pad ∧ pad.length < 8 ∧ (∀ b ∈ pad, b = false) ∧
      bs.length = (bw.n.val + 7) / 8 := by
  have key : ∀ (acc : BitVec 8) (n : Fin 8), lowBits (acc <<< (8 - n.val)) 8 =
      lowBits acc n.val ++ List.replicate (8 - n.val) false := by decide +kernel
  by_cases hn : bw.n.val = 0
  · refine ⟨?_, [], [], ?_, ?_, by simp, by simp, by simp [hn]⟩
    · simpa [BitWriter.close, hn] using writer_eq_empty bw h hn
    · simp [BitWriter.close, hn, bytesOut]
    · simp [BitWriter.bits, hn]
  · have hp : bw.n.val > 0 := by omega
    refine ⟨by simp [BitWriter.close, hp], [bw.acc <<< (8 - bw.n.val)], List.replicate (8 - bw.n.val) false, ?_, ?_, ?_, ?_, ?_⟩
    · simp [BitWriter.close, hp, bytesOut]
    · simpa [byteBits, BitWriter.bits] using key bw.acc bw.n
    · simp; omega
    · intro b hb; exact (List.mem_replicate.mp hb).2
    · simp; omega

end Sys2Proof.Machine
end

