-- ==== Sys2Proof/Laws/State.lean ====
section
/-! SUPPORT. One lemma per field per named update of State, so that no proof unfolds an update. -/
namespace Sys2Proof.Machine

/-! `State.invalidate` -/

@[simp] theorem State.invalidate_ie (s : State) : (s.invalidate).ie = s.ie := rfl
@[simp] theorem State.invalidate_busy (s : State) : (s.invalidate).busy = s.busy := rfl
@[simp] theorem State.invalidate_done (s : State) : (s.invalidate).done = s.done := rfl
@[simp] theorem State.invalidate_err (s : State) : (s.invalidate).err = s.err := rfl
@[simp] theorem State.invalidate_rej (s : State) : (s.invalidate).rej = s.rej := rfl
@[simp] theorem State.invalidate_treeValid (s : State) : (s.invalidate).treeValid = false := rfl
@[simp] theorem State.invalidate_codesValid (s : State) : (s.invalidate).codesValid = false := rfl
@[simp] theorem State.invalidate_errCode (s : State) : (s.invalidate).errCode = s.errCode := rfl
@[simp] theorem State.invalidate_data (s : State) : (s.invalidate).data = s.data := rfl
@[simp] theorem State.invalidate_result (s : State) : (s.invalidate).result = s.result := rfl
@[simp] theorem State.invalidate_errInfo (s : State) : (s.invalidate).errInfo = s.errInfo := rfl
@[simp] theorem State.invalidate_bitCnt (s : State) : (s.invalidate).bitCnt = s.bitCnt := rfl
@[simp] theorem State.invalidate_symCnt (s : State) : (s.invalidate).symCnt = s.symCnt := rfl
@[simp] theorem State.invalidate_nleaf (s : State) : (s.invalidate).nleaf = s.nleaf := rfl
@[simp] theorem State.invalidate_nnode (s : State) : (s.invalidate).nnode = s.nnode := rfl
@[simp] theorem State.invalidate_root (s : State) : (s.invalidate).root = s.root := rfl
@[simp] theorem State.invalidate_freq (s : State) : (s.invalidate).freq = s.freq := rfl
@[simp] theorem State.invalidate_node (s : State) : (s.invalidate).node = s.node := rfl
@[simp] theorem State.invalidate_code (s : State) : (s.invalidate).code = s.code := rfl
@[simp] theorem State.invalidate_bw (s : State) : (s.invalidate).bw = s.bw := rfl
@[simp] theorem State.invalidate_br (s : State) : (s.invalidate).br = s.br := rfl
@[simp] theorem State.invalidate_lcmd (s : State) : (s.invalidate).lcmd = s.lcmd := rfl
@[simp] theorem State.invalidate_ldata (s : State) : (s.invalidate).ldata = s.ldata := rfl
@[simp] theorem State.invalidate_segEnded (s : State) : (s.invalidate).segEnded = s.segEnded := rfl
@[simp] theorem State.invalidate_activity (s : State) : (s.invalidate).activity = s.activity := rfl
@[simp] theorem State.invalidate_pending (s : State) : (s.invalidate).pending = s.pending := rfl
@[simp] theorem State.invalidate_inPort (s : State) : (s.invalidate).inPort = s.inPort := rfl
@[simp] theorem State.invalidate_outPort (s : State) : (s.invalidate).outPort = s.outPort := rfl
@[simp] theorem State.invalidate_inDepth (s : State) : (s.invalidate).inDepth = s.inDepth := rfl
@[simp] theorem State.invalidate_outDepth (s : State) : (s.invalidate).outDepth = s.outDepth := rfl
@[simp] theorem State.invalidate_script (s : State) : (s.invalidate).script = s.script := rfl
@[simp] theorem State.invalidate_taken (s : State) : (s.invalidate).taken = s.taken := rfl
@[simp] theorem State.invalidate_busReads (s : State) : (s.invalidate).busReads = s.busReads := rfl
@[simp] theorem State.invalidate_pace (s : State) : (s.invalidate).pace = s.pace := rfl
@[simp] theorem State.invalidate_freeCtr (s : State) : (s.invalidate).freeCtr = s.freeCtr := rfl

/-! `State.countBits` -/

@[simp] theorem State.countBits_ie (k : Nat) (s : State) : (s.countBits k).ie = s.ie := rfl
@[simp] theorem State.countBits_busy (k : Nat) (s : State) : (s.countBits k).busy = s.busy := rfl
@[simp] theorem State.countBits_done (k : Nat) (s : State) : (s.countBits k).done = s.done := rfl
@[simp] theorem State.countBits_err (k : Nat) (s : State) : (s.countBits k).err = s.err := rfl
@[simp] theorem State.countBits_rej (k : Nat) (s : State) : (s.countBits k).rej = s.rej := rfl
@[simp] theorem State.countBits_treeValid (k : Nat) (s : State) : (s.countBits k).treeValid = s.treeValid := rfl
@[simp] theorem State.countBits_codesValid (k : Nat) (s : State) : (s.countBits k).codesValid = s.codesValid := rfl
@[simp] theorem State.countBits_errCode (k : Nat) (s : State) : (s.countBits k).errCode = s.errCode := rfl
@[simp] theorem State.countBits_data (k : Nat) (s : State) : (s.countBits k).data = s.data := rfl
@[simp] theorem State.countBits_result (k : Nat) (s : State) : (s.countBits k).result = s.result := rfl
@[simp] theorem State.countBits_errInfo (k : Nat) (s : State) : (s.countBits k).errInfo = s.errInfo := rfl
@[simp] theorem State.countBits_bitCnt (k : Nat) (s : State) : (s.countBits k).bitCnt = s.bitCnt + BitVec.ofNat 64 k := rfl
@[simp] theorem State.countBits_symCnt (k : Nat) (s : State) : (s.countBits k).symCnt = s.symCnt := rfl
@[simp] theorem State.countBits_nleaf (k : Nat) (s : State) : (s.countBits k).nleaf = s.nleaf := rfl
@[simp] theorem State.countBits_nnode (k : Nat) (s : State) : (s.countBits k).nnode = s.nnode := rfl
@[simp] theorem State.countBits_root (k : Nat) (s : State) : (s.countBits k).root = s.root := rfl
@[simp] theorem State.countBits_freq (k : Nat) (s : State) : (s.countBits k).freq = s.freq := rfl
@[simp] theorem State.countBits_node (k : Nat) (s : State) : (s.countBits k).node = s.node := rfl
@[simp] theorem State.countBits_code (k : Nat) (s : State) : (s.countBits k).code = s.code := rfl
@[simp] theorem State.countBits_bw (k : Nat) (s : State) : (s.countBits k).bw = s.bw := rfl
@[simp] theorem State.countBits_br (k : Nat) (s : State) : (s.countBits k).br = s.br := rfl
@[simp] theorem State.countBits_lcmd (k : Nat) (s : State) : (s.countBits k).lcmd = s.lcmd := rfl
@[simp] theorem State.countBits_ldata (k : Nat) (s : State) : (s.countBits k).ldata = s.ldata := rfl
@[simp] theorem State.countBits_segEnded (k : Nat) (s : State) : (s.countBits k).segEnded = s.segEnded := rfl
@[simp] theorem State.countBits_activity (k : Nat) (s : State) : (s.countBits k).activity = s.activity := rfl
@[simp] theorem State.countBits_pending (k : Nat) (s : State) : (s.countBits k).pending = s.pending := rfl
@[simp] theorem State.countBits_inPort (k : Nat) (s : State) : (s.countBits k).inPort = s.inPort := rfl
@[simp] theorem State.countBits_outPort (k : Nat) (s : State) : (s.countBits k).outPort = s.outPort := rfl
@[simp] theorem State.countBits_inDepth (k : Nat) (s : State) : (s.countBits k).inDepth = s.inDepth := rfl
@[simp] theorem State.countBits_outDepth (k : Nat) (s : State) : (s.countBits k).outDepth = s.outDepth := rfl
@[simp] theorem State.countBits_script (k : Nat) (s : State) : (s.countBits k).script = s.script := rfl
@[simp] theorem State.countBits_taken (k : Nat) (s : State) : (s.countBits k).taken = s.taken := rfl
@[simp] theorem State.countBits_busReads (k : Nat) (s : State) : (s.countBits k).busReads = s.busReads := rfl
@[simp] theorem State.countBits_pace (k : Nat) (s : State) : (s.countBits k).pace = s.pace := rfl
@[simp] theorem State.countBits_freeCtr (k : Nat) (s : State) : (s.countBits k).freeCtr = s.freeCtr := rfl

/-! `State.countSymbol` -/

@[simp] theorem State.countSymbol_ie (s : State) : (s.countSymbol).ie = s.ie := rfl
@[simp] theorem State.countSymbol_busy (s : State) : (s.countSymbol).busy = s.busy := rfl
@[simp] theorem State.countSymbol_done (s : State) : (s.countSymbol).done = s.done := rfl
@[simp] theorem State.countSymbol_err (s : State) : (s.countSymbol).err = s.err := rfl
@[simp] theorem State.countSymbol_rej (s : State) : (s.countSymbol).rej = s.rej := rfl
@[simp] theorem State.countSymbol_treeValid (s : State) : (s.countSymbol).treeValid = s.treeValid := rfl
@[simp] theorem State.countSymbol_codesValid (s : State) : (s.countSymbol).codesValid = s.codesValid := rfl
@[simp] theorem State.countSymbol_errCode (s : State) : (s.countSymbol).errCode = s.errCode := rfl
@[simp] theorem State.countSymbol_data (s : State) : (s.countSymbol).data = s.data := rfl
@[simp] theorem State.countSymbol_result (s : State) : (s.countSymbol).result = s.result := rfl
@[simp] theorem State.countSymbol_errInfo (s : State) : (s.countSymbol).errInfo = s.errInfo := rfl
@[simp] theorem State.countSymbol_bitCnt (s : State) : (s.countSymbol).bitCnt = s.bitCnt := rfl
@[simp] theorem State.countSymbol_symCnt (s : State) : (s.countSymbol).symCnt = s.symCnt + 1 := rfl
@[simp] theorem State.countSymbol_nleaf (s : State) : (s.countSymbol).nleaf = s.nleaf := rfl
@[simp] theorem State.countSymbol_nnode (s : State) : (s.countSymbol).nnode = s.nnode := rfl
@[simp] theorem State.countSymbol_root (s : State) : (s.countSymbol).root = s.root := rfl
@[simp] theorem State.countSymbol_freq (s : State) : (s.countSymbol).freq = s.freq := rfl
@[simp] theorem State.countSymbol_node (s : State) : (s.countSymbol).node = s.node := rfl
@[simp] theorem State.countSymbol_code (s : State) : (s.countSymbol).code = s.code := rfl
@[simp] theorem State.countSymbol_bw (s : State) : (s.countSymbol).bw = s.bw := rfl
@[simp] theorem State.countSymbol_br (s : State) : (s.countSymbol).br = s.br := rfl
@[simp] theorem State.countSymbol_lcmd (s : State) : (s.countSymbol).lcmd = s.lcmd := rfl
@[simp] theorem State.countSymbol_ldata (s : State) : (s.countSymbol).ldata = s.ldata := rfl
@[simp] theorem State.countSymbol_segEnded (s : State) : (s.countSymbol).segEnded = s.segEnded := rfl
@[simp] theorem State.countSymbol_activity (s : State) : (s.countSymbol).activity = s.activity := rfl
@[simp] theorem State.countSymbol_pending (s : State) : (s.countSymbol).pending = s.pending := rfl
@[simp] theorem State.countSymbol_inPort (s : State) : (s.countSymbol).inPort = s.inPort := rfl
@[simp] theorem State.countSymbol_outPort (s : State) : (s.countSymbol).outPort = s.outPort := rfl
@[simp] theorem State.countSymbol_inDepth (s : State) : (s.countSymbol).inDepth = s.inDepth := rfl
@[simp] theorem State.countSymbol_outDepth (s : State) : (s.countSymbol).outDepth = s.outDepth := rfl
@[simp] theorem State.countSymbol_script (s : State) : (s.countSymbol).script = s.script := rfl
@[simp] theorem State.countSymbol_taken (s : State) : (s.countSymbol).taken = s.taken := rfl
@[simp] theorem State.countSymbol_busReads (s : State) : (s.countSymbol).busReads = s.busReads := rfl
@[simp] theorem State.countSymbol_pace (s : State) : (s.countSymbol).pace = s.pace := rfl
@[simp] theorem State.countSymbol_freeCtr (s : State) : (s.countSymbol).freeCtr = s.freeCtr := rfl

/-! `State.setFreq` -/

@[simp] theorem State.setFreq_ie (k : Nat) (v : Word) (s : State) : (s.setFreq k v).ie = s.ie := rfl
@[simp] theorem State.setFreq_busy (k : Nat) (v : Word) (s : State) : (s.setFreq k v).busy = s.busy := rfl
@[simp] theorem State.setFreq_done (k : Nat) (v : Word) (s : State) : (s.setFreq k v).done = s.done := rfl
@[simp] theorem State.setFreq_err (k : Nat) (v : Word) (s : State) : (s.setFreq k v).err = s.err := rfl
@[simp] theorem State.setFreq_rej (k : Nat) (v : Word) (s : State) : (s.setFreq k v).rej = s.rej := rfl
@[simp] theorem State.setFreq_treeValid (k : Nat) (v : Word) (s : State) : (s.setFreq k v).treeValid = s.treeValid := rfl
@[simp] theorem State.setFreq_codesValid (k : Nat) (v : Word) (s : State) : (s.setFreq k v).codesValid = s.codesValid := rfl
@[simp] theorem State.setFreq_errCode (k : Nat) (v : Word) (s : State) : (s.setFreq k v).errCode = s.errCode := rfl
@[simp] theorem State.setFreq_data (k : Nat) (v : Word) (s : State) : (s.setFreq k v).data = s.data := rfl
@[simp] theorem State.setFreq_result (k : Nat) (v : Word) (s : State) : (s.setFreq k v).result = s.result := rfl
@[simp] theorem State.setFreq_errInfo (k : Nat) (v : Word) (s : State) : (s.setFreq k v).errInfo = s.errInfo := rfl
@[simp] theorem State.setFreq_bitCnt (k : Nat) (v : Word) (s : State) : (s.setFreq k v).bitCnt = s.bitCnt := rfl
@[simp] theorem State.setFreq_symCnt (k : Nat) (v : Word) (s : State) : (s.setFreq k v).symCnt = s.symCnt := rfl
@[simp] theorem State.setFreq_nleaf (k : Nat) (v : Word) (s : State) : (s.setFreq k v).nleaf = s.nleaf := rfl
@[simp] theorem State.setFreq_nnode (k : Nat) (v : Word) (s : State) : (s.setFreq k v).nnode = s.nnode := rfl
@[simp] theorem State.setFreq_root (k : Nat) (v : Word) (s : State) : (s.setFreq k v).root = s.root := rfl
@[simp] theorem State.setFreq_freq (k : Nat) (v : Word) (s : State) : (s.setFreq k v).freq = s.freq.setIfInBounds k v := rfl
@[simp] theorem State.setFreq_node (k : Nat) (v : Word) (s : State) : (s.setFreq k v).node = s.node := rfl
@[simp] theorem State.setFreq_code (k : Nat) (v : Word) (s : State) : (s.setFreq k v).code = s.code := rfl
@[simp] theorem State.setFreq_bw (k : Nat) (v : Word) (s : State) : (s.setFreq k v).bw = s.bw := rfl
@[simp] theorem State.setFreq_br (k : Nat) (v : Word) (s : State) : (s.setFreq k v).br = s.br := rfl
@[simp] theorem State.setFreq_lcmd (k : Nat) (v : Word) (s : State) : (s.setFreq k v).lcmd = s.lcmd := rfl
@[simp] theorem State.setFreq_ldata (k : Nat) (v : Word) (s : State) : (s.setFreq k v).ldata = s.ldata := rfl
@[simp] theorem State.setFreq_segEnded (k : Nat) (v : Word) (s : State) : (s.setFreq k v).segEnded = s.segEnded := rfl
@[simp] theorem State.setFreq_activity (k : Nat) (v : Word) (s : State) : (s.setFreq k v).activity = s.activity := rfl
@[simp] theorem State.setFreq_pending (k : Nat) (v : Word) (s : State) : (s.setFreq k v).pending = s.pending := rfl
@[simp] theorem State.setFreq_inPort (k : Nat) (v : Word) (s : State) : (s.setFreq k v).inPort = s.inPort := rfl
@[simp] theorem State.setFreq_outPort (k : Nat) (v : Word) (s : State) : (s.setFreq k v).outPort = s.outPort := rfl
@[simp] theorem State.setFreq_inDepth (k : Nat) (v : Word) (s : State) : (s.setFreq k v).inDepth = s.inDepth := rfl
@[simp] theorem State.setFreq_outDepth (k : Nat) (v : Word) (s : State) : (s.setFreq k v).outDepth = s.outDepth := rfl
@[simp] theorem State.setFreq_script (k : Nat) (v : Word) (s : State) : (s.setFreq k v).script = s.script := rfl
@[simp] theorem State.setFreq_taken (k : Nat) (v : Word) (s : State) : (s.setFreq k v).taken = s.taken := rfl
@[simp] theorem State.setFreq_busReads (k : Nat) (v : Word) (s : State) : (s.setFreq k v).busReads = s.busReads := rfl
@[simp] theorem State.setFreq_pace (k : Nat) (v : Word) (s : State) : (s.setFreq k v).pace = s.pace := rfl
@[simp] theorem State.setFreq_freeCtr (k : Nat) (v : Word) (s : State) : (s.setFreq k v).freeCtr = s.freeCtr := rfl

/-! `State.clearFreq` -/

@[simp] theorem State.clearFreq_ie (s : State) : (s.clearFreq).ie = s.ie := rfl
@[simp] theorem State.clearFreq_busy (s : State) : (s.clearFreq).busy = s.busy := rfl
@[simp] theorem State.clearFreq_done (s : State) : (s.clearFreq).done = s.done := rfl
@[simp] theorem State.clearFreq_err (s : State) : (s.clearFreq).err = s.err := rfl
@[simp] theorem State.clearFreq_rej (s : State) : (s.clearFreq).rej = s.rej := rfl
@[simp] theorem State.clearFreq_treeValid (s : State) : (s.clearFreq).treeValid = s.treeValid := rfl
@[simp] theorem State.clearFreq_codesValid (s : State) : (s.clearFreq).codesValid = s.codesValid := rfl
@[simp] theorem State.clearFreq_errCode (s : State) : (s.clearFreq).errCode = s.errCode := rfl
@[simp] theorem State.clearFreq_data (s : State) : (s.clearFreq).data = s.data := rfl
@[simp] theorem State.clearFreq_result (s : State) : (s.clearFreq).result = s.result := rfl
@[simp] theorem State.clearFreq_errInfo (s : State) : (s.clearFreq).errInfo = s.errInfo := rfl
@[simp] theorem State.clearFreq_bitCnt (s : State) : (s.clearFreq).bitCnt = s.bitCnt := rfl
@[simp] theorem State.clearFreq_symCnt (s : State) : (s.clearFreq).symCnt = s.symCnt := rfl
@[simp] theorem State.clearFreq_nleaf (s : State) : (s.clearFreq).nleaf = s.nleaf := rfl
@[simp] theorem State.clearFreq_nnode (s : State) : (s.clearFreq).nnode = s.nnode := rfl
@[simp] theorem State.clearFreq_root (s : State) : (s.clearFreq).root = s.root := rfl
@[simp] theorem State.clearFreq_freq (s : State) : (s.clearFreq).freq = zeroFreq := rfl
@[simp] theorem State.clearFreq_node (s : State) : (s.clearFreq).node = s.node := rfl
@[simp] theorem State.clearFreq_code (s : State) : (s.clearFreq).code = s.code := rfl
@[simp] theorem State.clearFreq_bw (s : State) : (s.clearFreq).bw = s.bw := rfl
@[simp] theorem State.clearFreq_br (s : State) : (s.clearFreq).br = s.br := rfl
@[simp] theorem State.clearFreq_lcmd (s : State) : (s.clearFreq).lcmd = s.lcmd := rfl
@[simp] theorem State.clearFreq_ldata (s : State) : (s.clearFreq).ldata = s.ldata := rfl
@[simp] theorem State.clearFreq_segEnded (s : State) : (s.clearFreq).segEnded = s.segEnded := rfl
@[simp] theorem State.clearFreq_activity (s : State) : (s.clearFreq).activity = s.activity := rfl
@[simp] theorem State.clearFreq_pending (s : State) : (s.clearFreq).pending = s.pending := rfl
@[simp] theorem State.clearFreq_inPort (s : State) : (s.clearFreq).inPort = s.inPort := rfl
@[simp] theorem State.clearFreq_outPort (s : State) : (s.clearFreq).outPort = s.outPort := rfl
@[simp] theorem State.clearFreq_inDepth (s : State) : (s.clearFreq).inDepth = s.inDepth := rfl
@[simp] theorem State.clearFreq_outDepth (s : State) : (s.clearFreq).outDepth = s.outDepth := rfl
@[simp] theorem State.clearFreq_script (s : State) : (s.clearFreq).script = s.script := rfl
@[simp] theorem State.clearFreq_taken (s : State) : (s.clearFreq).taken = s.taken := rfl
@[simp] theorem State.clearFreq_busReads (s : State) : (s.clearFreq).busReads = s.busReads := rfl
@[simp] theorem State.clearFreq_pace (s : State) : (s.clearFreq).pace = s.pace := rfl
@[simp] theorem State.clearFreq_freeCtr (s : State) : (s.clearFreq).freeCtr = s.freeCtr := rfl

/-! `State.accept` -/

@[simp] theorem State.accept_ie (w : Word) (s : State) : (s.accept w).ie = s.ie := rfl
@[simp] theorem State.accept_busy (w : Word) (s : State) : (s.accept w).busy = true := rfl
@[simp] theorem State.accept_done (w : Word) (s : State) : (s.accept w).done = false := rfl
@[simp] theorem State.accept_err (w : Word) (s : State) : (s.accept w).err = s.err := rfl
@[simp] theorem State.accept_rej (w : Word) (s : State) : (s.accept w).rej = s.rej := rfl
@[simp] theorem State.accept_treeValid (w : Word) (s : State) : (s.accept w).treeValid = s.treeValid := rfl
@[simp] theorem State.accept_codesValid (w : Word) (s : State) : (s.accept w).codesValid = s.codesValid := rfl
@[simp] theorem State.accept_errCode (w : Word) (s : State) : (s.accept w).errCode = s.errCode := rfl
@[simp] theorem State.accept_data (w : Word) (s : State) : (s.accept w).data = s.data := rfl
@[simp] theorem State.accept_result (w : Word) (s : State) : (s.accept w).result = s.result := rfl
@[simp] theorem State.accept_errInfo (w : Word) (s : State) : (s.accept w).errInfo = s.errInfo := rfl
@[simp] theorem State.accept_bitCnt (w : Word) (s : State) : (s.accept w).bitCnt = s.bitCnt := rfl
@[simp] theorem State.accept_symCnt (w : Word) (s : State) : (s.accept w).symCnt = s.symCnt := rfl
@[simp] theorem State.accept_nleaf (w : Word) (s : State) : (s.accept w).nleaf = s.nleaf := rfl
@[simp] theorem State.accept_nnode (w : Word) (s : State) : (s.accept w).nnode = s.nnode := rfl
@[simp] theorem State.accept_root (w : Word) (s : State) : (s.accept w).root = s.root := rfl
@[simp] theorem State.accept_freq (w : Word) (s : State) : (s.accept w).freq = s.freq := rfl
@[simp] theorem State.accept_node (w : Word) (s : State) : (s.accept w).node = s.node := rfl
@[simp] theorem State.accept_code (w : Word) (s : State) : (s.accept w).code = s.code := rfl
@[simp] theorem State.accept_bw (w : Word) (s : State) : (s.accept w).bw = s.bw := rfl
@[simp] theorem State.accept_br (w : Word) (s : State) : (s.accept w).br = s.br := rfl
@[simp] theorem State.accept_lcmd (w : Word) (s : State) : (s.accept w).lcmd = w := rfl
@[simp] theorem State.accept_ldata (w : Word) (s : State) : (s.accept w).ldata = s.data := rfl
@[simp] theorem State.accept_segEnded (w : Word) (s : State) : (s.accept w).segEnded = false := rfl
@[simp] theorem State.accept_activity (w : Word) (s : State) : (s.accept w).activity = .idle := rfl
@[simp] theorem State.accept_pending (w : Word) (s : State) : (s.accept w).pending = [] := rfl
@[simp] theorem State.accept_inPort (w : Word) (s : State) : (s.accept w).inPort = s.inPort := rfl
@[simp] theorem State.accept_outPort (w : Word) (s : State) : (s.accept w).outPort = s.outPort := rfl
@[simp] theorem State.accept_inDepth (w : Word) (s : State) : (s.accept w).inDepth = s.inDepth := rfl
@[simp] theorem State.accept_outDepth (w : Word) (s : State) : (s.accept w).outDepth = s.outDepth := rfl
@[simp] theorem State.accept_script (w : Word) (s : State) : (s.accept w).script = s.script := rfl
@[simp] theorem State.accept_taken (w : Word) (s : State) : (s.accept w).taken = s.taken := rfl
@[simp] theorem State.accept_busReads (w : Word) (s : State) : (s.accept w).busReads = s.busReads := rfl
@[simp] theorem State.accept_pace (w : Word) (s : State) : (s.accept w).pace = s.pace := rfl
@[simp] theorem State.accept_freeCtr (w : Word) (s : State) : (s.accept w).freeCtr = s.freeCtr := rfl

/-! `State.succeed` -/

@[simp] theorem State.succeed_ie (out : List OutToken) (s : State) : (s.succeed out).ie = s.ie := rfl
@[simp] theorem State.succeed_busy (out : List OutToken) (s : State) : (s.succeed out).busy = s.busy := rfl
@[simp] theorem State.succeed_done (out : List OutToken) (s : State) : (s.succeed out).done = s.done := rfl
@[simp] theorem State.succeed_err (out : List OutToken) (s : State) : (s.succeed out).err = s.err := rfl
@[simp] theorem State.succeed_rej (out : List OutToken) (s : State) : (s.succeed out).rej = s.rej := rfl
@[simp] theorem State.succeed_treeValid (out : List OutToken) (s : State) : (s.succeed out).treeValid = s.treeValid := rfl
@[simp] theorem State.succeed_codesValid (out : List OutToken) (s : State) : (s.succeed out).codesValid = s.codesValid := rfl
@[simp] theorem State.succeed_errCode (out : List OutToken) (s : State) : (s.succeed out).errCode = s.errCode := rfl
@[simp] theorem State.succeed_data (out : List OutToken) (s : State) : (s.succeed out).data = s.data := rfl
@[simp] theorem State.succeed_result (out : List OutToken) (s : State) : (s.succeed out).result = s.result := rfl
@[simp] theorem State.succeed_errInfo (out : List OutToken) (s : State) : (s.succeed out).errInfo = s.errInfo := rfl
@[simp] theorem State.succeed_bitCnt (out : List OutToken) (s : State) : (s.succeed out).bitCnt = s.bitCnt := rfl
@[simp] theorem State.succeed_symCnt (out : List OutToken) (s : State) : (s.succeed out).symCnt = s.symCnt := rfl
@[simp] theorem State.succeed_nleaf (out : List OutToken) (s : State) : (s.succeed out).nleaf = s.nleaf := rfl
@[simp] theorem State.succeed_nnode (out : List OutToken) (s : State) : (s.succeed out).nnode = s.nnode := rfl
@[simp] theorem State.succeed_root (out : List OutToken) (s : State) : (s.succeed out).root = s.root := rfl
@[simp] theorem State.succeed_freq (out : List OutToken) (s : State) : (s.succeed out).freq = s.freq := rfl
@[simp] theorem State.succeed_node (out : List OutToken) (s : State) : (s.succeed out).node = s.node := rfl
@[simp] theorem State.succeed_code (out : List OutToken) (s : State) : (s.succeed out).code = s.code := rfl
@[simp] theorem State.succeed_bw (out : List OutToken) (s : State) : (s.succeed out).bw = s.bw := rfl
@[simp] theorem State.succeed_br (out : List OutToken) (s : State) : (s.succeed out).br = s.br := rfl
@[simp] theorem State.succeed_lcmd (out : List OutToken) (s : State) : (s.succeed out).lcmd = s.lcmd := rfl
@[simp] theorem State.succeed_ldata (out : List OutToken) (s : State) : (s.succeed out).ldata = s.ldata := rfl
@[simp] theorem State.succeed_segEnded (out : List OutToken) (s : State) : (s.succeed out).segEnded = s.segEnded := rfl
@[simp] theorem State.succeed_activity (out : List OutToken) (s : State) : (s.succeed out).activity = .finish none := rfl
@[simp] theorem State.succeed_pending (out : List OutToken) (s : State) : (s.succeed out).pending = out := rfl
@[simp] theorem State.succeed_inPort (out : List OutToken) (s : State) : (s.succeed out).inPort = s.inPort := rfl
@[simp] theorem State.succeed_outPort (out : List OutToken) (s : State) : (s.succeed out).outPort = s.outPort := rfl
@[simp] theorem State.succeed_inDepth (out : List OutToken) (s : State) : (s.succeed out).inDepth = s.inDepth := rfl
@[simp] theorem State.succeed_outDepth (out : List OutToken) (s : State) : (s.succeed out).outDepth = s.outDepth := rfl
@[simp] theorem State.succeed_script (out : List OutToken) (s : State) : (s.succeed out).script = s.script := rfl
@[simp] theorem State.succeed_taken (out : List OutToken) (s : State) : (s.succeed out).taken = s.taken := rfl
@[simp] theorem State.succeed_busReads (out : List OutToken) (s : State) : (s.succeed out).busReads = s.busReads := rfl
@[simp] theorem State.succeed_pace (out : List OutToken) (s : State) : (s.succeed out).pace = s.pace := rfl
@[simp] theorem State.succeed_freeCtr (out : List OutToken) (s : State) : (s.succeed out).freeCtr = s.freeCtr := rfl

/-! `State.abandon` -/

@[simp] theorem State.abandon_ie (e : ErrCode) (info : Word) (a : Bool) (s : State) : (s.abandon e info a).ie = s.ie := rfl
@[simp] theorem State.abandon_busy (e : ErrCode) (info : Word) (a : Bool) (s : State) : (s.abandon e info a).busy = s.busy := rfl
@[simp] theorem State.abandon_done (e : ErrCode) (info : Word) (a : Bool) (s : State) : (s.abandon e info a).done = s.done := rfl
@[simp] theorem State.abandon_err (e : ErrCode) (info : Word) (a : Bool) (s : State) : (s.abandon e info a).err = s.err := rfl
@[simp] theorem State.abandon_rej (e : ErrCode) (info : Word) (a : Bool) (s : State) : (s.abandon e info a).rej = s.rej := rfl
@[simp] theorem State.abandon_treeValid (e : ErrCode) (info : Word) (a : Bool) (s : State) : (s.abandon e info a).treeValid = s.treeValid := rfl
@[simp] theorem State.abandon_codesValid (e : ErrCode) (info : Word) (a : Bool) (s : State) : (s.abandon e info a).codesValid = s.codesValid := rfl
@[simp] theorem State.abandon_errCode (e : ErrCode) (info : Word) (a : Bool) (s : State) : (s.abandon e info a).errCode = s.errCode := rfl
@[simp] theorem State.abandon_data (e : ErrCode) (info : Word) (a : Bool) (s : State) : (s.abandon e info a).data = s.data := rfl
@[simp] theorem State.abandon_result (e : ErrCode) (info : Word) (a : Bool) (s : State) : (s.abandon e info a).result = s.result := rfl
@[simp] theorem State.abandon_errInfo (e : ErrCode) (info : Word) (a : Bool) (s : State) : (s.abandon e info a).errInfo = s.errInfo := rfl
@[simp] theorem State.abandon_bitCnt (e : ErrCode) (info : Word) (a : Bool) (s : State) : (s.abandon e info a).bitCnt = s.bitCnt := rfl
@[simp] theorem State.abandon_symCnt (e : ErrCode) (info : Word) (a : Bool) (s : State) : (s.abandon e info a).symCnt = s.symCnt := rfl
@[simp] theorem State.abandon_nleaf (e : ErrCode) (info : Word) (a : Bool) (s : State) : (s.abandon e info a).nleaf = s.nleaf := rfl
@[simp] theorem State.abandon_nnode (e : ErrCode) (info : Word) (a : Bool) (s : State) : (s.abandon e info a).nnode = s.nnode := rfl
@[simp] theorem State.abandon_root (e : ErrCode) (info : Word) (a : Bool) (s : State) : (s.abandon e info a).root = s.root := rfl
@[simp] theorem State.abandon_freq (e : ErrCode) (info : Word) (a : Bool) (s : State) : (s.abandon e info a).freq = s.freq := rfl
@[simp] theorem State.abandon_node (e : ErrCode) (info : Word) (a : Bool) (s : State) : (s.abandon e info a).node = s.node := rfl
@[simp] theorem State.abandon_code (e : ErrCode) (info : Word) (a : Bool) (s : State) : (s.abandon e info a).code = s.code := rfl
@[simp] theorem State.abandon_bw (e : ErrCode) (info : Word) (a : Bool) (s : State) : (s.abandon e info a).bw = if a then BitWriter.empty else s.bw := rfl
@[simp] theorem State.abandon_br (e : ErrCode) (info : Word) (a : Bool) (s : State) : (s.abandon e info a).br = BitReader.empty := rfl
@[simp] theorem State.abandon_lcmd (e : ErrCode) (info : Word) (a : Bool) (s : State) : (s.abandon e info a).lcmd = s.lcmd := rfl
@[simp] theorem State.abandon_ldata (e : ErrCode) (info : Word) (a : Bool) (s : State) : (s.abandon e info a).ldata = s.ldata := rfl
@[simp] theorem State.abandon_segEnded (e : ErrCode) (info : Word) (a : Bool) (s : State) : (s.abandon e info a).segEnded = s.segEnded := rfl
@[simp] theorem State.abandon_activity (e : ErrCode) (info : Word) (a : Bool) (s : State) : (s.abandon e info a).activity = .finish (some (e, info)) := rfl
@[simp] theorem State.abandon_pending (e : ErrCode) (info : Word) (a : Bool) (s : State) : (s.abandon e info a).pending = if a then [.abt] else [] := rfl
@[simp] theorem State.abandon_inPort (e : ErrCode) (info : Word) (a : Bool) (s : State) : (s.abandon e info a).inPort = s.inPort := rfl
@[simp] theorem State.abandon_outPort (e : ErrCode) (info : Word) (a : Bool) (s : State) : (s.abandon e info a).outPort = s.outPort := rfl
@[simp] theorem State.abandon_inDepth (e : ErrCode) (info : Word) (a : Bool) (s : State) : (s.abandon e info a).inDepth = s.inDepth := rfl
@[simp] theorem State.abandon_outDepth (e : ErrCode) (info : Word) (a : Bool) (s : State) : (s.abandon e info a).outDepth = s.outDepth := rfl
@[simp] theorem State.abandon_script (e : ErrCode) (info : Word) (a : Bool) (s : State) : (s.abandon e info a).script = s.script := rfl
@[simp] theorem State.abandon_taken (e : ErrCode) (info : Word) (a : Bool) (s : State) : (s.abandon e info a).taken = s.taken := rfl
@[simp] theorem State.abandon_busReads (e : ErrCode) (info : Word) (a : Bool) (s : State) : (s.abandon e info a).busReads = s.busReads := rfl
@[simp] theorem State.abandon_pace (e : ErrCode) (info : Word) (a : Bool) (s : State) : (s.abandon e info a).pace = s.pace := rfl
@[simp] theorem State.abandon_freeCtr (e : ErrCode) (info : Word) (a : Bool) (s : State) : (s.abandon e info a).freeCtr = s.freeCtr := rfl

/-! `State.complete none` -/

@[simp] theorem State.complete_ok_ie (s : State) : (s.complete none).ie = s.ie := rfl
@[simp] theorem State.complete_ok_busy (s : State) : (s.complete none).busy = false := rfl
@[simp] theorem State.complete_ok_done (s : State) : (s.complete none).done = true := rfl
@[simp] theorem State.complete_ok_err (s : State) : (s.complete none).err = s.err := rfl
@[simp] theorem State.complete_ok_rej (s : State) : (s.complete none).rej = s.rej := rfl
@[simp] theorem State.complete_ok_treeValid (s : State) : (s.complete none).treeValid = s.treeValid := rfl
@[simp] theorem State.complete_ok_codesValid (s : State) : (s.complete none).codesValid = s.codesValid := rfl
@[simp] theorem State.complete_ok_errCode (s : State) : (s.complete none).errCode = s.errCode := rfl
@[simp] theorem State.complete_ok_data (s : State) : (s.complete none).data = s.data := rfl
@[simp] theorem State.complete_ok_result (s : State) : (s.complete none).result = s.result := rfl
@[simp] theorem State.complete_ok_errInfo (s : State) : (s.complete none).errInfo = s.errInfo := rfl
@[simp] theorem State.complete_ok_bitCnt (s : State) : (s.complete none).bitCnt = s.bitCnt := rfl
@[simp] theorem State.complete_ok_symCnt (s : State) : (s.complete none).symCnt = s.symCnt := rfl
@[simp] theorem State.complete_ok_nleaf (s : State) : (s.complete none).nleaf = s.nleaf := rfl
@[simp] theorem State.complete_ok_nnode (s : State) : (s.complete none).nnode = s.nnode := rfl
@[simp] theorem State.complete_ok_root (s : State) : (s.complete none).root = s.root := rfl
@[simp] theorem State.complete_ok_freq (s : State) : (s.complete none).freq = s.freq := rfl
@[simp] theorem State.complete_ok_node (s : State) : (s.complete none).node = s.node := rfl
@[simp] theorem State.complete_ok_code (s : State) : (s.complete none).code = s.code := rfl
@[simp] theorem State.complete_ok_bw (s : State) : (s.complete none).bw = s.bw := rfl
@[simp] theorem State.complete_ok_br (s : State) : (s.complete none).br = s.br := rfl
@[simp] theorem State.complete_ok_lcmd (s : State) : (s.complete none).lcmd = 0 := rfl
@[simp] theorem State.complete_ok_ldata (s : State) : (s.complete none).ldata = 0 := rfl
@[simp] theorem State.complete_ok_segEnded (s : State) : (s.complete none).segEnded = false := rfl
@[simp] theorem State.complete_ok_activity (s : State) : (s.complete none).activity = .idle := rfl
@[simp] theorem State.complete_ok_pending (s : State) : (s.complete none).pending = s.pending := rfl
@[simp] theorem State.complete_ok_inPort (s : State) : (s.complete none).inPort = s.inPort := rfl
@[simp] theorem State.complete_ok_outPort (s : State) : (s.complete none).outPort = s.outPort := rfl
@[simp] theorem State.complete_ok_inDepth (s : State) : (s.complete none).inDepth = s.inDepth := rfl
@[simp] theorem State.complete_ok_outDepth (s : State) : (s.complete none).outDepth = s.outDepth := rfl
@[simp] theorem State.complete_ok_script (s : State) : (s.complete none).script = s.script := rfl
@[simp] theorem State.complete_ok_taken (s : State) : (s.complete none).taken = s.taken := rfl
@[simp] theorem State.complete_ok_busReads (s : State) : (s.complete none).busReads = s.busReads := rfl
@[simp] theorem State.complete_ok_pace (s : State) : (s.complete none).pace = s.pace := rfl
@[simp] theorem State.complete_ok_freeCtr (s : State) : (s.complete none).freeCtr = s.freeCtr := rfl

/-! `State.complete (some (e, info))` -/

@[simp] theorem State.complete_err_ie (e : ErrCode) (info : Word) (s : State) : (s.complete (some (e, info))).ie = s.ie := rfl
@[simp] theorem State.complete_err_busy (e : ErrCode) (info : Word) (s : State) : (s.complete (some (e, info))).busy = false := rfl
@[simp] theorem State.complete_err_done (e : ErrCode) (info : Word) (s : State) : (s.complete (some (e, info))).done = true := rfl
@[simp] theorem State.complete_err_err (e : ErrCode) (info : Word) (s : State) : (s.complete (some (e, info))).err = true := rfl
@[simp] theorem State.complete_err_rej (e : ErrCode) (info : Word) (s : State) : (s.complete (some (e, info))).rej = s.rej := rfl
@[simp] theorem State.complete_err_treeValid (e : ErrCode) (info : Word) (s : State) : (s.complete (some (e, info))).treeValid = s.treeValid := rfl
@[simp] theorem State.complete_err_codesValid (e : ErrCode) (info : Word) (s : State) : (s.complete (some (e, info))).codesValid = s.codesValid := rfl
@[simp] theorem State.complete_err_errCode (e : ErrCode) (info : Word) (s : State) : (s.complete (some (e, info))).errCode = e.toByte := rfl
@[simp] theorem State.complete_err_data (e : ErrCode) (info : Word) (s : State) : (s.complete (some (e, info))).data = s.data := rfl
@[simp] theorem State.complete_err_result (e : ErrCode) (info : Word) (s : State) : (s.complete (some (e, info))).result = s.result := rfl
@[simp] theorem State.complete_err_errInfo (e : ErrCode) (info : Word) (s : State) : (s.complete (some (e, info))).errInfo = info := rfl
@[simp] theorem State.complete_err_bitCnt (e : ErrCode) (info : Word) (s : State) : (s.complete (some (e, info))).bitCnt = s.bitCnt := rfl
@[simp] theorem State.complete_err_symCnt (e : ErrCode) (info : Word) (s : State) : (s.complete (some (e, info))).symCnt = s.symCnt := rfl
@[simp] theorem State.complete_err_nleaf (e : ErrCode) (info : Word) (s : State) : (s.complete (some (e, info))).nleaf = s.nleaf := rfl
@[simp] theorem State.complete_err_nnode (e : ErrCode) (info : Word) (s : State) : (s.complete (some (e, info))).nnode = s.nnode := rfl
@[simp] theorem State.complete_err_root (e : ErrCode) (info : Word) (s : State) : (s.complete (some (e, info))).root = s.root := rfl
@[simp] theorem State.complete_err_freq (e : ErrCode) (info : Word) (s : State) : (s.complete (some (e, info))).freq = s.freq := rfl
@[simp] theorem State.complete_err_node (e : ErrCode) (info : Word) (s : State) : (s.complete (some (e, info))).node = s.node := rfl
@[simp] theorem State.complete_err_code (e : ErrCode) (info : Word) (s : State) : (s.complete (some (e, info))).code = s.code := rfl
@[simp] theorem State.complete_err_bw (e : ErrCode) (info : Word) (s : State) : (s.complete (some (e, info))).bw = s.bw := rfl
@[simp] theorem State.complete_err_br (e : ErrCode) (info : Word) (s : State) : (s.complete (some (e, info))).br = s.br := rfl
@[simp] theorem State.complete_err_lcmd (e : ErrCode) (info : Word) (s : State) : (s.complete (some (e, info))).lcmd = 0 := rfl
@[simp] theorem State.complete_err_ldata (e : ErrCode) (info : Word) (s : State) : (s.complete (some (e, info))).ldata = 0 := rfl
@[simp] theorem State.complete_err_segEnded (e : ErrCode) (info : Word) (s : State) : (s.complete (some (e, info))).segEnded = false := rfl
@[simp] theorem State.complete_err_activity (e : ErrCode) (info : Word) (s : State) : (s.complete (some (e, info))).activity = .idle := rfl
@[simp] theorem State.complete_err_pending (e : ErrCode) (info : Word) (s : State) : (s.complete (some (e, info))).pending = s.pending := rfl
@[simp] theorem State.complete_err_inPort (e : ErrCode) (info : Word) (s : State) : (s.complete (some (e, info))).inPort = s.inPort := rfl
@[simp] theorem State.complete_err_outPort (e : ErrCode) (info : Word) (s : State) : (s.complete (some (e, info))).outPort = s.outPort := rfl
@[simp] theorem State.complete_err_inDepth (e : ErrCode) (info : Word) (s : State) : (s.complete (some (e, info))).inDepth = s.inDepth := rfl
@[simp] theorem State.complete_err_outDepth (e : ErrCode) (info : Word) (s : State) : (s.complete (some (e, info))).outDepth = s.outDepth := rfl
@[simp] theorem State.complete_err_script (e : ErrCode) (info : Word) (s : State) : (s.complete (some (e, info))).script = s.script := rfl
@[simp] theorem State.complete_err_taken (e : ErrCode) (info : Word) (s : State) : (s.complete (some (e, info))).taken = s.taken := rfl
@[simp] theorem State.complete_err_busReads (e : ErrCode) (info : Word) (s : State) : (s.complete (some (e, info))).busReads = s.busReads := rfl
@[simp] theorem State.complete_err_pace (e : ErrCode) (info : Word) (s : State) : (s.complete (some (e, info))).pace = s.pace := rfl
@[simp] theorem State.complete_err_freeCtr (e : ErrCode) (info : Word) (s : State) : (s.complete (some (e, info))).freeCtr = s.freeCtr := rfl

/-! `State.raise`: what the epilogue's first part leaves alone (R318) -/

@[simp] theorem State.raise_ie (e : ErrCode) (info : Word) (a : Bool) (s : State) : (s.raise e info a).ie = s.ie := by
  unfold State.raise; (repeat' split) <;> rfl
@[simp] theorem State.raise_busy (e : ErrCode) (info : Word) (a : Bool) (s : State) : (s.raise e info a).busy = s.busy := by
  unfold State.raise; (repeat' split) <;> rfl
@[simp] theorem State.raise_done (e : ErrCode) (info : Word) (a : Bool) (s : State) : (s.raise e info a).done = s.done := by
  unfold State.raise; (repeat' split) <;> rfl
@[simp] theorem State.raise_err (e : ErrCode) (info : Word) (a : Bool) (s : State) : (s.raise e info a).err = s.err := by
  unfold State.raise; (repeat' split) <;> rfl
@[simp] theorem State.raise_rej (e : ErrCode) (info : Word) (a : Bool) (s : State) : (s.raise e info a).rej = s.rej := by
  unfold State.raise; (repeat' split) <;> rfl
@[simp] theorem State.raise_treeValid (e : ErrCode) (info : Word) (a : Bool) (s : State) : (s.raise e info a).treeValid = s.treeValid := by
  unfold State.raise; (repeat' split) <;> rfl
@[simp] theorem State.raise_codesValid (e : ErrCode) (info : Word) (a : Bool) (s : State) : (s.raise e info a).codesValid = s.codesValid := by
  unfold State.raise; (repeat' split) <;> rfl
@[simp] theorem State.raise_errCode (e : ErrCode) (info : Word) (a : Bool) (s : State) : (s.raise e info a).errCode = s.errCode := by
  unfold State.raise; (repeat' split) <;> rfl
@[simp] theorem State.raise_data (e : ErrCode) (info : Word) (a : Bool) (s : State) : (s.raise e info a).data = s.data := by
  unfold State.raise; (repeat' split) <;> rfl
@[simp] theorem State.raise_result (e : ErrCode) (info : Word) (a : Bool) (s : State) : (s.raise e info a).result = s.result := by
  unfold State.raise; (repeat' split) <;> rfl
@[simp] theorem State.raise_errInfo (e : ErrCode) (info : Word) (a : Bool) (s : State) : (s.raise e info a).errInfo = s.errInfo := by
  unfold State.raise; (repeat' split) <;> rfl
@[simp] theorem State.raise_bitCnt (e : ErrCode) (info : Word) (a : Bool) (s : State) : (s.raise e info a).bitCnt = s.bitCnt := by
  unfold State.raise; (repeat' split) <;> rfl
@[simp] theorem State.raise_symCnt (e : ErrCode) (info : Word) (a : Bool) (s : State) : (s.raise e info a).symCnt = s.symCnt := by
  unfold State.raise; (repeat' split) <;> rfl
@[simp] theorem State.raise_nleaf (e : ErrCode) (info : Word) (a : Bool) (s : State) : (s.raise e info a).nleaf = s.nleaf := by
  unfold State.raise; (repeat' split) <;> rfl
@[simp] theorem State.raise_nnode (e : ErrCode) (info : Word) (a : Bool) (s : State) : (s.raise e info a).nnode = s.nnode := by
  unfold State.raise; (repeat' split) <;> rfl
@[simp] theorem State.raise_root (e : ErrCode) (info : Word) (a : Bool) (s : State) : (s.raise e info a).root = s.root := by
  unfold State.raise; (repeat' split) <;> rfl
@[simp] theorem State.raise_freq (e : ErrCode) (info : Word) (a : Bool) (s : State) : (s.raise e info a).freq = s.freq := by
  unfold State.raise; (repeat' split) <;> rfl
@[simp] theorem State.raise_node (e : ErrCode) (info : Word) (a : Bool) (s : State) : (s.raise e info a).node = s.node := by
  unfold State.raise; (repeat' split) <;> rfl
@[simp] theorem State.raise_code (e : ErrCode) (info : Word) (a : Bool) (s : State) : (s.raise e info a).code = s.code := by
  unfold State.raise; (repeat' split) <;> rfl
@[simp] theorem State.raise_lcmd (e : ErrCode) (info : Word) (a : Bool) (s : State) : (s.raise e info a).lcmd = s.lcmd := by
  unfold State.raise; (repeat' split) <;> rfl
@[simp] theorem State.raise_ldata (e : ErrCode) (info : Word) (a : Bool) (s : State) : (s.raise e info a).ldata = s.ldata := by
  unfold State.raise; (repeat' split) <;> rfl
@[simp] theorem State.raise_segEnded (e : ErrCode) (info : Word) (a : Bool) (s : State) : (s.raise e info a).segEnded = s.segEnded := by
  unfold State.raise; (repeat' split) <;> rfl
@[simp] theorem State.raise_inPort (e : ErrCode) (info : Word) (a : Bool) (s : State) : (s.raise e info a).inPort = s.inPort := by
  unfold State.raise; (repeat' split) <;> rfl
@[simp] theorem State.raise_outPort (e : ErrCode) (info : Word) (a : Bool) (s : State) : (s.raise e info a).outPort = s.outPort := by
  unfold State.raise; (repeat' split) <;> rfl
@[simp] theorem State.raise_inDepth (e : ErrCode) (info : Word) (a : Bool) (s : State) : (s.raise e info a).inDepth = s.inDepth := by
  unfold State.raise; (repeat' split) <;> rfl
@[simp] theorem State.raise_outDepth (e : ErrCode) (info : Word) (a : Bool) (s : State) : (s.raise e info a).outDepth = s.outDepth := by
  unfold State.raise; (repeat' split) <;> rfl
@[simp] theorem State.raise_script (e : ErrCode) (info : Word) (a : Bool) (s : State) : (s.raise e info a).script = s.script := by
  unfold State.raise; (repeat' split) <;> rfl
@[simp] theorem State.raise_taken (e : ErrCode) (info : Word) (a : Bool) (s : State) : (s.raise e info a).taken = s.taken := by
  unfold State.raise; (repeat' split) <;> rfl
@[simp] theorem State.raise_busReads (e : ErrCode) (info : Word) (a : Bool) (s : State) : (s.raise e info a).busReads = s.busReads := by
  unfold State.raise; (repeat' split) <;> rfl
@[simp] theorem State.raise_pace (e : ErrCode) (info : Word) (a : Bool) (s : State) : (s.raise e info a).pace = s.pace := by
  unfold State.raise; (repeat' split) <;> rfl
@[simp] theorem State.raise_freeCtr (e : ErrCode) (info : Word) (a : Bool) (s : State) : (s.raise e info a).freeCtr = s.freeCtr := by
  unfold State.raise; (repeat' split) <;> rfl

/-! `State.doReset`: the reset values of R64, and what no reset changes (R352) -/

@[simp] theorem State.doReset_ie (s : State) : s.doReset.ie = State.reset.ie := rfl
@[simp] theorem State.doReset_busy (s : State) : s.doReset.busy = State.reset.busy := rfl
@[simp] theorem State.doReset_done (s : State) : s.doReset.done = State.reset.done := rfl
@[simp] theorem State.doReset_err (s : State) : s.doReset.err = State.reset.err := rfl
@[simp] theorem State.doReset_rej (s : State) : s.doReset.rej = State.reset.rej := rfl
@[simp] theorem State.doReset_treeValid (s : State) : s.doReset.treeValid = State.reset.treeValid := rfl
@[simp] theorem State.doReset_codesValid (s : State) : s.doReset.codesValid = State.reset.codesValid := rfl
@[simp] theorem State.doReset_errCode (s : State) : s.doReset.errCode = State.reset.errCode := rfl
@[simp] theorem State.doReset_data (s : State) : s.doReset.data = State.reset.data := rfl
@[simp] theorem State.doReset_result (s : State) : s.doReset.result = State.reset.result := rfl
@[simp] theorem State.doReset_errInfo (s : State) : s.doReset.errInfo = State.reset.errInfo := rfl
@[simp] theorem State.doReset_bitCnt (s : State) : s.doReset.bitCnt = State.reset.bitCnt := rfl
@[simp] theorem State.doReset_symCnt (s : State) : s.doReset.symCnt = State.reset.symCnt := rfl
@[simp] theorem State.doReset_nleaf (s : State) : s.doReset.nleaf = State.reset.nleaf := rfl
@[simp] theorem State.doReset_nnode (s : State) : s.doReset.nnode = State.reset.nnode := rfl
@[simp] theorem State.doReset_root (s : State) : s.doReset.root = State.reset.root := rfl
@[simp] theorem State.doReset_freq (s : State) : s.doReset.freq = State.reset.freq := rfl
@[simp] theorem State.doReset_node (s : State) : s.doReset.node = freeNodes (s.freeCtr + 1) := rfl
@[simp] theorem State.doReset_code (s : State) : s.doReset.code = freeCodes (s.freeCtr + 1) := rfl
@[simp] theorem State.doReset_bw (s : State) : s.doReset.bw = State.reset.bw := rfl
@[simp] theorem State.doReset_br (s : State) : s.doReset.br = State.reset.br := rfl
@[simp] theorem State.doReset_lcmd (s : State) : s.doReset.lcmd = State.reset.lcmd := rfl
@[simp] theorem State.doReset_ldata (s : State) : s.doReset.ldata = State.reset.ldata := rfl
@[simp] theorem State.doReset_segEnded (s : State) : s.doReset.segEnded = State.reset.segEnded := rfl
@[simp] theorem State.doReset_activity (s : State) : s.doReset.activity = State.reset.activity := rfl
@[simp] theorem State.doReset_pending (s : State) : s.doReset.pending = State.reset.pending := rfl
@[simp] theorem State.doReset_inPort (s : State) : s.doReset.inPort = s.inPort := rfl
@[simp] theorem State.doReset_outPort (s : State) : s.doReset.outPort = s.outPort := rfl
@[simp] theorem State.doReset_inDepth (s : State) : s.doReset.inDepth = s.inDepth := rfl
@[simp] theorem State.doReset_outDepth (s : State) : s.doReset.outDepth = s.outDepth := rfl
@[simp] theorem State.doReset_script (s : State) : s.doReset.script = s.script := rfl
@[simp] theorem State.doReset_taken (s : State) : s.doReset.taken = s.taken := rfl
@[simp] theorem State.doReset_busReads (s : State) : s.doReset.busReads = s.busReads := rfl
@[simp] theorem State.doReset_pace (s : State) : s.doReset.pace = s.pace := rfl
@[simp] theorem State.doReset_freeCtr (s : State) : s.doReset.freeCtr = s.freeCtr + 1 := rfl

end Sys2Proof.Machine
end

