-- ==== Sys2Proof/Laws/Moves.lean ====
section
/-! SUPPORT. What the core's moves do, said once: each move's cases, the measure that shows a run stops, and what a run
does from the points every command passes through (pending OutWrites, completion, the error epilogue). -/
namespace Sys2Proof.Machine

/-! One move. -/

theorem inRead_eq_some {s t : State} {act : InToken → State → State} :
    inRead s act = some t ↔ ∃ tok rest, s.inPort = tok :: rest ∧
      t = act tok { s with inPort := rest, segEnded := s.segEnded || tok.terminates } := by
  unfold inRead
  cases s.inPort with
  | nil => simp
  | cons tok rest => simp [eq_comm]

theorem inRead_eq_none {s : State} {act : InToken → State → State} : inRead s act = none ↔ s.inPort = [] := by
  unfold inRead
  cases s.inPort <;> simp

theorem inRead_cons {s : State} {act : InToken → State → State} {tok : InToken} {rest : List InToken}
    (h : s.inPort = tok :: rest) :
    inRead s act = some (act tok { s with inPort := rest, segEnded := s.segEnded || tok.terminates }) := by
  simp [inRead, h]

theorem outWrite_eq_some {s t : State} {tok : OutToken} {rest : List OutToken} :
    outWrite tok rest s = some t ↔
      s.outPort.length < s.outDepth ∧ t = { s with outPort := s.outPort ++ [tok], pending := rest } := by
  unfold outWrite
  split <;> simp_all [eq_comm]

/-- The loops that take their next input token: `Turn s use` says that the running command of s is at the head of such a
loop, and `use` is what it does with the token. -/
inductive Turn (s : State) : (InToken → State → State) → Prop where
  | getbit (ha : s.activity = .getbit) : Turn s getbitToken
  | count (ha : s.activity = .count) : Turn s countToken
  | hdrLoad (h : List Byte) (sum : Nat) (ha : s.activity = .hdrLoad h sum) : Turn s (hdrLoadToken h sum)
  | encode (ha : s.activity = .encode) : Turn s encodeToken
  | decode (cur : NodeIdx) (c : Word) (l r : NodeIdx) (ha : s.activity = .decode cur)
      (hn : s.node[cur] = .internal c l r) (hb : s.br.n.val = 0) : Turn s (decodeToken l r)
  | decodeEnd (ha : s.activity = .decodeEnd) : Turn s decodeEndToken
  | errDrain (e : ErrCode) (info : Word) (a : Bool) (ha : s.activity = .errDrain e info a) :
      Turn s (drainToken e info a)

/-- Everything a move of the core can be: an OutWrite, a completion, a turn of DECODE that needs no token, or a turn of a
loop on the next input token. -/
inductive Move (s : State) : State → Prop where
  | emit (tok : OutToken) (rest : List OutToken) (hp : s.pending = tok :: rest)
      (hroom : s.outPort.length < s.outDepth) : Move s { s with outPort := s.outPort ++ [tok], pending := rest }
  | complete (v : Option (ErrCode × Word)) (hp : s.pending = []) (ha : s.activity = .finish v) : Move s (s.complete v)
  | leaf (cur : NodeIdx) (sym : Symbol) (c : Word) (hp : s.pending = []) (ha : s.activity = .decode cur)
      (hn : s.node[cur] = .leaf sym c) : Move s (decodeLeaf sym s)
  | bit (cur : NodeIdx) (c : Word) (l r : NodeIdx) (hp : s.pending = []) (ha : s.activity = .decode cur)
      (hn : s.node[cur] = .internal c l r) (hb : 0 < s.br.n.val) : Move s (decodeBit l r (s.br.readBit 0) s)
  | token (tok : InToken) (rest : List InToken) (act : InToken → State → State) (hp : s.pending = []) (ht : Turn s act)
      (hin : s.inPort = tok :: rest) :
      Move s (act tok { s with inPort := rest, segEnded := s.segEnded || tok.terminates })

theorem inRead_move {s t : State} {act : InToken → State → State} (hp : s.pending = []) (ht : Turn s act)
    (h : inRead s act = some t) : Move s t := by
  obtain ⟨tok, rest, h1, rfl⟩ := inRead_eq_some.mp h
  exact .token tok rest act hp ht h1

theorem coreMove_move {s t : State} (h : coreMove s = some t) : Move s t := by
  unfold coreMove at h
  cases hp : s.pending with
  | cons tok rest =>
    simp only [hp] at h
    obtain ⟨h1, rfl⟩ := outWrite_eq_some.mp h
    exact .emit tok rest hp h1
  | nil =>
    simp only [hp] at h
    cases ha : s.activity with
    | idle => simp [ha] at h
    | finish v => simp only [ha, Option.some.injEq] at h; exact h ▸ .complete v hp ha
    | getbit => simp only [ha] at h; exact inRead_move hp (.getbit ha) h
    | count => simp only [ha] at h; exact inRead_move hp (.count ha) h
    | hdrLoad b sum => simp only [ha] at h; exact inRead_move hp (.hdrLoad b sum ha) h
    | encode => simp only [ha] at h; exact inRead_move hp (.encode ha) h
    | decodeEnd => simp only [ha] at h; exact inRead_move hp (.decodeEnd ha) h
    | errDrain e info a => simp only [ha] at h; exact inRead_move hp (.errDrain e info a ha) h
    | decode cur =>
      simp only [ha, decodeMove] at h
      cases hn : s.node[cur] with
      | leaf sym c => simp only [hn, Option.some.injEq] at h; exact h ▸ .leaf cur sym c hp ha hn
      | internal c l r =>
        simp only [hn] at h
        split at h
        · exact inRead_move hp (.decode cur c l r ha hn ‹_›) h
        · simp only [Option.some.injEq] at h
          exact h ▸ .bit cur c l r hp ha hn (by omega)

/-- The converse, for a loop whose next token is there. -/
theorem coreMove_token {s : State} {tok : InToken} {rest : List InToken} {act : InToken → State → State}
    (hp : s.pending = []) (ht : Turn s act) (hin : s.inPort = tok :: rest) :
    coreMove s = some (act tok { s with inPort := rest, segEnded := s.segEnded || tok.terminates }) := by
  rw [← inRead_cons hin]
  unfold coreMove
  cases ht with
  | decode cur c l r ha hn hb => simp [hp, ha, decodeMove, hn, hb]
  | _ => simp_all

/-- A loop whose next token is not there waits. -/
theorem coreMove_wait {s : State} {act : InToken → State → State} (hp : s.pending = []) (ht : Turn s act)
    (hin : s.inPort = []) : coreMove s = none := by
  have h : inRead s act = none := inRead_eq_none.mpr hin
  unfold coreMove
  cases ht with
  | decode cur c l r ha hn hb => simpa [hp, ha, decodeMove, hn, hb] using h
  | _ => simp_all

/-- Why the core cannot move: no command runs, or an OutWrite meets a full port, or an InRead an empty one (R81, R82). -/
theorem coreMove_eq_none {s : State} (h : coreMove s = none) :
    (s.pending ≠ [] ∧ s.outDepth ≤ s.outPort.length) ∨
    (s.pending = [] ∧ s.activity = .idle) ∨ (s.pending = [] ∧ s.activity ≠ .idle ∧ s.inPort = []) := by
  unfold coreMove at h
  cases hp : s.pending with
  | cons tok rest =>
    simp only [hp, outWrite] at h
    split at h
    · simp at h
    · exact .inl ⟨by simp, by omega⟩
  | nil =>
    simp only [hp] at h
    cases ha : s.activity with
    | idle => exact .inr (.inl ⟨rfl, rfl⟩)
    | finish v => simp [ha] at h
    | decode cur =>
      simp only [ha, decodeMove] at h
      split at h
      · simp at h
      · split at h
        · exact .inr (.inr ⟨rfl, by simp, inRead_eq_none.mp h⟩)
        · simp at h
    | getbit => simp only [ha] at h; exact .inr (.inr ⟨rfl, by simp, inRead_eq_none.mp h⟩)
    | count => simp only [ha] at h; exact .inr (.inr ⟨rfl, by simp, inRead_eq_none.mp h⟩)
    | hdrLoad b sum => simp only [ha] at h; exact .inr (.inr ⟨rfl, by simp, inRead_eq_none.mp h⟩)
    | encode => simp only [ha] at h; exact .inr (.inr ⟨rfl, by simp, inRead_eq_none.mp h⟩)
    | decodeEnd => simp only [ha] at h; exact .inr (.inr ⟨rfl, by simp, inRead_eq_none.mp h⟩)
    | errDrain e info a => simp only [ha] at h; exact .inr (.inr ⟨rfl, by simp, inRead_eq_none.mp h⟩)

/-! Runs. -/

theorem coreRun_stopped {s : State} (h : coreMove s = none) (n : Nat) : coreRun n s = s := by
  cases n <;> simp [coreRun, h]

theorem coreRun_move {s t : State} (h : coreMove s = some t) (n : Nat) : coreRun (n + 1) s = coreRun n t := by
  simp [coreRun, h]

theorem coreRun_add (m n : Nat) (s : State) : coreRun (m + n) s = coreRun n (coreRun m s) := by
  induction m generalizing s with
  | zero => simp [coreRun]
  | succ m ih =>
    cases h : coreMove s with
    | none => rw [coreRun_stopped h, coreRun_stopped h, coreRun_stopped h]
    | some t => rw [Nat.add_right_comm, coreRun_move h, coreRun_move h, ih]

/-- What every move keeps, every run keeps. -/
theorem coreRun_keeps {P : State → Prop} (hP : ∀ s t, P s → coreMove s = some t → P t) (n : Nat) (s : State) (h : P s) :
    P (coreRun n s) := by
  induction n generalizing s with
  | zero => exact h
  | succ n ih =>
    cases hm : coreMove s with
    | none => rwa [coreRun_stopped hm]
    | some t => rw [coreRun_move hm]; exact ih t (hP s t h hm)

/-- How far the running command is from its end when the ports let it move on. -/
def stage : Activity → Nat
  | .idle => 0
  | .finish _ => 1
  | .decode _ => 3
  | _ => 2

/-- A bound on the moves left that every move lowers. -/
def movesLeft (s : State) : Nat :=
  8 * s.inPort.length + s.br.n.val + 2 * (s.outDepth - s.outPort.length) + (if s.pending = [] then 1 else 0)
    + stage s.activity

theorem movesLeft_le_moveBound (s : State) : movesLeft s ≤ moveBound s := by
  unfold movesLeft moveBound
  have : stage s.activity ≤ 3 := by cases s.activity <;> simp [stage]
  split <;> omega

theorem abandon_movesLeft (e : ErrCode) (info : Word) (a : Bool) (s : State) :
    movesLeft (s.abandon e info a) ≤ 8 * s.inPort.length + 2 * (s.outDepth - s.outPort.length) + 2 := by
  simp only [movesLeft, State.abandon_inPort, State.abandon_outPort, State.abandon_outDepth, State.abandon_br,
    State.abandon_activity, State.abandon_pending, stage, BitReader.empty]
  cases a <;> simp

theorem raise_movesLeft (e : ErrCode) (info : Word) (a : Bool) (s : State) :
    movesLeft (s.raise e info a) ≤ 8 * s.inPort.length + s.br.n.val + 2 * (s.outDepth - s.outPort.length) + 3 := by
  unfold State.raise
  split
  · split
    · have := abandon_movesLeft e info a s; omega
    · simp [movesLeft, stage]
  · simp [movesLeft, stage]

/-- A byte written through the writer leaves a token to emit. -/
theorem writeByte_pending (bw : BitWriter) (v : Byte) : (bw.writeAll (lowBits v 8)).2 ≠ [] := by
  obtain ⟨bs, h, hl, -, -⟩ := writeAll_spec bw (lowBits v 8)
  rw [h]
  simp only [length_lowBits] at hl
  have : bs ≠ [] := by intro hb; simp [hb] at hl
  simpa [bytesOut] using this

/-- Every move lowers the bound. -/
theorem coreMove_movesLeft {s t : State} (h : coreMove s = some t) : movesLeft t < movesLeft s := by
  have hn : s.br.n.val < 8 := s.br.n.isLt
  cases coreMove_move h with
  | emit tok rest hp hroom =>
    simp only [movesLeft, List.length_append, List.length_singleton, hp, List.cons_ne_nil, if_false]
    split <;> omega
  | complete v hp ha =>
    cases v with
    | none => simp [movesLeft, ha, hp, stage]
    | some v => obtain ⟨e, info⟩ := v; simp [movesLeft, ha, hp, stage]
  | leaf cur sym c hp ha hn' =>
    unfold decodeLeaf
    split
    · simp [movesLeft, ha, hp, stage, BitReader.empty]
    · simp [movesLeft, ha, hp, stage, writeByte_pending]
  | bit cur c l r hp ha hn' h0 =>
    have hb := (readBit_left s.br 0 h0).2
    simp only [decodeBit, movesLeft, State.countBits_inPort, State.countBits_br, State.countBits_outDepth,
      State.countBits_outPort, State.countBits_pending, ha, hp, stage]
    omega
  | token tok rest act hp ht hin =>
    -- a token is consumed: 8 fewer, and at most 7 bits more
    have key : ∀ u : State, movesLeft u ≤ 8 * rest.length + 7 + 2 * (s.outDepth - s.outPort.length) + 3 →
        stage s.activity ≥ 2 → movesLeft u < movesLeft s := by
      intro u hu hs
      simp only [movesLeft, hin, hp, List.length_cons, if_true]
      simp only [movesLeft] at hu
      omega
    have kr : ∀ (e : ErrCode) (info : Word) (a : Bool) (u : State), u.inPort = rest → u.outPort = s.outPort →
        u.outDepth = s.outDepth → stage s.activity ≥ 2 → movesLeft (u.raise e info a) < movesLeft s := by
      intro e info a u h1 h2 h3 hs
      refine key _ ?_ hs
      have := raise_movesLeft e info a u
      rw [h1, h2, h3] at this
      have := u.br.n.isLt
      omega
    have plain : ∀ u : State, u.inPort = rest → u.outPort = s.outPort → u.outDepth = s.outDepth →
        stage u.activity ≤ 2 → stage s.activity ≥ 2 → movesLeft u < movesLeft s := by
      intro u h1 h2 h3 h4 hs
      refine key _ ?_ hs
      have := u.br.n.isLt
      simp only [movesLeft, h1, h2, h3]
      split <;> omega
    cases ht with
    | getbit ha =>
      cases tok with
      | byte b => exact plain _ rfl rfl rfl (by simp [getbitToken, gotBit, stage]) (by simp [ha, stage])
      | eoi => exact plain _ rfl rfl rfl (by simp [getbitToken, stage]) (by simp [ha, stage])
      | ioerr => exact kr _ _ _ _ rfl rfl rfl (by simp [ha, stage])
    | count ha =>
      cases tok with
      | byte b =>
        simp only [countToken]
        split
        · exact kr _ _ _ _ rfl rfl rfl (by simp [ha, stage])
        · exact plain _ rfl rfl rfl (by simp [stage]) (by simp [ha, stage])
      | eoi => exact plain _ rfl rfl rfl (by simp [countToken, stage]) (by simp [ha, stage])
      | ioerr => exact kr _ _ _ _ rfl rfl rfl (by simp [ha, stage])
    | hdrLoad b sum ha =>
      cases tok with
      | byte b =>
        simp only [hdrLoadToken]
        split
        · exact kr _ _ _ _ rfl rfl rfl (by simp [ha, stage])
        · exact plain _ rfl rfl rfl (by simp [stage]) (by simp [ha, stage])
        · split
          · exact plain _ rfl rfl rfl (by simp [stage]) (by simp [ha, stage])
          · exact plain _ rfl rfl rfl (by simp [stage]) (by simp [ha, stage])
      | eoi => exact kr _ _ _ _ rfl rfl rfl (by simp [ha, stage])
      | ioerr => exact kr _ _ _ _ rfl rfl rfl (by simp [ha, stage])
    | encode ha =>
      cases tok with
      | byte b =>
        simp only [encodeToken]
        split
        · exact kr _ _ _ _ rfl rfl rfl (by simp [ha, stage])
        · exact plain _ rfl rfl rfl (by simp [stage]) (by simp [ha, stage])
      | eoi => exact plain _ rfl rfl rfl (by simp [encodeToken, encodeEnd, stage]) (by simp [ha, stage])
      | ioerr => exact kr _ _ _ _ rfl rfl rfl (by simp [ha, stage])
    | decode cur c l r ha hn' hb =>
      cases tok with
      | byte b =>
        simp only [decodeToken, decodeBit, movesLeft, State.countBits_inPort, State.countBits_br,
          State.countBits_outDepth, State.countBits_outPort, State.countBits_pending, ha, hp, hin, stage,
          List.length_cons]
        have := (s.br.readBit b).2.n.isLt
        omega
      | eoi => exact kr _ _ _ _ rfl rfl rfl (by simp [ha, stage])
      | ioerr => exact kr _ _ _ _ rfl rfl rfl (by simp [ha, stage])
    | decodeEnd ha =>
      cases tok with
      | byte b => exact plain _ rfl rfl rfl (by simp [decodeEndToken, ha, stage]) (by simp [ha, stage])
      | eoi => exact plain _ rfl rfl rfl (by simp [decodeEndToken, stage]) (by simp [ha, stage])
      | ioerr => exact kr _ _ _ _ rfl rfl rfl (by simp [ha, stage])
    | errDrain e info a ha =>
      unfold drainToken
      split
      · exact plain _ rfl rfl rfl (by simp [stage]) (by simp [ha, stage])
      · exact plain _ rfl rfl rfl (by simp [ha, stage]) (by simp [ha, stage])

theorem coreRun_reaches_stop (n : Nat) (s : State) (h : movesLeft s ≤ n) : coreMove (coreRun n s) = none := by
  induction n generalizing s with
  | zero =>
    cases hm : coreMove s with
    | none => exact hm
    | some t => have := coreMove_movesLeft hm; omega
  | succ n ih =>
    cases hm : coreMove s with
    | none => rwa [coreRun_stopped hm]
    | some t => rw [coreRun_move hm]; exact ih t (by have := coreMove_movesLeft hm; omega)

/-- The core that runs on stops: it is idle or blocked at a port (R8). -/
theorem runOn_stopped (s : State) : coreMove (runOn s) = none :=
  coreRun_reaches_stop _ s (movesLeft_le_moveBound s)

/-- Two runs that both stop end in the same state. -/
theorem coreRun_stop_unique {s : State} {m n : Nat} (hm : coreMove (coreRun m s) = none)
    (hn : coreMove (coreRun n s) = none) : coreRun m s = coreRun n s := by
  rcases Nat.le_total m n with h | h
  · obtain ⟨k, rfl⟩ := Nat.exists_eq_add_of_le h; rw [coreRun_add, coreRun_stopped hm]
  · obtain ⟨k, rfl⟩ := Nat.exists_eq_add_of_le h; rw [coreRun_add, coreRun_stopped hn]

/-- A run goes through its first move. -/
theorem runOn_move {s t : State} (h : coreMove s = some t) : runOn s = runOn t := by
  have h1 := runOn_stopped s
  have h2 := runOn_stopped t
  have h3 : coreRun (moveBound t + 1) s = runOn t := coreRun_move h _
  rw [← h3]; rw [← h3] at h2
  exact coreRun_stop_unique h1 h2

theorem runOn_of_stopped {s : State} (h : coreMove s = none) : runOn s = s := coreRun_stopped h _

@[simp] theorem launch_eager {s : State} (h : s.pace = none) : launch s = runOn s := by simp [launch, h]

/-! The points every command passes through. -/

/-- Pending OutWrites that the port has room for are performed in order (R82). -/
theorem runOn_emit (out : List OutToken) (s : State) (hp : s.pending = out)
    (hroom : s.outPort.length + out.length ≤ s.outDepth) :
    runOn s = runOn { s with pending := [], outPort := s.outPort ++ out } := by
  induction out generalizing s with
  | nil => rw [List.append_nil, ← hp]
  | cons tok rest ih =>
    have hm : coreMove s = some { s with outPort := s.outPort ++ [tok], pending := rest } := by
      unfold coreMove
      rw [hp]
      exact if_pos (by simp at hroom; omega)
    rw [runOn_move hm, ih _ rfl (by simp at hroom ⊢; omega)]
    simp

/-- The completion of a command (R35). -/
theorem runOn_finish (v : Option (ErrCode × Word)) (s : State) (hp : s.pending = []) (ha : s.activity = .finish v) :
    runOn s = s.complete v := by
  have hm : coreMove s = some (s.complete v) := by
    unfold coreMove
    rw [hp, ha]
  rw [runOn_move hm]
  apply runOn_of_stopped
  have h1 : (s.complete v).pending = [] := by cases v <;> exact hp
  have h2 : (s.complete v).activity = .idle := by cases v <;> rfl
  simp [coreMove, h1, h2]

/-- A command whose steps are done emits what is left, if the port has room, and completes with success. -/
theorem runOn_succeed (out : List OutToken) (s : State) (hroom : s.outPort.length + out.length ≤ s.outDepth) :
    runOn (s.succeed out) = { s.finished with outPort := s.outPort ++ out } := by
  exact (runOn_emit out (s.succeed out) rfl hroom).trans
    (runOn_finish none { s.succeed out with pending := [], outPort := s.outPort ++ out } rfl rfl)

/-- An error found before the stream phase changes only what the epilogue records (R317, R318). -/
theorem runOn_raise (e : ErrCode) (info : Word) (a : Bool) (s : State) (he : e.stream = false) :
    runOn (s.raise e info a) = s.failed e info := by
  have h : s.raise e info a = { s with pending := [], activity := .finish (some (e, info)) } := by
    simp [State.raise, he]
  rw [h]
  exact runOn_finish (some (e, info)) { s with pending := [], activity := .finish (some (e, info)) } rfl rfl

/-- The end of the epilogue of a stream-phase error, the port having room for ABT (R318). -/
theorem runOn_abandon (e : ErrCode) (info : Word) (a : Bool) (s : State)
    (hroom : a = true → s.outPort.length + 1 ≤ s.outDepth) :
    runOn (s.abandon e info a) = { s with
      br := BitReader.empty, bw := if a then BitWriter.empty else s.bw
      outPort := if a then s.outPort ++ [OutToken.abt] else s.outPort }.failed e info := by
  cases a with
  | false => exact runOn_finish (some (e, info)) (s.abandon e info false) rfl rfl
  | true =>
    exact (runOn_emit [OutToken.abt] (s.abandon e info true) rfl (hroom rfl)).trans
      (runOn_finish (some (e, info))
        { s.abandon e info true with pending := [], outPort := s.outPort ++ [OutToken.abt] } rfl rfl)

/-- The epilogue's drain discards the rest of the segment through its terminator (R318). -/
theorem runOn_drain (e : ErrCode) (info : Word) (a : Bool) (bs : List Byte) (tok : InToken) (rest : List InToken)
    (s : State) (hp : s.pending = []) (ha : s.activity = .errDrain e info a) (htok : tok.terminates = true)
    (hin : s.inPort = bytesIn bs ++ tok :: rest) :
    runOn s = runOn ({ s with inPort := rest, segEnded := true }.abandon e info a) := by
  induction bs generalizing s with
  | nil =>
    rw [runOn_move (coreMove_token hp (.errDrain e info a ha) hin)]
    simp [drainToken, htok]
  | cons b bs ih =>
    have h := ih { s with inPort := bytesIn bs ++ tok :: rest, segEnded := s.segEnded || false } hp ha rfl
    exact (runOn_move (coreMove_token hp (.errDrain e info a ha) hin)).trans h

end Sys2Proof.Machine
end

