-- ==== Sys2Proof/Laws/Exec.lean ====
section
/-! SUPPORT. Every meaning, said once: it starts its command and lets the core run. -/
namespace Sys2Proof.Machine

/-- The state from which the core runs on, for each command. -/
def start (i : Instr) (s : State) : State :=
  match i with
  | .nop => s.succeed []
  | .putbits n => if n.toNat ≤ 32 then startPutbits n s else s.raise .illegal s.lcmd false
  | .flush => startFlush s
  | .getbit => startGetbit s
  | .count => startCount s
  | .freqRd idx => startFreqRd idx s
  | .freqWr idx => startFreqWr idx s
  | .hdrEmit => startHdrEmit s
  | .hdrLoad => startHdrLoad s
  | .build => startBuild s
  | .nodeRd idx sel => if sel.toNat ≤ 1 then startNodeRd idx sel s else s.raise .illegal s.lcmd false
  | .gencodes => startGencodes s
  | .codeRd idx sel => if sel.toNat ≤ 8 then startCodeRd idx sel s else s.raise .illegal s.lcmd false
  | .encode => startEncode s
  | .decode => startDecode s

/-- Every command's meaning is a next state: the core's run from its start (R8). -/
theorem exec_eq (i : Instr) (s : State) : exec i s = .next (launch (start i s)) := by
  cases i <;> rfl

theorem exec_eq_next {i : Instr} {s t : State} : exec i s = .next t ↔ t = launch (start i s) := by
  rw [exec_eq]
  constructor
  · intro h; injection h with h; exact h.symm
  · rintro rfl; rfl

theorem raise_activity (e : ErrCode) (info : Word) (a : Bool) (s : State) : (s.raise e info a).activity ≠ .idle := by
  unfold State.raise
  split
  · split <;> simp
  · simp

/-- A started command is running (R31). -/
theorem start_activity (i : Instr) (s : State) : (start i s).activity ≠ .idle := by
  cases i <;> simp only [start, startPutbits, startFlush, startGetbit, startCount, startFreqRd, startFreqWr,
    startHdrEmit, startHdrLoad, startBuild, startNodeRd, startGencodes, startCodeRd, startEncode, startDecode, gotBit]
  all_goals (repeat' split) <;> simp [raise_activity]

/-- However the host paces it, what every move keeps and a start brings about holds after the command's step. -/
theorem exec_keeps {P : State → Prop} (hP : ∀ s t, P s → coreMove s = some t → P t) {i : Instr} {s t : State}
    (h : exec i s = .next t) (hs : P (start i s)) : P t := by
  rw [exec_eq_next.mp h]
  unfold launch runOn
  split <;> exact coreRun_keeps hP _ _ hs

/-! The commands that only write: the writer after them, and what they emit. -/

theorem startPutbits_eq (n : BitVec 6) (s : State) :
    startPutbits n s = { s with bw := (s.bw.writeAll (lowBits s.ldata n.toNat)).1 }.succeed
      (s.bw.writeAll (lowBits s.ldata n.toNat)).2 := rfl

theorem startFlush_eq (s : State) : startFlush s = { s with bw := s.bw.close.1 }.succeed s.bw.close.2 := rfl

theorem startHdrEmit_eq (s : State) :
    startHdrEmit s = { s with bw := (s.bw.writeAll ((headerBytes s.freq).flatMap (lowBits · 8))).1 }.succeed
      (s.bw.writeAll ((headerBytes s.freq).flatMap (lowBits · 8))).2 := by
  unfold startHdrEmit
  generalize s.bw.writeAll ((headerBytes s.freq).flatMap (lowBits · 8)) = r
  cases r
  rfl

end Sys2Proof.Machine
end

