-- ==== Sys2Proof/Laws/Steps.lean ====
section
/-! SUPPORT. Everything one step can do, said once (00_scope.md R7, R9; 20_memory.md R94, R99). -/
namespace Sys2Proof.Machine

/-- What a host action does to a state whose script has moved past it, when the action goes through. -/
inductive HostEffect (s : State) : State → Prop where
  | ctrl (v : Word) : HostEffect s (writeCtrl v s)
  | status (v : Word) : HostEffect s (writeStatus v s)
  | rejected (h : s.busy = true ∨ s.err = true) : HostEffect s { s with rej := true }
  | command (i : Instr) (w : Word) (hb : s.busy = false) (he : s.err = false) (hd : decode w = .ok i) :
      HostEffect s (launch (start i (s.accept w)))
  | illegal (w : Word) (e : Illegal) (hb : s.busy = false) (he : s.err = false) (hd : decode w = .error e) :
      HostEffect s (launch ((s.accept w).raise .illegal w false))
  | data (v : Word) : HostEffect s { s with data := v }
  | ignored : HostEffect s s
  | read (k : Nat) : HostEffect s (readReg k s)
  | offer (t : InToken) (h : s.inPort.length < s.inDepth) : HostEffect s { s with inPort := s.inPort ++ [t] }
  | take (t : OutToken) (port : List OutToken) (h : s.outPort = t :: port) :
      HostEffect s { s with outPort := port, taken := s.taken ++ [t] }
  | waited (h : s.busy = false) : HostEffect s s
  | reset : HostEffect s s.doReset
  | coreTurn (n : Nat) : HostEffect s (coreRun n s)
  | pace (p : Option Nat) : HostEffect s { s with pace := p }

theorem writeReg_effect {k : Nat} {v : Word} {s t : State} (h : writeReg k v s = .next t) : HostEffect s t := by
  unfold writeReg at h
  split at h
  · injection h with h; exact h ▸ .ctrl v
  · injection h with h; exact h ▸ .status v
  · unfold writeCmd issue at h
    split at h
    · injection h with h
      exact h ▸ .rejected (by simp_all)
    · rename_i hbe
      simp only [Bool.or_eq_true, not_or, Bool.not_eq_true] at hbe
      split at h
      · rename_i i hd
        rw [exec_eq] at h
        injection h with h
        exact h ▸ .command i v hbe.1 hbe.2 hd
      · rename_i e hd
        injection h with h
        exact h ▸ .illegal v e hbe.1 hbe.2 hd
  · injection h with h; exact h ▸ .data v
  · injection h with h; exact h ▸ .ignored

theorem coreInstead_next {s t : State} (h : coreInstead s = .next t) : (coreMove s).isSome = true ∧ t = runOn s := by
  unfold coreInstead at h
  split at h
  · injection h with h; exact ⟨‹_›, h.symm⟩
  · split at h <;> simp at h

/-- One step: the core runs because the host has nothing to do or must wait, or the host's next action goes through. -/
theorem step_cases {s t : State} (h : step s = .next t) :
    ((coreMove s).isSome = true ∧ t = runOn s) ∨
    ∃ a rest, s.script = a :: rest ∧ HostEffect { s with script := rest } t := by
  unfold step at h
  cases hs : s.script with
  | nil =>
    simp only [hs, coreAlone] at h
    split at h
    · injection h with h; exact .inl ⟨‹_›, h.symm⟩
    · repeat' split at h
      all_goals simp at h
  | cons a rest =>
    simp only [hs] at h
    have go : HostEffect { s with script := rest } t → ((coreMove s).isSome = true ∧ t = runOn s) ∨
        ∃ a' rest', a :: rest = a' :: rest' ∧ HostEffect { s with script := rest' } t :=
      fun e => .inr ⟨a, rest, rfl, e⟩
    unfold hostAct at h
    cases a with
    | write off bits v =>
      simp only at h
      split at h
      · simp at h
      · exact go (writeReg_effect h)
    | read off bits =>
      simp only at h
      split at h
      · simp at h
      · injection h with h; exact go (h ▸ .read _)
    | offer tok =>
      simp only at h
      split at h
      · injection h with h; exact go (h ▸ .offer tok ‹_›)
      · exact .inl (coreInstead_next h)
    | take =>
      simp only at h
      split at h
      · exact .inl (coreInstead_next h)
      · rename_i tok port hp
        injection h with h; exact go (h ▸ .take tok port hp)
    | wait =>
      simp only at h
      split at h
      · exact .inl (coreInstead_next h)
      · injection h with h; exact go (h ▸ .waited (by simp_all))
    | resetPin => injection h with h; exact go (h ▸ .reset)
    | coreTurn n => injection h with h; exact go (h ▸ .coreTurn n)
    | pace p => injection h with h; exact go (h ▸ .pace p)

end Sys2Proof.Machine
end

