-- ==== Sys2Proof/Laws/Ports.lean ====
section
/-! SUPPORT. A move of the core does not depend on the ports' timing (00_scope.md R8, R11): taking the timing out of a state
(`State.atOnce`) goes through every move. -/
namespace Sys2Proof.Machine

/-- What R9 asks of a run that has ended. -/
theorem runEnded_iff (s : State) : s.runEnded = true ↔ s.busy = false ∧ s.script = [] ∧ s.outPort = [] := by
  simp [State.runEnded, and_assoc]

/-- When the host has no action left, the step's outcomes. -/
theorem coreAlone_stops (s : State) (h : coreMove s = none) (hb : s.busy = false) :
    coreAlone s = if s.runEnded then .fault .runEnded else .fault .outputUntaken := by
  simp [coreAlone, h, hb]

variable (d : Nat) (s : State)

@[simp] theorem State.atOnce_ie : (s.atOnce d).ie = s.ie := rfl
@[simp] theorem State.atOnce_br : (s.atOnce d).br = s.br := rfl
@[simp] theorem State.atOnce_bw : (s.atOnce d).bw = s.bw := rfl
@[simp] theorem State.atOnce_code : (s.atOnce d).code = s.code := rfl
@[simp] theorem State.atOnce_node : (s.atOnce d).node = s.node := rfl
@[simp] theorem State.atOnce_freq : (s.atOnce d).freq = s.freq := rfl
@[simp] theorem State.atOnce_symCnt : (s.atOnce d).symCnt = s.symCnt := rfl
@[simp] theorem State.atOnce_segEnded : (s.atOnce d).segEnded = s.segEnded := rfl
@[simp] theorem State.atOnce_root : (s.atOnce d).root = s.root := rfl
@[simp] theorem State.atOnce_activity : (s.atOnce d).activity = s.activity := rfl
@[simp] theorem State.atOnce_pending : (s.atOnce d).pending = s.pending := rfl

theorem raise_atOnce (e : ErrCode) (info : Word) (a : Bool) : (s.raise e info a).atOnce d = (s.atOnce d).raise e info a := by
  unfold State.raise
  rw [State.atOnce_segEnded]
  split
  · split <;> rfl
  · rfl

theorem complete_atOnce (v : Option (ErrCode × Word)) : (s.complete v).atOnce d = (s.atOnce d).complete v := by
  cases v <;> rfl

theorem setFreq_atOnce (k : Nat) (v : Word) : (s.setFreq k v).atOnce d = (s.atOnce d).setFreq k v := rfl

theorem succeed_atOnce (out : List OutToken) : (s.succeed out).atOnce d = (s.atOnce d).succeed out := rfl

theorem decodeLeaf_atOnce (sym : Symbol) : (decodeLeaf sym s).atOnce d = decodeLeaf sym (s.atOnce d) := by
  unfold decodeLeaf
  rw [State.atOnce_bw]
  generalize s.bw.writeAll _ = r
  cases r
  split <;> rfl

theorem clearFreq_atOnce : s.clearFreq.atOnce d = (s.atOnce d).clearFreq := rfl

theorem setBr_atOnce (br : BitReader) : ({ s with br := br } : State).atOnce d = { s.atOnce d with br := br } := rfl

theorem setFreqBr_atOnce (k : Nat) (v : Word) (br : BitReader) :
    (({ s with br := br } : State).setFreq k v).atOnce d = ({ s.atOnce d with br := br } : State).setFreq k v := by
  rw [setFreq_atOnce, setBr_atOnce]


theorem countStep_atOnce (k : Nat) (v : Word) (br : BitReader) :
    (({ (({ s with br := br } : State).setFreq k v).countSymbol with activity := .count }) : State).atOnce d =
    { (({ s.atOnce d with br := br } : State).setFreq k v).countSymbol with activity := .count } := by
  rw [← setFreqBr_atOnce]
  generalize (({ s with br := br } : State).setFreq k v) = u
  rfl
theorem countToken_atOnce (tok : InToken) : (countToken tok s).atOnce d = countToken tok (s.atOnce d) := by
  cases tok with
  | byte b =>
    unfold countToken
    rw [State.atOnce_br, State.atOnce_symCnt, State.atOnce_freq]
    dsimp only
    by_cases hc : s.symCnt.toNat = Config.maxBytes
    · rw [if_pos hc, if_pos hc, raise_atOnce, clearFreq_atOnce, setBr_atOnce]; rfl
    · rw [if_neg hc, if_neg hc]
      exact countStep_atOnce ..
  | eoi => exact congrArg (State.succeed []) (setFreqBr_atOnce d s 256 1 s.br.discarded)
  | ioerr => exact raise_atOnce ..

theorem clearFreqBr_atOnce (br : BitReader) :
    (({ s with br := br } : State).clearFreq).atOnce d = ({ s.atOnce d with br := br } : State).clearFreq := by
  rw [clearFreq_atOnce, setBr_atOnce]

theorem hdrLoadToken_atOnce (h : List Byte) (sum : Nat) (tok : InToken) :
    (hdrLoadToken h sum tok s).atOnce d = hdrLoadToken h sum tok (s.atOnce d) := by
  cases tok with
  | byte b =>
    unfold hdrLoadToken
    rw [State.atOnce_br]
    dsimp only
    cases headerVerdict h.length ((s.br.readGroup8 b).1 :: h) sum with
    | bad e info =>
      exact (raise_atOnce ..).trans (congrArg (State.raise e info false) (clearFreqBr_atOnce ..))
    | more => exact setBr_atOnce d { s with activity := .hdrLoad _ sum } _
    | entry k v sum' =>
      dsimp only
      by_cases hc : h.length + 1 = Config.hdrLen
      · rw [if_pos hc, if_pos hc]
        exact congrArg (State.succeed []) (setFreqBr_atOnce ..)
      · rw [if_neg hc, if_neg hc]
        exact congrArg (fun u : State => { u with activity := .hdrLoad ((s.br.readGroup8 b).1 :: h) sum' })
          (setFreqBr_atOnce d s k v (s.br.readGroup8 b).2)
  | eoi =>
    exact (raise_atOnce ..).trans (congrArg (State.raise _ _ _) (clearFreqBr_atOnce d s s.br.discarded))
  | ioerr =>
    exact (raise_atOnce ..).trans (congrArg (State.raise _ _ _) (clearFreqBr_atOnce d s s.br.discarded))

theorem encodeStep_atOnce (br : BitReader) (bw : BitWriter) (n : Nat) (out : List OutToken) :
    (({ (({ s with br := br, bw := bw } : State).countBits n).countSymbol with
      pending := out, activity := .encode }) : State).atOnce d =
    { (({ s.atOnce d with br := br, bw := bw } : State).countBits n).countSymbol with
      pending := out, activity := .encode } := rfl

theorem encodeEnd_atOnce : (encodeEnd s).atOnce d = encodeEnd (s.atOnce d) := by
  unfold encodeEnd
  rw [State.atOnce_code, State.atOnce_bw]
  dsimp only
  generalize s.bw.writeAll _ = q
  generalize q.1.close = r
  generalize (s.code[eosSymbol].getD []).length = n
  rfl

theorem encodeToken_atOnce (tok : InToken) : (encodeToken tok s).atOnce d = encodeToken tok (s.atOnce d) := by
  cases tok with
  | byte b =>
    unfold encodeToken
    rw [State.atOnce_br, State.atOnce_code, State.atOnce_bw]
    dsimp only
    cases s.code[byteSymbol (s.br.readGroup8 b).1] with
    | none => exact (raise_atOnce ..).trans (congrArg (State.raise _ _ _) (setBr_atOnce ..))
    | some p => exact encodeStep_atOnce ..
  | eoi => exact (encodeEnd_atOnce ..).trans (congrArg encodeEnd (setBr_atOnce d s s.br.discarded))
  | ioerr => exact (raise_atOnce ..).trans (congrArg (State.raise _ _ _) (setBr_atOnce d s s.br.discarded))

theorem token_atOnce {s : State} {act : InToken → State → State} (ht : Turn s act) (tok : InToken) (u : State) :
    (act tok u).atOnce d = act tok (u.atOnce d) := by
  cases ht with
  | getbit => 
    cases tok with
    | byte b =>
      simp only [getbitToken, State.atOnce_br]
      generalize u.br.readBit b = r
      rfl
    | eoi => rfl
    | ioerr => exact raise_atOnce ..
  | count => exact countToken_atOnce d u tok
  | hdrLoad h sum => exact hdrLoadToken_atOnce d u h sum tok
  | encode => exact encodeToken_atOnce d u tok
  | decode =>
    cases tok with
    | byte b =>
      simp only [decodeToken, State.atOnce_br]
      generalize u.br.readBit b = r
      rfl
    | eoi => exact raise_atOnce ..
    | ioerr => exact raise_atOnce ..
  | decodeEnd =>
    cases tok with
    | byte b => rfl
    | eoi =>
      simp only [decodeEndToken, State.atOnce_bw]
      generalize u.bw.close = q
      cases q
      rfl
    | ioerr => exact raise_atOnce ..
  | errDrain e info a =>
    unfold drainToken
    split <;> rfl

theorem turn_atOnce {s : State} {act : InToken → State → State} (ht : Turn s act) : Turn (s.atOnce d) act := by
  cases ht with
  | getbit ha => exact .getbit ha
  | count ha => exact .count ha
  | hdrLoad h sum ha => exact .hdrLoad h sum ha
  | encode ha => exact .encode ha
  | decode cur c l r ha hn hb => exact .decode cur c l r ha hn hb
  | decodeEnd ha => exact .decodeEnd ha
  | errDrain e info a ha => exact .errDrain e info a ha

/-- A move goes through as well with the ports' timing taken out, the output port holding what the move leaves. -/
theorem coreMove_atOnce {s t : State} (h : coreMove s = some t) (hd : t.taken.length + t.outPort.length ≤ d) :
    coreMove (s.atOnce d) = some (t.atOnce d) := by
  cases coreMove_move h with
  | emit tok rest hp hroom =>
    unfold coreMove
    simp only [State.atOnce_pending, hp]
    refine outWrite_eq_some.mpr ⟨?_, ?_⟩
    · simp [State.atOnce] at hd ⊢; omega
    · simp [State.atOnce]
  | complete v hp ha =>
    unfold coreMove
    simp only [State.atOnce_pending, hp, State.atOnce_activity, ha, complete_atOnce]
  | leaf cur sym c hp ha hn =>
    unfold coreMove decodeMove
    simp only [State.atOnce_pending, hp, State.atOnce_activity, ha, State.atOnce_node, hn, decodeLeaf_atOnce]
  | bit cur c l r hp ha hn hb =>
    unfold coreMove decodeMove
    simp only [State.atOnce_pending, hp, State.atOnce_activity, ha, State.atOnce_node, hn]
    rw [if_neg (show ¬ (s.atOnce d).br.n.val = 0 by rw [State.atOnce_br]; omega), State.atOnce_br]
    generalize s.br.readBit 0 = r
    rfl
  | token tok rest act hp ht hin =>
    have hin' : (s.atOnce d).inPort = tok :: (rest ++ s.script.filterMap HostAct.offered) := by simp [State.atOnce, hin]
    have hp' : (s.atOnce d).pending = [] := hp
    rw [coreMove_token hp' (turn_atOnce d ht) hin', token_atOnce d ht]
    rfl
end Sys2Proof.Machine
end

