-- ==== Sys2Proof/Laws/Tables.lean ====
section
/-! SUPPORT. The three tables: what a write leaves, and that every operation on CODE keeps its canonical form
(`Memory.wf`, 10_state.md R59). -/
namespace Sys2Proof.Machine

/-! FREQ. -/

/-- A written entry reads as the value written (R55). -/
theorem setFreq_same (s : State) (k : Symbol) (v : Word) : (s.setFreq k.val v).freq[k] = v := by
  simp [State.setFreq]

/-- Every other entry reads as before (R55). -/
theorem setFreq_other (s : State) (k j : Symbol) (v : Word) (h : j ≠ k) :
    (s.setFreq k.val v).freq[j] = s.freq[j] := by
  have : k.val ≠ j.val := fun e => h (Fin.ext e.symm)
  simp [State.setFreq, this]

@[simp] theorem zeroFreq_get (k : Symbol) : zeroFreq[k] = 0 := by simp [zeroFreq]

/-- An index operand of at most 256 names its symbol (R126). -/
theorem symbolOf_eq_some {idx : BitVec 10} {k : Symbol} : symbolOf idx = some k ↔ k.val = idx.toNat := by
  unfold symbolOf
  split
  · simp [Fin.ext_iff, eq_comm]
  · have := k.isLt
    simp; omega

theorem symbolOf_eq_none {idx : BitVec 10} : symbolOf idx = none ↔ 256 < idx.toNat := by
  unfold symbolOf
  split <;> simp <;> omega

/-! NODE. -/

/-- A written node reads back (R225). -/
theorem writeNodes_new (mem : NodeTable) (nodes : List Node) (i : NodeIdx) (h : i.val < nodes.length) :
    nodes[i.val]? = some (writeNodes mem nodes)[i] := by
  have hi := i.isLt
  simp [writeNodes, List.getElem_append_left h, h]

/-- A node that is not written is as before (R225). -/
theorem writeNodes_old (mem : NodeTable) (nodes : List Node) (i : NodeIdx) (h : nodes.length ≤ i.val) :
    (writeNodes mem nodes)[i] = mem[i] := by
  have hi := i.isLt
  have e : nodes.length + (i.val - nodes.length) = i.val := by omega
  simp [writeNodes, List.getElem_append_right h, e]

/-- NODE, NLEAF, NNODE and ROOT as BUILD leaves them hold the tree of FREQ (R36, R225). -/
theorem treeOk_written (s : State) (mem : NodeTable) (h : buildCheck s.freq = none) :
    State.TreeOk { s with
      node := writeNodes mem (treeOf s.freq).nodes
      nleaf := BitVec.ofNat 9 (treeOf s.freq).nleaf
      nnode := BitVec.ofNat 10 (treeOf s.freq).nodes.length
      root := Fin.ofNat 513 (treeOf s.freq).root } :=
  ⟨h, fun i hi => writeNodes_new mem _ i hi, rfl, rfl, rfl⟩

/-- The same, from the five fields. -/
theorem treeOk_of_fields {t : State} {f : FreqTable} (mem : NodeTable) (h : buildCheck f = none) (hf : t.freq = f)
    (hn : t.node = writeNodes mem (treeOf f).nodes) (hl : t.nleaf = BitVec.ofNat 9 (treeOf f).nleaf)
    (hm : t.nnode = BitVec.ofNat 10 (treeOf f).nodes.length) (hr : t.root = Fin.ofNat 513 (treeOf f).root) :
    t.TreeOk := by
  subst hf
  exact ⟨h, fun i hi => by rw [hn]; exact writeNodes_new mem _ i hi, hl, hm, hr⟩

/-- What TREE_VALID means depends on FREQ, NODE, NLEAF, NNODE and ROOT alone. -/
theorem treeOk_of_same {s t : State} (h : s.TreeOk) (hf : t.freq = s.freq) (hn : t.node = s.node)
    (hl : t.nleaf = s.nleaf) (hm : t.nnode = s.nnode) (hr : t.root = s.root) : t.TreeOk := by
  unfold State.TreeOk at h ⊢
  rw [hf, hn, hl, hm, hr]
  exact h

/-! CODE. -/

/-- What CODES_VALID means depends on NODE, ROOT and CODE alone. -/
theorem codesOk_of_same {s t : State} (h : s.CodesOk) (hn : t.node = s.node) (hr : t.root = s.root)
    (hc : t.code = s.code) : t.CodesOk := by
  unfold State.CodesOk at h ⊢
  rw [hn, hr, hc]
  exact h

theorem memory_wf_iff {code : CodeTable} :
    Memory.wf code = true ↔ ∀ (k : Symbol) (p : Code), code[k] = some p → p.length ≤ 256 := by
  simp only [Memory.wf, List.all_eq_true]
  constructor
  · intro h k p hk
    have hm : some p ∈ code.toList := by
      rw [← hk]; simp
    exact of_decide_eq_true (h _ hm)
  · intro h entry hm
    obtain ⟨k, hk, rfl⟩ := List.mem_iff_getElem.mp hm
    have hk' : k < 257 := by simpa using hk
    split
    · rfl
    · rename_i p hp
      exact decide_eq_true (h ⟨k, hk'⟩ p (by simpa using hp))

/-- A table of ABSENT entries is well-formed. -/
theorem absent_wf : Memory.wf (Vector.replicate 257 none) = true := by
  rw [memory_wf_iff]; intro k p h; simp at h

/-- Writing a code within the bound keeps the form. -/
theorem set_wf (code : CodeTable) (sym : Symbol) (p : Code) (h : Memory.wf code = true) (hp : p.length ≤ 256) :
    Memory.wf (code.set sym (some p)) = true := by
  rw [memory_wf_iff] at h ⊢
  intro k q hq
  by_cases e : sym = k
  · subst e
    have : p = q := by simpa using hq
    exact this ▸ hp
  · have e' : sym.val ≠ k.val := fun x => e (Fin.ext x)
    exact h k q (by simpa [Vector.getElem_set, e'] using hq)

theorem walkCodes_wf (node : NodeTable) (d : Nat) (i : NodeIdx) (p : Code) (t : CodeTable) (h : Memory.wf t = true)
    (hp : p.length + d ≤ 257) : Memory.wf (walkCodes node d i p t) = true := by
  induction d generalizing i p t with
  | zero => exact h
  | succ d ih =>
    simp only [walkCodes]
    split
    · exact set_wf t _ p h (by omega)
    · exact ih _ _ _ (ih _ _ _ h (by simp; omega)) (by simp; omega)

/-- GENCODES' table is well-formed (R59, R254). -/
theorem codesOf_wf (node : NodeTable) (root : NodeIdx) : Memory.wf (codesOf node root) = true :=
  walkCodes_wf node 257 root [] _ absent_wf (by simp)

/-- The free contents of CODE after a reset are well-formed (R59, R64). -/
theorem freeCodes_wf (n : Nat) : Memory.wf (freeCodes n) = true := by
  rw [memory_wf_iff]
  intro k p h
  simp only [freeCodes, Fin.getElem_fin, Vector.getElem_mk, List.getElem_toArray, List.getElem_map,
    List.getElem_range, Option.map_eq_some_iff] at h
  obtain ⟨q, -, rfl⟩ := h
  simp [Config.maxCodeLen]

theorem reset_memory_wf : Memory.wf State.reset.code = true := freeCodes_wf 0

theorem doReset_memory_wf (s : State) : Memory.wf s.doReset.code = true := freeCodes_wf (s.freeCtr + 1)

end Sys2Proof.Machine
end

