-- ==== Sys2Proof/Tests/Slice0.lean ====
section
/-! SUPPORT. Small tests and the witnesses of the statements' hypotheses. Expected values come from the spec: the words
from 30_encoding.md R123 and R129, the results from 95_test_vectors.md (the vector is named at each test) or from the
rule named. -/
namespace Sys2Proof.Machine

/-! Helper states. -/

/-- The machine after reset, with both ports 16 tokens deep. -/
def small : State := { State.reset with inDepth := 16, outDepth := 16 }

/-- The machine after reset, with room for a whole header in both ports. -/
def roomy : State := { State.reset with inDepth := 2048, outDepth := 2048 }

/-- The state a command leaves, or the one it started from if it does not answer a next state. -/
def after (i : Instr) (s : State) : State :=
  match exec i s with
  | .next t => t
  | .fault _ => s
  | .refused _ => s

theorem exec_after (i : Instr) (s : State) : exec i s = .next (after i s) := by cases i <;> rfl

/-- The state one step leaves, or the one it started from. -/
def stepped (s : State) : State :=
  match step s with
  | .next t => t
  | .fault _ => s
  | .refused _ => s

/-- The frequency table of T-AAB (95_test_vectors.md, the reference trees). -/
def aabFreq : FreqTable := ((zeroFreq.set 0x41 2).set 0x42 1).set 256 1

/-- The tree of T-AAB. -/
def aabNodes : List Node := [.leaf 0x41 2, .leaf 0x42 1, .leaf 256 1, .internal 2 1 2, .internal 4 0 3]

/-- The codes of T-AAB. -/
def aabCodes : CodeTable :=
  (((Vector.replicate 257 none).set 0x41 (some [false])).set 0x42 (some [true, false])).set 256 (some [true, true])

/-- T-AAB built and its codes generated, all written out from the vector. -/
def aab (s : State) : State :=
  { s with
    freq := aabFreq, node := writeNodes (freeNodes 0) aabNodes, code := aabCodes, nleaf := 3, nnode := 5, root := 4
    treeValid := true, codesValid := true }

/-- A state that holds these tables, CODE being what GENCODES derives from NODE and ROOT, and both flags set. -/
def withTree (f : FreqTable) (node : NodeTable) (nleaf : BitVec 9) (nnode : BitVec 10) (root : NodeIdx) (s : State) :
    State :=
  { s with
    freq := f, node := node, nleaf := nleaf, nnode := nnode, root := root, code := codesOf node root
    treeValid := true, codesValid := true }

theorem withTree_codesOk (f : FreqTable) (node : NodeTable) (nleaf : BitVec 9) (nnode : BitVec 10) (root : NodeIdx)
    (s : State) : (withTree f node nleaf nnode root s).CodesOk := by
  simp only [State.CodesOk, withTree]

/-- NODE, NLEAF, NNODE, ROOT and CODE as BUILD and GENCODES derive them from T-AAB's table. -/
def built (s : State) : State :=
  withTree aabFreq (writeNodes (freeNodes 0) (treeOf aabFreq).nodes) (BitVec.ofNat 9 (treeOf aabFreq).nleaf)
    (BitVec.ofNat 10 (treeOf aabFreq).nodes.length) (Fin.ofNat 513 (treeOf aabFreq).root) s

theorem aabFreq_legal : LegalTable aabFreq := by unfold LegalTable; decide +kernel

theorem aabFreq_checked : buildCheck aabFreq = none := by decide +kernel

theorem built_treeOk (s : State) : (built s).TreeOk := by
  refine treeOk_of_fields (f := aabFreq) (freeNodes 0) aabFreq_checked ?_ ?_ ?_ ?_ ?_ <;> simp only [built, withTree]

theorem built_codesOk (s : State) : (built s).CodesOk := withTree_codesOk _ _ _ _ _ s

/-- Input bytes, then a terminator. -/
def segment (bs : List Byte) (rest : List InToken) : List InToken := bytesIn bs ++ .eoi :: rest

/-! Well-formedness (30_encoding.md R126): one ill-formed command for each check, and the largest legal operands. -/

theorem test_wf_putbits : (Instr.putbits 33).wf = false ∧ (Instr.putbits 32).wf = true := by decide
theorem test_wf_nodeRd : (Instr.nodeRd 0 2).wf = false ∧ (Instr.nodeRd 1023 1).wf = true := by decide
theorem test_wf_codeRd : (Instr.codeRd 0 9).wf = false ∧ (Instr.codeRd 1023 8).wf = true := by decide

/-! Decoding, every command (words from R121-R123, R129). -/

theorem test_decode_nop : decode 0x00000000#32 = .ok .nop := by decide
/-- N = 3 in bits 13:8. -/
theorem test_decode_putbits : decode 0b00000000000000000000001100000001#32 = .ok (.putbits 3) := by decide
theorem test_decode_flush : decode 0x00000002#32 = .ok .flush := by decide
theorem test_decode_getbit : decode 0x00000003#32 = .ok .getbit := by decide
theorem test_decode_count : decode 0x00000010#32 = .ok .count := by decide
/-- IDX = 256 in bits 17:8. -/
theorem test_decode_freqRd : decode 0b00000000000000010000000000010001#32 = .ok (.freqRd 256) := by decide
theorem test_decode_freqWr : decode 0x00004112#32 = .ok (.freqWr 65) := by decide
theorem test_decode_hdrEmit : decode 0x00000013#32 = .ok .hdrEmit := by decide
theorem test_decode_hdrLoad : decode 0x00000014#32 = .ok .hdrLoad := by decide
theorem test_decode_build : decode 0x00000020#32 = .ok .build := by decide
/-- SEL = 1 in bits 21:18, IDX = 4 in bits 17:8. -/
theorem test_decode_nodeRd : decode 0b00000000000001000000010000100001#32 = .ok (.nodeRd 4 1) := by decide
theorem test_decode_gencodes : decode 0x00000030#32 = .ok .gencodes := by decide
theorem test_decode_codeRd : decode 0x00044131#32 = .ok (.codeRd 65 1) := by decide
theorem test_decode_encode : decode 0x00000040#32 = .ok .encode := by decide
theorem test_decode_decode : decode 0x00000050#32 = .ok .decode := by decide

/-- L2-8: the illegal words. -/
theorem test_decode_illegal :
    decode 0x00004000#32 = .error .reservedBits ∧ decode 0x00000004#32 = .error .undefinedOpcode ∧
    decode 0x000000FF#32 = .error .undefinedOpcode ∧ decode 0x00000051#32 = .error .undefinedOpcode ∧
    decode 0x0000C001#32 = .error .reservedBits ∧ decode 0x00002101#32 = .error .fieldLimit ∧
    decode 0x00040012#32 = .error .reservedBits ∧ decode 0x80000040#32 = .error .reservedBits ∧
    decode 0x000A5821#32 = .error .fieldLimit ∧ decode 0x00240031#32 = .error .fieldLimit := by decide

/-- L2-8: the legal words beside them. -/
theorem test_decode_legal :
    decode 0x00002001#32 = .ok (.putbits 32) ∧ decode 0x00200031#32 = .ok (.codeRd 0 8) ∧
    decode 0x00025821#32 = .ok (.nodeRd 600 0) := by decide

/-- No word matches two rows of the opcode table (R123): two rows differ in a bit both fix. -/
theorem test_rows_disjoint :
    opcodeTable.Pairwise fun a b => a.pattern &&& b.mask &&& a.mask ≠ b.pattern &&& a.mask &&& b.mask := by decide

theorem test_encode : encode (.codeRd 65 1) = 0x00044131#32 ∧ encode (.putbits 32) = 0x00002001#32 := by decide

/-- A word of the opcode table, as the host asks for it. -/
theorem test_decodeTableWord :
    decodeTableWord 32 0x13 = some .hdrEmit ∧ decodeTableWord 32 (2 ^ 32) = none ∧ decodeTableWord 32 0x04 = none := by
  decide

/-- The host's next action is the CMD write, and the step runs it. -/
theorem test_withFetchWord : (stepped (small.withFetchWord 32 0)).done = true := by decide +kernel

/-! The commands, on the vectors. -/

/-- R305: from reset NOP gives STATUS = 0x0000_0002. -/
theorem test_nop : statusWord (after .nop (small.accept 0)) = 0x00000002#32 := by decide +kernel

/-- L2-1: BW = 0b101, n = 3, then 0xDEADBEEF: out `BB D5 B7 DD`, BITSTATE = 0x0000_0307. -/
theorem test_putbits :
    let t := after (.putbits 32) { small with bw := ⟨5, 3⟩, ldata := 0xDEADBEEF }
    t.outPort = bytesOut [0xBB, 0xD5, 0xB7, 0xDD] ∧ bitState t = 0x00000307#32 := by decide +kernel

/-- L2-1: only LDATA[2:0] is used. -/
theorem test_putbits_low : bitState (after (.putbits 3) { small with ldata := 0xFFFFFFF5 }) = 0x00000305#32 := by
  decide +kernel

/-- L2-1: FLUSH of 0b101 emits `A0 EOO`; on an empty writer it emits EOO alone (90_conflicts.md C5). -/
theorem test_flush :
    (after .flush { small with bw := ⟨5, 3⟩ }).outPort = [.byte 0xA0, .eoo] ∧
    (after .flush small).outPort = [.eoo] := by decide +kernel

/-- L2-1: the third GETBIT of `C3` gives 0 and leaves BITSTATE = 0x0518_0000. -/
theorem test_getbit :
    let s := { small with inPort := segment [0xC3] [] }
    let t := after .getbit (after .getbit (after .getbit s))
    (after .getbit s).result = 1 ∧ t.result = 0 ∧ bitState t = 0x05180000#32 := by decide +kernel

/-- L2-1: `IOERR 41` gives E_IO and STATUS = 0x0000_6006; RESULT is unchanged and `41` is left. -/
theorem test_getbit_ioerr :
    let t := after .getbit ({ small with result := 7, inPort := [.ioerr, .byte 0x41] }.accept 3)
    statusWord t = 0x00006006#32 ∧ t.result = 7 ∧ t.inPort = [.byte 0x41] := by decide +kernel

/-- L2-2: COUNT over `41 41 42 EOI`. -/
theorem test_count :
    let t := after .count { small with inPort := segment [0x41, 0x41, 0x42] [] }
    t.freq[(0x41 : Symbol)] = 2 ∧ t.freq[(0x42 : Symbol)] = 1 ∧ t.freq[(256 : Symbol)] = 1 ∧
    t.freq[(0 : Symbol)] = 0 ∧ t.symCnt = 3 := by decide +kernel

/-- L2-1: after four GETBITs of `A5`, COUNT over the rest and `41` counts the one group 0x54. -/
theorem test_count_misaligned :
    let t := after .count { small with br := ⟨0x50, 4⟩, inPort := segment [0x41] [] }
    t.freq[(0x54 : Symbol)] = 1 ∧ t.freq[(0x41 : Symbol)] = 0 ∧ t.symCnt = 1 ∧ t.br = ⟨0, 0⟩ := by decide +kernel

/-- L2-2: FREQ_RD 65 on T-AAB's table gives 2; FREQ_RD 257 is E_RANGE with ERRINFO = 257. -/
theorem test_freqRd :
    (after (.freqRd 65) (aab small)).result = 2 ∧ (after (.freqRd 257) small).errCode = 0x02 ∧
    (after (.freqRd 257) small).errInfo = 257 := by decide +kernel

/-- L2-2: FREQ_WR 66 with DATA = 3 on T-AAB. -/
theorem test_freqWr :
    let t := after (.freqWr 66) ({ aab small with data := 3 }.accept 0x4212)
    t.freq[(66 : Symbol)] = 3 ∧ t.freq[(65 : Symbol)] = 2 ∧ statusWord t = 0x00000002#32 := by decide +kernel

/-- R196, L2-2: the fixed bytes and entry 1 of the header. -/
theorem test_header :
    (headerBytes (zeroFreq.set 1 0x12345678)).take 20 =
      [0x48, 0x55, 0x46, 0x46, 1, 4, 1, 1, 0, 0, 0, 0, 0x12, 0x34, 0x56, 0x78, 0, 0, 0, 0] := by decide +kernel

/-- R190, R196: HDR_EMIT from reset first emits `48 55 46 46 01 04 01 01`. -/
theorem test_hdrEmit : (startHdrEmit small).pending.take 8 = bytesOut [0x48, 0x55, 0x46, 0x46, 1, 4, 1, 1] := by
  have h : (startHdrEmit small).pending =
      (small.bw.writeAll ((headerBytes small.freq).flatMap (lowBits · 8))).2 := by
    rw [startHdrEmit_eq, State.succeed_pending]
  have e : small.bw = BitWriter.empty := rfl
  rw [h, e, headerBytes, List.flatMap_append, writeAll_append]
  have h1 : (BitWriter.empty.writeAll
      (([0x48, 0x55, 0x46, 0x46, 0x01, 0x04, 0x01, 0x01] : List Byte).flatMap (lowBits · 8))).2 =
      bytesOut [0x48, 0x55, 0x46, 0x46, 1, 4, 1, 1] := by decide +kernel
  rw [h1]
  exact List.take_left' rfl

/-- L1-7: byte 3 = 58 is E_HDR_MAGIC with the four bytes; the segment is drained and `77` is left. -/
theorem test_hdrLoad_magic :
    let t := after .hdrLoad { small with inPort := segment [0x48, 0x55, 0x46, 0x58, 1] [.byte 0x77] }
    t.errCode = 0x21 ∧ t.errInfo = 0x48554658#32 ∧ t.inPort = [.byte 0x77] := by decide +kernel

/-- A command is accepted with T-AAB's file in the input port (L3-2). -/
def aabFile : State := { roomy with busy := true, inPort := bytesIn (headerBytes aabFreq) ++ segment [0x2C] [] }

/-- R198: HDR_LOAD over T-AAB's header, then `2C EOI`, which is left. -/
theorem test_hdrLoad :
    let t := after .hdrLoad aabFile
    t.freq[(0x41 : Symbol)] = 2 ∧ t.freq[(0x42 : Symbol)] = 1 ∧ t.freq[(256 : Symbol)] = 1 ∧
    t.inPort = segment [0x2C] [] ∧ t.busy = false ∧ t.err = false := by decide +kernel

/-- R220: the tree of T-AAB. -/
theorem test_tree : (treeOf aabFreq).nodes = aabNodes ∧ (treeOf aabFreq).nleaf = 3 ∧ (treeOf aabFreq).root = 4 := by
  decide +kernel

/-- L2-3: BUILD after reset is E_ZERO_TABLE, STATUS = 0x0000_3006; FREQ[0] = 2^32 - 1 is E_SUM_OVF at 256. -/
theorem test_build_errors :
    statusWord (after .build (small.accept 0x20)) = 0x00003006#32 ∧
    buildCheck ((zeroFreq.set 0 0xFFFFFFFF).set 256 1) = some (.sumOvf, 256) ∧
    buildCheck ((zeroFreq.set 0 0xFFFFFFFE).set 256 1) = none ∧
    buildCheck (zeroFreq.set 0x41 5) = some (.eosCount, 0) := by decide +kernel

/-- L2-3: NODE_RD 3, 1 and NODE_RD 2, 1 on T-AAB. -/
theorem test_nodeRd :
    (after (.nodeRd 3 1) (aab small)).result = 0x80100002#32 ∧ (after (.nodeRd 2 1) (aab small)).result = 0x100#32 := by
  decide +kernel

/-- L2-3: NODE_RD 4, 0 on T-AAB; NODE_RD 5, 0 is E_RANGE; NODE_RD 0, 0 from reset is E_NO_TREE. -/
theorem test_nodeRd_errors :
    (after (.nodeRd 4 0) (aab small)).result = 4 ∧ (after (.nodeRd 5 0) (aab small)).errCode = 0x02 ∧
    (after (.nodeRd 0 0) small).errCode = 0x03 := by decide +kernel

/-- R251: the codes of T-AAB. -/
theorem test_gencodes :
    let t := after .gencodes { aab small with code := Vector.replicate 257 (some []) }
    t.code[(0x41 : Symbol)] = some [false] ∧ t.code[(0x42 : Symbol)] = some [true, false] ∧
    t.code[(256 : Symbol)] = some [true, true] ∧ t.code[(0 : Symbol)] = none ∧ t.codesValid = true := by decide +kernel

/-- L2-5: CODE_RD 256 with SEL 0 and 1. -/
theorem test_codeRd :
    (after (.codeRd 256 0) (aab small)).result = 0x80000002#32 ∧
    (after (.codeRd 256 1) (aab small)).result = 0xC0000000#32 := by decide +kernel

/-- L2-4: the second word of a code of 44 ones is 0xFFF0_0000. -/
theorem test_codeWord : codeWord (List.replicate 44 true) 1 = 0xFFF00000#32 := by decide +kernel

/-- L2-6: a writer that holds 0b101: ENCODE of `41 41 42` emits `A5 80 EOO`, BITCNT = 6. -/
theorem test_encode_misaligned :
    let t := after .encode { aab small with bw := ⟨5, 3⟩, inPort := segment [0x41, 0x41, 0x42] [] }
    t.outPort = [.byte 0xA5, .byte 0x80, .eoo] ∧ t.bitCnt = 6 ∧ t.symCnt = 3 := by decide +kernel

/-- L2-6: `41 43 42 EOI 99` gives `ABT`, E_NO_CODE with 0x43, BITCNT = SYMCNT = 1, and `99` is left. -/
theorem test_encode_noCode :
    let t := after .encode { aab small with inPort := segment [0x41, 0x43, 0x42] [.byte 0x99] }
    t.outPort = [.abt] ∧ t.errCode = 0x40 ∧ t.errInfo = 0x43 ∧ t.bitCnt = 1 ∧ t.symCnt = 1 ∧
    t.inPort = [.byte 0x99] := by decide +kernel

/-- L2-7: `2C FF FF EOI 11` gives `41 41 42 EOO`, BITCNT = 6, and `11` is left. -/
theorem test_decode :
    let t := after .decode { aab small with inPort := segment [0x2C, 0xFF, 0xFF] [.byte 0x11] }
    t.outPort = [.byte 0x41, .byte 0x41, .byte 0x42, .eoo] ∧ t.bitCnt = 6 ∧ t.symCnt = 3 ∧
    t.inPort = [.byte 0x11] := by decide +kernel

/-- L2-7: `00 EOI` gives 0x41 eight times, then `ABT`, and E_TRUNCATED with 8. -/
theorem test_decode_truncated :
    let t := after .decode { aab small with inPort := segment [0x00] [] }
    t.outPort = List.replicate 8 (.byte 0x41) ++ [.abt] ∧ t.errCode = 0x50 ∧ t.errInfo = 8 := by decide +kernel

/-- L2-7: `2C FF IOERR 11` gives `41 41 42 ABT`, BITCNT = 6, SYMCNT = 3, E_IO with 0, and `11` is left. -/
theorem test_decode_ioerr_drain :
    let t := after .decode { aab small with inPort := [.byte 0x2C, .byte 0xFF, .ioerr, .byte 0x11] }
    t.outPort = [.byte 0x41, .byte 0x41, .byte 0x42, .abt] ∧ t.bitCnt = 6 ∧ t.symCnt = 3 ∧ t.errCode = 0x60 ∧
    t.errInfo = 0 ∧ t.inPort = [.byte 0x11] := by decide +kernel

/-! Registers, reset, the interrupt output (L2-9, L3-6). -/

/-- L2-9: STATUS = 0x0000_0306, then `WR STATUS, 0x4`, then `WR STATUS, 0x2`. -/
theorem test_status :
    let s := { small with done := true, err := true, errCode := 0x03 }
    let t := writeStatus 4 s
    statusWord s = 0x00000306#32 ∧ statusWord t = 2 ∧ t.errInfo = 0 ∧ statusWord (writeStatus 2 t) = 0 := by
  decide +kernel

/-- L2-9: a 16-bit read of offset 0x0C is refused, as are offsets outside the window and misaligned ones. -/
theorem test_access :
    accessIndex 0x0C 16 = none ∧ accessIndex 0xFC 32 = some 63 ∧ accessIndex 0 32 = some 0 ∧
    accessIndex 0x100 32 = none ∧ accessIndex (-4) 32 = none ∧ accessIndex 2 32 = none := by decide

/-- L3-6: irq is 1 after a NOP with IE = 1. -/
theorem test_irq : irq (after .nop { small with ie := true }) = true ∧ irq { small with ie := true } = false := by
  decide +kernel

/-- R352, L2-9: a soft reset in the middle of a command keeps both ports. -/
theorem test_softReset :
    let s := { small with busy := true, activity := .count, inPort := [.eoi], outPort := [.eoo], script := [.write 8 32 2] }
    (stepped s).busy = false ∧ (stepped s).inPort = [.eoi] ∧ (stepped s).outPort = [.eoo] ∧
    (stepped s).done = false := by decide +kernel

/-! Witnesses: for every statement of Certificates/Slice0/Obligations.lean that has hypotheses, a state and operands that
meet them together, one for each clause, at the ends of the ranges. -/

theorem witness_DecodeOfEncode : (Instr.codeRd 1023 8).wf = true ∧ (Instr.putbits 32).wf = true := by decide

theorem witness_EncodeOfDecode :
    decode 0x0023FF31#32 = .ok (.codeRd 1023 8) ∧ (Instr.codeRd 1023 8).wf = true ∧
    encode (.codeRd 1023 8) = 0x0023FF31#32 := by decide

/-- The last legal and the first illegal value of each field. -/
theorem witness_DecodeRefusesByName :
    decode 0x000000FF#32 = .error .undefinedOpcode ∧ decode 0x00002101#32 = .error .fieldLimit ∧
    decode 0x00080021#32 = .error .fieldLimit ∧ decode 0x00240031#32 = .error .fieldLimit ∧
    decode 0x80000000#32 = .error .reservedBits ∧ decode 0x00004001#32 = .error .reservedBits ∧
    decode 0x00040011#32 = .error .reservedBits ∧ decode 0x00400021#32 = .error .reservedBits := by decide

theorem witness_StepRunsDecodedCommand :
    ∃ (s : State) (w : Word) (rest : List HostAct) (i : Instr),
      s.script = .write 0x10 32 w :: rest ∧ s.busy = false ∧ s.err = false ∧ decode w = .ok i :=
  ⟨{ small with script := [cmdWrite 0x2001] }, 0x2001, [], .putbits 32, rfl, rfl, rfl, by decide⟩

theorem witness_IllegalWordHasOnlyTheEpilogue :
    ∃ (s : State) (w : Word) (rest : List HostAct) (e : Illegal), s.script = .write 0x10 32 w :: rest ∧
      s.busy = false ∧ s.err = false ∧ s.pace = none ∧ decode w = .error e :=
  ⟨{ small with script := [cmdWrite 0x2101] }, 0x2101, [], .fieldLimit, rfl, rfl, rfl, rfl, by decide⟩

theorem witness_CmdWriteRejected :
    (∃ (s : State) (w : Word) (rest : List HostAct), s.script = .write 0x10 32 w :: rest ∧ s.busy = true) ∧
    (∃ (s : State) (w : Word) (rest : List HostAct), s.script = .write 0x10 32 w :: rest ∧ s.err = true) :=
  ⟨⟨{ small with script := [cmdWrite 0], busy := true, activity := .count }, 0, [], rfl, rfl⟩,
    ⟨{ small with script := [cmdWrite 0], err := true, errCode := 1 }, 0, [], rfl, rfl⟩⟩

/-- R88, R89: both sides of the equivalences, at the ends of the window. -/
theorem witness_OtherAccessRefused :
    busOffset (Config.hufBase + 4 * 63) = 0xFC ∧ busOffset (Config.hufBase + 0x100) = 0x100 ∧
    accessIndex 0xFC 32 = some 63 ∧ accessIndex 0x100 32 = none ∧ accessIndex 0xFC 16 = none := by
  refine ⟨?_, ?_, by decide, by decide, by decide⟩ <;> simp [busOffset]

theorem witness_StatusWriteClears :
    ∃ (s : State) (v : Word) (rest : List HostAct), s.script = .write 0x0C 32 v :: rest ∧ s.err = true :=
  ⟨{ small with script := [.write 0x0C 32 0xE], err := true, errCode := 2, done := true }, 0xE, [], rfl, rfl⟩

theorem witness_CtrlWrite :
    (∃ (s : State) (v : Word) (rest : List HostAct), s.script = .write 0x08 32 v :: rest ∧ v.getLsbD 1 = false) ∧
    (∃ (s : State) (v : Word) (rest : List HostAct), s.script = .write 0x08 32 v :: rest ∧ v.getLsbD 1 = true ∧
      s.busy = true) :=
  ⟨⟨{ small with script := [.write 8 32 1] }, 1, [], rfl, by decide⟩,
    ⟨{ small with script := [.write 8 32 3], busy := true, activity := .count }, 3, [], rfl, by decide, rfl⟩⟩

theorem witness_DataWriteStoresOthersIgnore :
    (∃ (s : State) (v : Word) (rest : List HostAct), s.script = .write (4 * ((5 : Nat) : Int)) 32 v :: rest) ∧
    (∃ (s : State) (v : Word) (rest : List HostAct), s.script = .write (4 * ((63 : Nat) : Int)) 32 v :: rest) ∧
    63 ∉ [2, 3, 4, 5] ∧ 0 ∉ [2, 3, 4, 5] :=
  ⟨⟨{ small with script := [.write 20 32 9] }, 9, [], rfl⟩, ⟨{ small with script := [.write 252 32 9] }, 9, [], rfl⟩,
    by decide, by decide⟩

theorem witness_ResetInputIsSoftReset : (3 : Word).getLsbD 1 = true := by decide

/-- Any register of the map, the last one included. -/
theorem witness_IdleReadReturnsRegister (k : Nat) :
    ∃ (s : State) (rest : List HostAct), s.script = .read (4 * (k : Int)) 32 :: rest ∧ s.busy = false :=
  ⟨{ small with script := [.read (4 * (k : Int)) 32] }, [], rfl, rfl⟩

theorem witness_BusyReadReturnsStableValues (k : Nat) :
    ∃ (s : State) (rest : List HostAct), s.script = .read (4 * (k : Int)) 32 :: rest ∧ s.busy = true ∧ s.StatusOk :=
  ⟨{ small with script := [.read (4 * (k : Int)) 32], busy := true, activity := .count }, [], rfl, rfl,
    by simp [State.StatusOk, small, State.reset]⟩

/-- Both clauses at both ends, the read while a command runs. -/
theorem witness_ReservedOffsets (k : Nat) :
    (∃ (s : State) (rest : List HostAct), s.script = .read (4 * (k : Int)) 32 :: rest ∧ s.busy = true) ∧
    (∃ (s : State) (v : Word) (rest : List HostAct), s.script = .write (4 * (k : Int)) 32 v :: rest) ∧
    15 ≤ 63 ∧ accessIndex 0x3C 32 = some 15 ∧ accessIndex 0xFC 32 = some 63 :=
  ⟨⟨{ small with script := [.read (4 * (k : Int)) 32], busy := true, activity := .count }, [], rfl, rfl⟩,
    ⟨{ small with script := [.write (4 * (k : Int)) 32 7] }, 7, [], rfl⟩, by decide, by decide, by decide⟩

/-- An offer with one place left, an offer to a full port while the core can move, a take of the last token, a take from
an empty port while the core can move. -/
theorem witness_PortsAreFifo :
    (∃ (s : State) (t : InToken), s.script = [.offer t] ∧ s.inPort.length + 1 = s.inDepth) ∧
    (∃ (s u : State) (t : InToken), s.script = [.offer t] ∧ s.inPort.length = s.inDepth ∧ step s = .next u) ∧
    (∃ (s : State) (t : OutToken), s.script = [.take] ∧ s.outPort = [t]) ∧
    (∃ s u : State, s.script = [.take] ∧ s.outPort = [] ∧ step s = .next u) :=
  ⟨⟨{ small with script := [.offer .eoi], inDepth := 1 }, .eoi, rfl, rfl⟩,
    ⟨{ small with script := [.offer .eoi], inDepth := 1, inPort := [.eoi], busy := true, activity := .count }, _, .eoi,
      rfl, rfl, rfl⟩,
    ⟨{ small with script := [.take], outPort := [.eoo] }, .eoo, rfl, rfl⟩,
    ⟨{ small with script := [.take], busy := true, activity := .finish none }, _, rfl, rfl, rfl⟩⟩

theorem witness_NopOnlyCompletes : small.pace = none := rfl

/-- Seven bits pending and N = 32, with exactly the room needed; and the least N that is illegal. -/
theorem witness_PutbitsWritesLowBits :
    (∃ (s : State) (n : BitVec 6), s.pace = none ∧ n.toNat = 32 ∧ s.bw.wf = true ∧ s.bw.n.val = 7 ∧
      s.outPort.length + (s.bw.n.val + n.toNat) / 8 = s.outDepth) ∧
    (∃ (s : State) (n : BitVec 6), s.pace = none ∧ n.toNat = 33) :=
  ⟨⟨{ small with bw := ⟨0x55, 7⟩, outDepth := 4 }, 32, rfl, rfl, by decide, rfl, rfl⟩, ⟨small, 33, rfl, rfl⟩⟩

theorem witness_FlushClosesSegment :
    (∃ s : State, s.pace = none ∧ s.bw.n.val = 0 ∧ s.outPort.length + 1 = s.outDepth) ∧
    (∃ s : State, s.pace = none ∧ s.bw.n.val = 7 ∧ s.outPort.length + 2 = s.outDepth) :=
  ⟨⟨{ small with outDepth := 1 }, rfl, rfl, rfl⟩, ⟨{ small with bw := ⟨0x7F, 7⟩, outDepth := 2 }, rfl, rfl, rfl⟩⟩

theorem witness_GetbitReturnsNextBit :
    (∃ s : State, s.pace = none ∧ s.br.n.val = 1) ∧
    (∃ s : State, s.pace = none ∧ s.br.n.val = 0 ∧ s.inPort = [.byte 0x80]) ∧
    (∃ s : State, s.pace = none ∧ s.br.n.val = 0 ∧ s.inPort = [.eoi]) ∧
    (∃ s : State, s.pace = none ∧ s.br.n.val = 0 ∧ s.inPort = [.ioerr]) ∧
    (∃ s : State, s.pace = none ∧ s.br.n.val = 0 ∧ s.inPort = []) :=
  ⟨⟨{ small with br := ⟨0x80, 1⟩ }, rfl, rfl⟩, ⟨{ small with inPort := [.byte 0x80] }, rfl, rfl, rfl⟩,
    ⟨{ small with inPort := [.eoi] }, rfl, rfl, rfl⟩, ⟨{ small with inPort := [.ioerr] }, rfl, rfl, rfl⟩,
    ⟨small, rfl, rfl, rfl⟩⟩

/-- A misaligned reader and a segment of two bytes; and the empty segment. -/
theorem witness_CountBuildsTable :
    (∃ (s : State) (bs : List Byte) (rest : List InToken), s.pace = none ∧ s.br.wf = true ∧ s.br.n.val = 7 ∧
      s.inPort = bytesIn bs ++ .eoi :: rest ∧ bs.length = 2 ∧ bs.length ≤ Config.maxBytes) ∧
    (∃ s : State, s.pace = none ∧ s.br.wf = true ∧ s.inPort = bytesIn [] ++ [.eoi]) :=
  ⟨⟨{ small with br := ⟨0xFE, 7⟩, inPort := segment [1, 2] [] }, [1, 2], [], rfl, by decide, rfl, rfl, rfl, by decide⟩,
    ⟨{ small with inPort := [.eoi] }, rfl, by decide, rfl⟩⟩

/-- COUNT's two errors: IOERR after one byte; and the byte after the last one it may count. -/
theorem witness_CountFails :
    (∃ (s : State) (bs : List Byte), s.br.wf = true ∧ s.pace = none ∧ s.inPort = bytesIn bs ++ [.ioerr] ∧
      bs.length = 1 ∧ bs.length ≤ Config.maxBytes) ∧
    (∃ (s : State) (b : Byte) (bs : List Byte), s.br.wf = true ∧ s.activity = .count ∧ s.pending = [] ∧
      s.segEnded = false ∧ s.symCnt.toNat = Config.maxBytes ∧ s.inPort = .byte b :: (bytesIn bs ++ [.eoi])) :=
  ⟨⟨{ small with inPort := [.byte 1, .ioerr] }, [1], by decide, rfl, rfl, rfl, by decide⟩,
    ⟨{ small with busy := true, activity := .count, symCnt := 0xFFFFFFFE, inPort := [.byte 1, .byte 2, .eoi] }, 1, [2],
      by decide, rfl, rfl, rfl, by decide, rfl⟩⟩

/-- The last symbol and the first index past it. -/
theorem witness_FreqRdReadsCount :
    small.pace = none ∧ (256 : Symbol).val = (256 : BitVec 10).toNat ∧ 256 < (257 : BitVec 10).toNat := by decide

theorem witness_FreqWrWritesCount :
    small.pace = none ∧ (256 : Symbol).val = (256 : BitVec 10).toNat ∧ (0 : Symbol).val = (0 : BitVec 10).toNat ∧
    256 < (257 : BitVec 10).toNat ∧ 256 < (1023 : BitVec 10).toNat := by decide

theorem witness_HdrEmitWritesHeader :
    ∃ s : State, s.pace = none ∧ s.bw.wf = true ∧ s.bw.n.val = 7 ∧ s.outPort.length + 1036 = s.outDepth :=
  ⟨{ small with bw := ⟨0x55, 7⟩, outDepth := 1036 }, rfl, by decide, rfl, rfl⟩

theorem aabHeader_length : (headerBytes aabFreq).length = 1036 := by decide +kernel

theorem groups_aligned (bs : List Byte) : groups (inputBits ⟨0, 0⟩ bs) = bs := by
  have h := groups_bytes bs [] (by simp)
  rw [List.append_nil] at h
  exact h

theorem witness_HdrLoadLoadsTable :
    ∃ (s : State) (f : FreqTable) (bs : List Byte) (rest : List InToken),
      s.pace = none ∧ s.br.wf = true ∧ LegalTable f ∧ bs.length = 1036 ∧ s.inPort = bytesIn bs ++ rest ∧
      groups (inputBits s.br bs) = headerBytes f :=
  ⟨aabFile, aabFreq, headerBytes aabFreq, segment [0x2C] [], rfl, by decide, aabFreq_legal, aabHeader_length, rfl, groups_aligned _⟩

theorem witness_HdrLoadAcceptsOnlyHeaders :
    ∃ (s t : State) (bs : List Byte) (rest : List InToken),
      s.pace = none ∧ s.br.wf = true ∧ s.busy = true ∧ s.err = false ∧ bs.length = 1036 ∧ s.inPort = bytesIn bs ++ rest ∧
      exec .hdrLoad s = .next t ∧ t.busy = false ∧ t.err = false :=
  ⟨aabFile, after .hdrLoad aabFile, headerBytes aabFreq, segment [0x2C] [], rfl, by decide, rfl, rfl, aabHeader_length, rfl,
    exec_after _ _, test_hdrLoad.2.2.2.2⟩

/-- A segment that HDR_LOAD finds, ended by `e`. -/
def headerIn (br : BitReader) (bs : List Byte) (e : InToken) : State :=
  { roomy with busy := true, br := br, inPort := bytesIn bs ++ [e] }

/-- What the statement's clauses share: a state that meets its premises, and the groups its reader makes. -/
def HeaderWitness (e : InToken) (g : List Byte) : Prop :=
  ∃ (s : State) (bs : List Byte), s.pace = none ∧ s.br.wf = true ∧ s.segEnded = false ∧
    s.inPort = bytesIn bs ++ [e] ∧ groups (inputBits s.br bs) = g

theorem headerWitness_aligned (e : InToken) (g : List Byte) : HeaderWitness e g :=
  ⟨headerIn ⟨0, 0⟩ g e, g, rfl, by show BitReader.wf ⟨0, 0⟩ = true; decide, rfl, rfl, groups_aligned g⟩

/-- What the truncation clause asks of the bytes `g` of a cut header. -/
def GoodSoFar (f : FreqTable) (g : List Byte) : Prop :=
  g.length < 1036 ∧
  g.take (if g.length < 4 then 0 else if g.length = 7 then 6 else g.length) =
    (headerBytes f).take (if g.length < 4 then 0 else if g.length = 7 then 6 else g.length) ∧
  ((f.toList.take ((g.length - 8) / 4)).map BitVec.toNat).sum ≤ Config.cntMax

def CutWitness (e : InToken) (f : FreqTable) (g : List Byte) : Prop := HeaderWitness e g ∧ GoodSoFar f g

theorem cutWitness {e : InToken} {f : FreqTable} {g : List Byte}
    (h : g.length < 1036 ∧
      g.take (if g.length < 4 then 0 else if g.length = 7 then 6 else g.length) =
        (headerBytes f).take (if g.length < 4 then 0 else if g.length = 7 then 6 else g.length) ∧
      ((f.toList.take ((g.length - 8) / 4)).map BitVec.toNat).sum ≤ Config.cntMax) : CutWitness e f g :=
  ⟨headerWitness_aligned e g, h⟩

/-- One header for each check on the fixed bytes, in the statement's order. Cut at once, inside the magic and inside the
entry count (both wrong so far), after 10 bytes (L1-7) and after 1035; cut after a first entry of CNT_MAX and inside the
entry behind it that no legal table has. Then the bad values of L1-7, the magic with a reader that holds four bits. -/
theorem witness_HdrLoadFindsBadHeader :
    CutWitness .eoi aabFreq [] ∧ CutWitness .eoi aabFreq [0x99, 0x55] ∧
    CutWitness .ioerr aabFreq [0x48, 0x55, 0x46, 0x46, 0x01, 0x04, 0x99] ∧
    CutWitness .eoi aabFreq ((headerBytes aabFreq).take 10) ∧ CutWitness .ioerr aabFreq ((headerBytes aabFreq).take 1035) ∧
    (let f : FreqTable := (zeroFreq.set 0 0xFFFFFFFF).set 1 0xFFFFFFFF
     CutWitness .eoi f ((headerBytes f).take 12) ∧ CutWitness .ioerr f ((headerBytes f).take 15)) ∧
    (HeaderWitness .eoi [0x48, 0x55, 0x46, 0x58] ∧ ([0x48, 0x55, 0x46, 0x58] : List Byte) ≠ [0x48, 0x55, 0x46, 0x46]) ∧
    (∃ (s : State) (bs : List Byte), s.pace = none ∧ s.br.wf = true ∧ s.br.n.val = 4 ∧ s.segEnded = false ∧
      s.inPort = bytesIn bs ++ [.eoi] ∧ groups (inputBits s.br bs) = [0x48, 0x55, 0x46, 0x58]) ∧
    (HeaderWitness .eoi ([0x48, 0x55, 0x46, 0x46] ++ [0x02]) ∧ (0x02 : Byte) ≠ 0x01) ∧
    (HeaderWitness .ioerr ([0x48, 0x55, 0x46, 0x46, 0x01] ++ [0x08]) ∧ (0x08 : Byte) ≠ 0x04) ∧
    (HeaderWitness .eoi ([0x48, 0x55, 0x46, 0x46, 0x01, 0x04] ++ [0x01, 0x00]) ∧
      ([0x01, 0x00] : List Byte) ≠ [0x01, 0x01]) :=
  ⟨cutWitness (by decide +kernel), cutWitness (by decide +kernel), cutWitness (by decide +kernel),
    cutWitness (by decide +kernel), cutWitness (by decide +kernel),
    ⟨cutWitness (by decide +kernel), cutWitness (by decide +kernel)⟩,
    ⟨headerWitness_aligned .., by decide⟩,
    ⟨headerIn ⟨0x40, 4⟩ [0x85, 0x54, 0x65, 0x80] .eoi, [0x85, 0x54, 0x65, 0x80], rfl,
      by show BitReader.wf ⟨0x40, 4⟩ = true; decide, rfl, rfl, rfl,
      by show groups (inputBits ⟨0x40, 4⟩ _) = _; decide⟩,
    ⟨headerWitness_aligned .., by decide⟩, ⟨headerWitness_aligned .., by decide⟩, ⟨headerWitness_aligned .., by decide⟩⟩

/-- L1-7: entry 256 = 2 with a small sum; and the sum that passes CNT_MAX at entry 65 and at entry 256. -/
theorem witness_HdrLoadFindsBadHeader_entries :
    (HeaderWitness .eoi (headerBytes (aabFreq.set 256 2) ++ []) ∧
      (((aabFreq.set 256 2).toList.take 256).map BitVec.toNat).sum ≤ Config.cntMax ∧ (aabFreq.set 256 2)[256] ≠ 1) ∧
    (HeaderWitness .eoi ((headerBytes (aabFreq.set 0 0xFFFFFFFF)).take (12 + 4 * 65) ++ [0x99]) ∧
      (((aabFreq.set 0 0xFFFFFFFF).toList.take 65).map BitVec.toNat).sum ≤ Config.cntMax ∧
      Config.cntMax < (((aabFreq.set 0 0xFFFFFFFF).toList.take 66).map BitVec.toNat).sum) ∧
    (let f : FreqTable := (zeroFreq.set 0 0xFFFFFFFF).set 256 1
     HeaderWitness .ioerr ((headerBytes f).take (12 + 4 * 256) ++ []) ∧ f[256] = 1 ∧
      ((f.toList.take 256).map BitVec.toNat).sum ≤ Config.cntMax ∧
      Config.cntMax < ((f.toList.take 257).map BitVec.toNat).sum) :=
  ⟨⟨headerWitness_aligned .., by decide +kernel, by decide +kernel⟩,
    ⟨headerWitness_aligned .., by decide +kernel, by decide +kernel⟩,
    ⟨headerWitness_aligned .., by decide +kernel, by decide +kernel, by decide +kernel⟩⟩

/-- T-AAB's table; the table of an empty input; and the table of all 256 byte values (L2-10). -/
theorem witness_BuildMakesTree :
    (∃ s : State, s.pace = none ∧ LegalTable s.freq ∧ s.freq[(0x41 : Symbol)] = 2) ∧
    LegalTable (zeroFreq.set 256 1) ∧ LegalTable (Vector.replicate 257 1) := by
  refine ⟨⟨{ small with freq := aabFreq }, rfl, aabFreq_legal, by decide +kernel⟩, ?_, ?_⟩ <;>
    (unfold LegalTable; decide +kernel)

theorem witness_BuildChecksTable :
    (∃ s : State, s.pace = none ∧ ∀ k : Symbol, s.freq[k] = 0) ∧
    (∃ s : State, s.pace = none ∧ (∃ k : Symbol, s.freq[k] ≠ 0) ∧ s.freq[256] ≠ 1) ∧
    (∃ s : State, s.pace = none ∧ s.freq[256] = 1 ∧ Config.cntMax < tableSum s.freq) :=
  ⟨⟨small, rfl, fun k => zeroFreq_get k⟩,
    ⟨{ small with freq := zeroFreq.set 256 2 }, rfl, ⟨256, by decide +kernel⟩, by decide +kernel⟩,
    ⟨{ small with freq := (zeroFreq.set 0 0xFFFFFFFF).set 256 1 }, rfl, by decide +kernel, by decide +kernel⟩⟩

/-- Three equal counts: the least index wins. -/
theorem witness_QueueGivesLeastKey :
    popLeast [⟨2, 0⟩, ⟨1, 3⟩, ⟨1, 1⟩, ⟨1, 2⟩] = some (⟨1, 1⟩, [⟨2, 0⟩, ⟨1, 3⟩, ⟨1, 2⟩]) := by decide

/-- T-AAB: node 3 joins 1 and 2 while node 0, which no node has for a child yet, is left over with the greater count. -/
theorem witness_TreeShape :
    ∃ f : FreqTable, LegalTable f ∧ (treeOf f).nleaf = 3 ∧ (treeOf f).nodes[3]? = some (.internal 2 1 2) ∧
      (treeOf f).nodes[0]? = some (.leaf 0x41 2) ∧ (treeOf f).nodes[4]? = some (.internal 4 0 3) :=
  ⟨aabFreq, aabFreq_legal, test_tree.2.1, by rw [test_tree.1]; decide, by rw [test_tree.1]; decide,
    by rw [test_tree.1]; decide⟩

/-- NODE_RD's cases on T-AAB: the errors, the last node, a leaf and an internal node. -/
theorem witness_NodeRdReadsNode :
    (aab small).pace = none ∧ (aab small).nnode.toNat ≤ 513 ∧ 1 < (2 : BitVec 4).toNat ∧ small.treeValid = false ∧
    (aab small).treeValid = true ∧ (aab small).nnode.toNat ≤ (5 : BitVec 10).toNat ∧
    (4 : NodeIdx).val = (4 : BitVec 10).toNat ∧ (4 : BitVec 10).toNat < (aab small).nnode.toNat ∧
    (aab small).node[(4 : NodeIdx)] = .internal 4 0 3 ∧ (aab small).node[(2 : NodeIdx)] = .leaf 256 1 := by
  decide +kernel

theorem witness_GencodesRecordsPaths :
    (∃ s : State, s.pace = none ∧ s.treeValid = false) ∧
    (∃ s : State, s.pace = none ∧ s.treeValid = true ∧ LegalTable s.freq ∧ s.TreeOk) :=
  ⟨⟨small, rfl, rfl⟩, ⟨built small, rfl, rfl, aabFreq_legal, built_treeOk small⟩⟩

theorem witness_CodesPrefixFree : ∃ s : State, LegalTable s.freq ∧ s.TreeOk ∧ s.CodesOk :=
  ⟨built small, aabFreq_legal, built_treeOk small, built_codesOk small⟩

theorem witness_CodesComplete :
    ∃ (s : State) (bits : List Bool),
      LegalTable s.freq ∧ s.TreeOk ∧ s.CodesOk ∧ 2 ≤ s.nleaf.toNat ∧ 256 ≤ bits.length :=
  ⟨built small, List.replicate 256 true, aabFreq_legal, built_treeOk small, built_codesOk small,
    by decide +kernel, List.length_replicate.ge⟩

/-- CODE_RD's cases: the errors, an absent entry and a present one, the last symbol and the last SEL. -/
theorem witness_CodeRdReadsEntry :
    (aab small).pace = none ∧ 8 < (9 : BitVec 4).toNat ∧ small.codesValid = false ∧ (aab small).codesValid = true ∧
    256 < (257 : BitVec 10).toNat ∧ (256 : Symbol).val = (256 : BitVec 10).toNat ∧ (8 : BitVec 4).toNat ≤ 8 ∧
    (aab small).code[(67 : Symbol)] = none ∧ (aab small).code[(256 : Symbol)] = some [true, true] := by decide +kernel

/-- L2-6: `41 41 42` with T-AAB's codes, three bits pending, and exactly the room needed. -/
theorem witness_EncodeWritesPayload :
    ∃ (s : State) (bs : List Byte) (rest : List InToken) (codes : List Code) (eos : Code),
      s.pace = none ∧ s.codesValid = true ∧ s.bw.wf = true ∧ s.br.wf = true ∧ s.inPort = bytesIn bs ++ .eoi :: rest ∧
      (groups (inputBits s.br bs)).map (fun g => s.code[byteSymbol g]) = codes.map some ∧
      s.code[(256 : Symbol)] = some eos ∧
      s.outPort.length + (s.bw.n.val + codes.flatten.length + eos.length + 7) / 8 + 1 ≤ s.outDepth :=
  ⟨{ aab small with bw := ⟨5, 3⟩, outDepth := 3, inPort := segment [0x41, 0x41, 0x42] [] }, [0x41, 0x41, 0x42], [],
    [[false], [false], [true, false]], [true, true], rfl, rfl, by decide, by decide, rfl, by decide +kernel,
    by decide +kernel, by decide⟩

/-- L2-6: IOERR after `41`; and `41 43 42 EOI`, where 0x43 has no code. -/
theorem witness_EncodeFails :
    (∃ (s : State) (bs : List Byte) (codes : List Code), s.pace = none ∧ s.codesValid = true ∧ s.bw.wf = true ∧
      s.br.wf = true ∧ s.segEnded = false ∧ s.inPort = bytesIn bs ++ bytesIn [] ++ [.ioerr] ∧
      (groups (inputBits s.br bs)).map (fun g => s.code[byteSymbol g]) = codes.map some ∧
      s.outPort.length + (s.bw.n.val + codes.flatten.length) / 8 + 1 ≤ s.outDepth) ∧
    (∃ (s : State) (bs : List Byte) (codes : List Code) (tail : List Byte) (g : Byte), s.pace = none ∧
      s.codesValid = true ∧ s.bw.wf = true ∧ s.br.wf = true ∧ s.segEnded = false ∧ s.inPort = bytesIn bs ++ bytesIn tail ++ [.eoi] ∧
      (groups (inputBits s.br bs)).map (fun g => s.code[byteSymbol g]) = codes.map some ∧
      s.outPort.length + (s.bw.n.val + codes.flatten.length) / 8 + 1 ≤ s.outDepth ∧
      (groups (inputBits s.br (bs ++ tail)))[bs.length]? = some g ∧ s.code[byteSymbol g] = none) :=
  ⟨⟨{ aab small with inPort := [.byte 0x41, .ioerr], outDepth := 1 }, [0x41], [[false]], rfl, rfl, by decide,
      by decide, rfl, rfl, by decide +kernel, by decide⟩,
    ⟨{ aab small with inPort := segment [0x41, 0x43, 0x42] [], outDepth := 1 }, [0x41], [[false]], [0x43, 0x42], 0x43,
      rfl, rfl, by decide, by decide, rfl, rfl, by decide +kernel, by decide, by decide +kernel, by decide +kernel⟩⟩

theorem aab_isCode (s : State) (h : s.root = 4) (hn : s.node = writeNodes (freeNodes 0) aabNodes) :
    s.IsCode 0x41 [false] ∧ s.IsCode 0x42 [true, false] ∧ s.IsCode 256 [true, true] := by
  unfold State.IsCode
  rw [h, hn]
  exact ⟨⟨0, 2, by decide +kernel, by decide +kernel⟩, ⟨1, 1, by decide +kernel, by decide +kernel⟩,
    ⟨2, 1, by decide +kernel, by decide +kernel⟩⟩

/-- L2-7: `2C EOI` on T-AAB decodes to `41 41 42`; the output port has exactly the room needed. -/
theorem witness_DecodeWritesSymbols :
    ∃ (s : State) (bs : List Byte) (rest : List InToken) (xs : List Byte) (codes : List Code) (eos : Code)
      (tail : List Bool),
      s.pace = none ∧ s.treeValid = true ∧ s.bw.wf = true ∧ s.br.wf = true ∧ s.inPort = bytesIn bs ++ .eoi :: rest ∧
      List.Forall₂ (fun x p => s.IsCode (byteSymbol x) p) xs codes ∧ s.IsCode 256 eos ∧
      inputBits s.br bs = codes.flatten ++ eos ++ tail ∧
      s.outPort.length + (s.bw.n.val + 8 * xs.length + 7) / 8 + 1 ≤ s.outDepth := by
  have c := aab_isCode { aab small with inPort := segment [0x2C] [], outDepth := 4 } rfl rfl
  exact ⟨{ aab small with inPort := segment [0x2C] [], outDepth := 4 }, [0x2C], [], [0x41, 0x41, 0x42],
    [[false], [false], [true, false]], [true, true], [false, false], rfl, rfl, by decide, by decide, rfl,
    .cons c.1 (.cons c.1 (.cons c.2.1 .nil)), c.2.2, by decide, by decide⟩

/-- L2-7: a segment that ends, by EOI or by IOERR, after `41` seven times and the first bit of another code. -/
theorem witness_DecodeFindsTruncation (e : InToken) (he : e = .eoi ∨ e = .ioerr) :
    ∃ (s : State) (bs : List Byte) (rest : List InToken) (xs : List Byte) (codes : List Code) (part : Code)
      (i : NodeIdx) (c : Word) (l r : NodeIdx),
      s.pace = none ∧ s.treeValid = true ∧ s.bw.wf = true ∧ s.br.wf = true ∧ s.inPort = bytesIn bs ++ e :: rest ∧
      (e = .eoi ∨ e = .ioerr) ∧ List.Forall₂ (fun x p => s.IsCode (byteSymbol x) p) xs codes ∧
      follow s.node s.root part = some i ∧ s.node[i] = .internal c l r ∧ inputBits s.br bs = codes.flatten ++ part ∧
      s.outPort.length + (s.bw.n.val + 8 * xs.length) / 8 + 1 ≤ s.outDepth := by
  have c := (aab_isCode { aab small with inPort := [.byte 0x01, e], outDepth := 8 } rfl rfl).1
  obtain rfl | rfl := he
  all_goals exact ⟨_, [0x01], [], List.replicate 7 0x41,
    List.replicate 7 [false], [true], 3, 2, 1, 2, rfl, rfl, by decide, by decide, rfl, by simp,
    .cons c (.cons c (.cons c (.cons c (.cons c (.cons c (.cons c .nil)))))), by decide +kernel, by decide +kernel,
    by decide, by decide⟩

/-- L2-7: `2C FF IOERR 11`, the IOERR met in the drain after EOS. -/
theorem witness_DecodeFindsTruncation_drain :
    ∃ (s : State) (bs : List Byte) (rest : List InToken) (xs : List Byte) (codes : List Code) (eos : Code)
      (tail : List Bool),
      s.pace = none ∧ s.treeValid = true ∧ s.bw.wf = true ∧ s.br.wf = true ∧ s.inPort = bytesIn bs ++ .ioerr :: rest ∧
      List.Forall₂ (fun x p => s.IsCode (byteSymbol x) p) xs codes ∧
      s.outPort.length + (s.bw.n.val + 8 * xs.length) / 8 + 1 = s.outDepth ∧ s.IsCode 256 eos ∧
      inputBits s.br bs = codes.flatten ++ eos ++ tail := by
  have c := aab_isCode { aab small with inPort := [.byte 0x2C, .byte 0xFF, .ioerr, .byte 0x11], outDepth := 4 } rfl rfl
  exact ⟨_, [0x2C, 0xFF], [.byte 0x11], [0x41, 0x41, 0x42], [[false], [false], [true, false]], [true, true],
    [false, false] ++ List.replicate 8 true, rfl, rfl, by decide, by decide, rfl,
    .cons c.1 (.cons c.1 (.cons c.2.1 .nil)), rfl, c.2.2, by decide⟩

theorem witness_StreamCommandsNeedTables : small.pace = none ∧ small.codesValid = false ∧ small.treeValid = false := by
  decide

/-- A state at reset's values but for the given activity and ports has the invariant. -/
theorem quiet_inv (inp : List InToken) (script : List HostAct) (h : inp.length ≤ 16) :
    State.Inv { small with busy := true, activity := .getbit, inPort := inp, script := script } where
  writer := writer_empty_wf
  reader := reader_empty_wf
  memory := reset_memory_wf
  status := by simp [State.StatusOk, small, State.reset]
  control := by simp [State.ControlOk]
  activity := rfl
  ports := by simpa [State.PortsOk, small, State.reset] using h
  flags := by simp [State.FlagsOk, small, State.reset]

theorem witness_StepKeepsInvariant : ∃ s t : State, s.Inv ∧ step s = .next t :=
  ⟨_, _, quiet_inv [.byte 0xA5] [.wait] (by decide), rfl⟩

theorem witness_CommandStopsOnlyAtPorts : ∃ (i : Instr) (s t : State), s.pace = none ∧ exec i s = .next t :=
  ⟨.count, { small with inPort := [.byte 1] }, _, rfl, rfl⟩

theorem witness_CommandEndsInSuccessOrError :
    (∃ (i : Instr) (s t : State), exec i s = .next t ∧ t.activity = .idle ∧ t.err = false) ∧
    (∃ (i : Instr) (s t : State), exec i s = .next t ∧ t.activity = .idle ∧ t.err = true) :=
  ⟨⟨.nop, small, _, rfl, by decide +kernel, by decide +kernel⟩,
    ⟨.decode, small, _, rfl, by decide +kernel, by decide +kernel⟩⟩

theorem witness_CommandsLeaveHostStateAlone : ∃ (i : Instr) (s t : State), exec i s = .next t :=
  ⟨.encode, aab small, _, rfl⟩

theorem witness_TablesAndCountersChangeOnlyByTheirCommands :
    (∃ (i : Instr) (s t : State), exec i s = .next t) ∧ Op.build ∉ [.getbit, .freqRd, .nodeRd, .codeRd] ∧
    Op.count ∉ [.encode, .decode] ∧ Op.build ∉ [.count, .encode, .decode] ∧ Op.encode ≠ .build ∧
    Op.build ∉ [.count, .freqWr, .hdrLoad] ∧ Op.encode ≠ .gencodes :=
  ⟨⟨.build, small, _, rfl⟩, by decide, by decide, by decide, by decide, by decide, by decide⟩

theorem witness_ValidityFlagsChangeOnlyByTheirCommands :
    (∃ s t : State, exec .nop s = .next t ∧ t.treeValid = true ∧ t.codesValid = true) ∧
    Op.nop ∉ [.count, .freqWr, .hdrLoad, .build, .gencodes] ∧ (∃ s t : State, exec .gencodes s = .next t) ∧
    (∃ s t : State, exec .count s = .next t) ∧ (∃ s t : State, exec .build s = .next t) :=
  ⟨⟨aab small, _, rfl, by decide +kernel, by decide +kernel⟩, by decide, ⟨small, _, rfl⟩, ⟨small, _, rfl⟩,
    ⟨small, _, rfl⟩⟩

theorem witness_PortlessCommandsTouchNoPort :
    (∃ (i : Instr) (s t : State), exec i s = .next t ∧ i.op ∉ [.getbit, .count, .hdrLoad, .encode, .decode]) ∧
    (∃ (i : Instr) (s t : State), exec i s = .next t ∧ i.op ∉ [.putbits, .flush, .hdrEmit, .encode, .decode]) :=
  ⟨⟨.flush, small, _, rfl, by decide⟩, ⟨.getbit, small, _, rfl, by decide⟩⟩

theorem witness_CommandsKeepTokenOrder :
    ∃ (i : Instr) (s t : State), exec i s = .next t ∧ s.outPort.length = s.outDepth :=
  ⟨.flush, { small with outDepth := 1, outPort := [.eoo] }, _, rfl, rfl⟩

theorem witness_NoLookahead : ∃ (i : Instr) (s t : State), exec i s = .next t ∧ t.activity = .idle :=
  ⟨.getbit, { small with inPort := [.byte 0xA5] }, _, rfl, by decide +kernel⟩

/-- GETBIT waits until its byte is offered; FLUSH waits at a full port of one token until the host takes it. -/
theorem witness_PortTimingChangesNoResult :
    (∃ (s u t : State) (d : Nat), (∀ a ∈ s.script, a.onPorts = true) ∧ exec .getbit s = .next u ∧
      Host.Core.run core 2 u = .next t ∧ t.script = [] ∧ t.activity = .idle ∧ t.result = 1 ∧
      t.taken.length + t.outPort.length ≤ d) ∧
    (∃ (s u t : State), (∀ a ∈ s.script, a.onPorts = true) ∧ exec .flush s = .next u ∧
      Host.Core.run core 2 u = .next t ∧ t.script = [] ∧ t.activity = .idle ∧ t.taken = [.byte 0xA0] ∧
      t.outPort = [.eoo] ∧ t.taken.length + t.outPort.length ≤ 2) :=
  ⟨⟨{ small with busy := true, script := [.offer (.byte 0xA5)] }, _, _, 0, by simp [HostAct.onPorts], rfl, rfl,
      by decide +kernel, by decide +kernel, by decide +kernel, by decide +kernel⟩,
    ⟨{ small with busy := true, outDepth := 1, bw := ⟨5, 3⟩, script := [.take] }, _, _, by simp [HostAct.onPorts], rfl, rfl,
      by decide +kernel, by decide +kernel, by decide +kernel, by decide +kernel, by decide +kernel⟩⟩

/-- R9: an idle core whose host has nothing more to do, with every output token taken and with one untaken. -/
theorem witness_RunEndsWhenAllIsTaken :
    (∃ s : State, s.ControlOk ∧ step s = .fault .runEnded) ∧
    (∃ s : State, s.ControlOk ∧ step s = .fault .outputUntaken ∧ s.outPort = [.eoo]) :=
  ⟨⟨small, by simp [State.ControlOk, small, State.reset], rfl⟩,
    ⟨{ small with outPort := [.eoo] }, by simp [State.ControlOk, small, State.reset], rfl, rfl⟩⟩

/-- A command waits at an empty input port and the host has nothing to do. -/
theorem witness_HangOnlyAtBlockedPort : ∃ s : State, s.Inv ∧ step s = .fault .hang :=
  ⟨_, quiet_inv [] [] (by decide), rfl⟩

theorem witness_TerminatorEmptiesReader :
    ∃ s t : State, s.Inv ∧ s.segEnded = false ∧ coreMove s = some t ∧ t.segEnded = true :=
  ⟨_, _, quiet_inv [.eoi] [] (by decide), rfl, rfl, rfl⟩

/-- `41 41 42` on T-AAB's tree and codes. -/
theorem witness_PayloadDecodesToItself :
    ∃ (s u t : State) (x : List Byte) (rest : List InToken),
      LegalTable s.freq ∧ s.TreeOk ∧ s.CodesOk ∧ s.codesValid = true ∧ s.pace = none ∧ s.bw = ⟨0, 0⟩ ∧ s.br = ⟨0, 0⟩ ∧
      s.inPort = bytesIn x ++ .eoi :: rest ∧ s.outPort = [] ∧ 256 * (x.length + 1) + 1 ≤ s.outDepth ∧
      (∀ b ∈ x, s.freq[byteSymbol b] ≠ 0) ∧ exec .encode s = .next t ∧
      u.treeValid = true ∧ u.node = s.node ∧ u.root = s.root ∧ u.pace = none ∧ u.bw = ⟨0, 0⟩ ∧ u.br = ⟨0, 0⟩ ∧
      u.outPort = [] ∧ x.length + 2 ≤ u.outDepth :=
  ⟨built { roomy with inPort := segment [0x41, 0x41, 0x42] [] }, built { small with inPort := segment [0x2C] [] }, _,
    [0x41, 0x41, 0x42], [], aabFreq_legal, built_treeOk _, built_codesOk _, rfl, rfl, rfl, rfl, rfl, rfl, by decide,
    by decide +kernel, rfl, rfl, rfl, rfl, rfl, rfl, rfl, rfl, by decide⟩

/-- COMPRESS and DECOMPRESS of `41 41 42` (L3-1, L3-2). -/
theorem witness_DecompressInvertsCompress :
    ∃ (s u : State) (x : List Byte) (rest : List InToken) (next next' : List HostAct), x.length ≤ Config.maxBytes ∧
      s.busy = false ∧ s.err = false ∧ s.pace = none ∧ s.bw = ⟨0, 0⟩ ∧ s.br = ⟨0, 0⟩ ∧ s.outPort = [] ∧
      1036 + 256 * (x.length + 1) + 1 ≤ s.outDepth ∧
      s.inPort = bytesIn x ++ .eoi :: (bytesIn x ++ .eoi :: rest) ∧
      s.script = cmdWrite 0x10 :: cmdWrite 0x13 :: cmdWrite 0x20 :: cmdWrite 0x30 :: cmdWrite 0x40 :: next ∧
      u.busy = false ∧ u.err = false ∧ u.pace = none ∧ u.bw = ⟨0, 0⟩ ∧ u.br = ⟨0, 0⟩ ∧ u.outPort = [] ∧
      x.length + 2 ≤ u.outDepth ∧ u.script = cmdWrite 0x14 :: cmdWrite 0x20 :: cmdWrite 0x50 :: next' :=
  ⟨{ roomy with
      inDepth := 4096, outDepth := 4096, inPort := segment [0x41, 0x41, 0x42] (segment [0x41, 0x41, 0x42] [])
      script := [cmdWrite 0x10, cmdWrite 0x13, cmdWrite 0x20, cmdWrite 0x30, cmdWrite 0x40] },
    { small with script := [cmdWrite 0x14, cmdWrite 0x20, cmdWrite 0x50] }, [0x41, 0x41, 0x42], [], [], [], by decide,
    rfl, rfl, rfl, rfl, rfl, rfl, by decide, rfl, rfl, rfl, rfl, rfl, rfl, rfl, rfl, by decide, rfl⟩

end Sys2Proof.Machine
end

section
/-! PROOF. What a command does is independent of the ports' timing, and how a command and a run can stop (00_scope.md R8,
R9, R11): the statements CommandStopsOnlyAtPorts (O46), PortTimingChangesNoResult (O58) and RunEndsWhenAllIsTaken (O59).

A started command is running, and a command ends only by `State.complete` with nothing left to emit (`State.IdleOk`), so a
core that can no longer move is idle and clean, or blocked (O46). With the ports' timing taken out (`State.atOnce`) a host
that only works the ports does nothing, and the core's moves are the moves of the run with all tokens and room at hand;
so that run passes through every state the served command passes through, and ends with it (O58). -/
namespace Sys2Proof.Machine

/-! What the host owns: no move and no start of a command writes it (R11, R34, R37, R38). -/

/-- The part of the state that only the host's actions write: IE, REJ, DATA, the ports' depths, and the host's own
record. -/
structure HostSide where
  ie : Bool
  rej : Bool
  data : Word
  inDepth : Nat
  outDepth : Nat
  script : List HostAct
  taken : List OutToken
  busReads : List Word
  pace : Option Nat
  freeCtr : Nat

/-- The host's part of s. -/
def State.hostSide (s : State) : HostSide :=
  ⟨s.ie, s.rej, s.data, s.inDepth, s.outDepth, s.script, s.taken, s.busReads, s.pace, s.freeCtr⟩

@[simp] theorem State.raise_hostSide (e : ErrCode) (info : Word) (a : Bool) (s : State) :
    (s.raise e info a).hostSide = s.hostSide := by
  simp [State.hostSide]

@[simp] theorem State.complete_hostSide (v : Option (ErrCode × Word)) (s : State) :
    (s.complete v).hostSide = s.hostSide := by
  cases v <;> rfl

theorem State.complete_outPort (v : Option (ErrCode × Word)) (s : State) : (s.complete v).outPort = s.outPort := by
  cases v <;> rfl

theorem State.complete_pending (v : Option (ErrCode × Word)) (s : State) : (s.complete v).pending = s.pending := by
  cases v <;> rfl

theorem State.complete_busy (v : Option (ErrCode × Word)) (s : State) : (s.complete v).busy = false := by
  cases v <;> rfl

/-- What a turn of a loop and a step of DECODE's walk keep from u to t: the host's part and the output port, and a command
that runs goes on running. -/
structure TurnFrame (u t : State) : Prop where
  hostSide : t.hostSide = u.hostSide
  outPort : t.outPort = u.outPort
  running : u.activity ≠ .idle → t.activity ≠ .idle

theorem raise_turnFrame {u v : State} (e : ErrCode) (info : Word) (a : Bool) (hh : v.hostSide = u.hostSide)
    (ho : v.outPort = u.outPort) : TurnFrame u (v.raise e info a) where
  hostSide := (State.raise_hostSide ..).trans hh
  outPort := (State.raise_outPort ..).trans ho
  running _ := raise_activity e info a v

theorem decodeLeaf_turnFrame (sym : Symbol) (u : State) : TurnFrame u (decodeLeaf sym u) := by
  unfold decodeLeaf
  split
  · constructor <;> simp [State.hostSide]
  · constructor <;> simp [State.hostSide]

theorem decodeBit_turnFrame (l r : NodeIdx) (bit : Bool × BitReader) (u : State) :
    TurnFrame u (decodeBit l r bit u) :=
  ⟨rfl, rfl, by simp [decodeBit]⟩

theorem countToken_turnFrame (tok : InToken) (u : State) : TurnFrame u (countToken tok u) := by
  cases tok with
  | byte b =>
    unfold countToken
    dsimp only
    split
    · exact raise_turnFrame _ _ _ (by simp [State.hostSide]) (by simp)
    · constructor <;> simp [State.hostSide]
  | eoi => constructor <;> simp [countToken, State.hostSide]
  | ioerr => exact raise_turnFrame _ _ _ rfl rfl

theorem hdrLoadToken_turnFrame (h : List Byte) (sum : Nat) (tok : InToken) (u : State) :
    TurnFrame u (hdrLoadToken h sum tok u) := by
  cases tok with
  | byte b =>
    unfold hdrLoadToken
    dsimp only
    split
    · exact raise_turnFrame _ _ _ (by simp [State.hostSide]) (by simp)
    · constructor <;> simp [State.hostSide]
    · split
      · constructor <;> simp [State.hostSide]
      · constructor <;> simp [State.hostSide]
  | eoi => exact raise_turnFrame _ _ _ rfl rfl
  | ioerr => exact raise_turnFrame _ _ _ rfl rfl

theorem encodeToken_turnFrame (tok : InToken) (u : State) : TurnFrame u (encodeToken tok u) := by
  cases tok with
  | byte b =>
    unfold encodeToken
    dsimp only
    split
    · exact raise_turnFrame _ _ _ (by simp [State.hostSide]) (by simp)
    · constructor <;> simp [State.hostSide]
  | eoi => constructor <;> simp [encodeToken, encodeEnd, State.hostSide]
  | ioerr => exact raise_turnFrame _ _ _ rfl rfl

/-- Every turn of a loop keeps the frame, whatever its token. -/
theorem Turn.frame {s : State} {act : InToken → State → State} (ht : Turn s act) (tok : InToken) (u : State) :
    TurnFrame u (act tok u) := by
  cases ht with
  | getbit =>
    cases tok with
    | byte b => constructor <;> simp [getbitToken, gotBit, State.hostSide]
    | eoi => constructor <;> simp [getbitToken, State.hostSide]
    | ioerr => exact raise_turnFrame _ _ _ rfl rfl
  | count => exact countToken_turnFrame tok u
  | hdrLoad h sum => exact hdrLoadToken_turnFrame h sum tok u
  | encode => exact encodeToken_turnFrame tok u
  | decode cur c l r =>
    cases tok with
    | byte b => exact decodeBit_turnFrame ..
    | eoi => exact raise_turnFrame _ _ _ rfl rfl
    | ioerr => exact raise_turnFrame _ _ _ rfl rfl
  | decodeEnd =>
    cases tok with
    | byte b => exact ⟨rfl, rfl, id⟩
    | eoi => constructor <;> simp [decodeEndToken, State.hostSide]
    | ioerr => exact raise_turnFrame _ _ _ rfl rfl
  | errDrain e info a =>
    unfold drainToken
    split
    · constructor <;> simp [State.hostSide]
    · exact ⟨rfl, rfl, id⟩

/-- A loop stands in a running command. -/
theorem Turn.running {s : State} {act : InToken → State → State} (ht : Turn s act) : s.activity ≠ .idle := by
  cases ht <;> simp [*]

/-- No move writes the host's part (R11, R34, R37, R38). -/
theorem coreMove_hostSide {s t : State} (h : coreMove s = some t) : t.hostSide = s.hostSide := by
  cases coreMove_move h with
  | emit => rfl
  | complete v => exact State.complete_hostSide v s
  | leaf cur sym => exact (decodeLeaf_turnFrame sym s).hostSide
  | bit cur c l r => exact (decodeBit_turnFrame l r _ s).hostSide
  | token tok rest act hp ht => exact (ht.frame tok _).hostSide

/-- A move puts at most new tokens behind those the output port holds (R82). -/
theorem coreMove_outPort {s t : State} (h : coreMove s = some t) : s.outPort <+: t.outPort := by
  cases coreMove_move h with
  | emit tok => exact List.prefix_append ..
  | complete v => rw [State.complete_outPort]
  | leaf cur sym => rw [(decodeLeaf_turnFrame sym s).outPort]
  | bit cur c l r => rw [(decodeBit_turnFrame l r _ s).outPort]
  | token tok rest act hp ht => rw [(ht.frame tok _).outPort]

theorem coreRun_hostSide (n : Nat) (s : State) : (coreRun n s).hostSide = s.hostSide :=
  coreRun_keeps (P := fun t => t.hostSide = s.hostSide) (fun _ _ hs hm => (coreMove_hostSide hm).trans hs) n s rfl

theorem coreRun_outPort (n : Nat) (s : State) : s.outPort <+: (coreRun n s).outPort :=
  coreRun_keeps (P := fun t => s.outPort <+: t.outPort) (fun _ _ hs hm => hs.trans (coreMove_outPort hm)) n s
    (List.prefix_refl _)

theorem script_eq_of_hostSide {s t : State} (h : t.hostSide = s.hostSide) : t.script = s.script :=
  congrArg HostSide.script h

theorem taken_eq_of_hostSide {s t : State} (h : t.hostSide = s.hostSide) : t.taken = s.taken :=
  congrArg HostSide.taken h

theorem pace_eq_of_hostSide {s t : State} (h : t.hostSide = s.hostSide) : t.pace = s.pace :=
  congrArg HostSide.pace h

/-- Nor does the start of a command write the host's part. -/
theorem start_hostSide (i : Instr) (s : State) : (start i s).hostSide = s.hostSide := by
  cases i <;> simp only [start, startPutbits, startFlush, startGetbit, startCount, startFreqRd, startFreqWr,
    startHdrEmit, startHdrLoad, startBuild, startNodeRd, startGencodes, startCodeRd, startEncode, startDecode, gotBit]
  all_goals (repeat' split) <;> simp [State.hostSide]

/-! An idle core is done (R31, R35). -/

/-- If no command runs, BUSY = 0 and nothing is left to emit. -/
def State.IdleOk (s : State) : Prop := s.activity = .idle → s.busy = false ∧ s.pending = []

theorem idleOk_of_running {s : State} (h : s.activity ≠ .idle) : s.IdleOk := fun ha => absurd ha h

theorem coreMove_idle {s : State} (hp : s.pending = []) (ha : s.activity = .idle) : coreMove s = none := by
  simp [coreMove, hp, ha]

theorem coreMove_idleOk (s t : State) (hs : s.IdleOk) (h : coreMove s = some t) : t.IdleOk := by
  cases coreMove_move h with
  | emit tok rest hp => exact fun ha => absurd (hs ha).2 (by simp [hp])
  | complete v hp => exact fun _ => ⟨State.complete_busy v s, (State.complete_pending v s).trans hp⟩
  | leaf cur sym c hp ha => exact idleOk_of_running ((decodeLeaf_turnFrame sym s).running (by simp [ha]))
  | bit cur c l r hp ha => exact idleOk_of_running ((decodeBit_turnFrame l r _ s).running (by simp [ha]))
  | token tok rest act hp ht => exact idleOk_of_running ((ht.frame tok _).running ht.running)

theorem exec_idleOk {i : Instr} {s t : State} (h : exec i s = .next t) : t.IdleOk :=
  exec_keeps coreMove_idleOk h (idleOk_of_running (start_activity i s))

/-- Settles O46: the command's run has stopped, so the core is blocked at a port or idle, and an idle core is done. -/
theorem commandStopsOnlyAtPorts : Obligations.CommandStopsOnlyAtPorts := by
  unfold Obligations.CommandStopsOnlyAtPorts
  intro i s t hpace h
  have hidle : t.IdleOk := exec_idleOk h
  have hstop : coreMove t = none := by
    have hp : (start i s).pace = none := (pace_eq_of_hostSide (start_hostSide i s)).trans hpace
    rw [exec_eq_next.mp h, launch_eager hp]
    exact runOn_stopped _
  rcases coreMove_eq_none hstop with ⟨hp, hfull⟩ | ⟨hp, ha⟩ | ⟨hp, ha, hin⟩
  · exact .inr (.inr ⟨fun ha => hp (hidle ha).2, hp, hfull⟩)
  · exact .inl ⟨(hidle ha).1, ha, hp⟩
  · exact .inr (.inl ⟨ha, hp, hin⟩)

/-! How a step stops (log 11). -/

theorem coreInstead_fault {s : State} {r : Fault} (h : coreInstead s = .fault r) : r = .hang ∨ r = .hostBlocked := by
  unfold coreInstead at h
  split at h
  · simp at h
  · split at h
    · exact .inl (Host.Outcome.fault.inj h).symm
    · exact .inr (Host.Outcome.fault.inj h).symm

/-- A register write always has a next state. -/
theorem writeReg_next (k : Nat) (v : Word) (s : State) : ∃ t, writeReg k v s = .next t := by
  unfold writeReg
  split
  · exact ⟨_, rfl⟩
  · exact ⟨_, rfl⟩
  · unfold writeCmd issue
    split
    · exact ⟨_, rfl⟩
    · split
      · exact ⟨_, exec_eq ..⟩
      · exact ⟨_, rfl⟩
  · exact ⟨_, rfl⟩
  · exact ⟨_, rfl⟩

/-- A host action stops the step only because it waits at a port or for a command that cannot move. -/
theorem hostAct_fault {a : HostAct} {rest : List HostAct} {s : State} {r : Fault} (h : hostAct a rest s = .fault r) :
    r = .hang ∨ r = .hostBlocked := by
  cases a with
  | write off bits v =>
    simp only [hostAct] at h
    split at h
    · simp at h
    · rename_i k _
      obtain ⟨t, ht⟩ := writeReg_next k v { s with script := rest }
      simp [ht] at h
  | read off bits =>
    simp only [hostAct] at h
    split at h <;> simp at h
  | offer tok =>
    simp only [hostAct] at h
    split at h
    · simp at h
    · exact coreInstead_fault h
  | take =>
    simp only [hostAct] at h
    split at h
    · exact coreInstead_fault h
    · simp at h
  | wait =>
    simp only [hostAct] at h
    split at h
    · exact coreInstead_fault h
    · simp at h
  | resetPin => simp [hostAct] at h
  | coreTurn n => simp [hostAct] at h
  | pace p => simp [hostAct] at h

/-- A stop that is no host action's waiting is found with no host action left. -/
theorem step_fault_alone {s : State} {r : Fault} (h : step s = .fault r) (h1 : r ≠ .hang) (h2 : r ≠ .hostBlocked) :
    s.script = [] ∧ coreAlone s = .fault r := by
  unfold step at h
  split at h
  · exact ⟨‹_›, h⟩
  · rcases hostAct_fault h with rfl | rfl
    · exact absurd rfl h1
    · exact absurd rfl h2

theorem step_alone {s : State} (h : s.script = []) : step s = coreAlone s := by
  simp [step, h]

/-- With no host action left, a stop other than `hang` is an idle core's. -/
theorem coreAlone_fault_idle {s : State} {r : Fault} (h : coreAlone s = .fault r) (h1 : r ≠ .hang) : s.busy = false := by
  unfold coreAlone at h
  split at h
  · simp at h
  · split at h
    · exact absurd (Host.Outcome.fault.inj h).symm h1
    · simpa using ‹¬ s.busy = true›

theorem step_fault_idle {s : State} {r : Fault} (h : step s = .fault r) (h1 : r ≠ .hang) (h2 : r ≠ .hostBlocked) :
    s.busy = false ∧ s.script = [] := by
  obtain ⟨hs, ha⟩ := step_fault_alone h h1 h2
  exact ⟨coreAlone_fault_idle ha h1, hs⟩

/-- The step of an idle core whose host is done. -/
theorem step_idle_done {s : State} (hc : s.ControlOk) (hb : s.busy = false) (hs : s.script = []) :
    step s = if s.outPort = [] then .fault .runEnded else .fault .outputUntaken := by
  have hm : coreMove s = none := coreMove_idle (hc.2 hb) (hc.1.mp hb)
  rw [step_alone hs, coreAlone_stops s hm hb]
  simp [State.runEnded, hb, hs]

/-- Settles O59: both stops are found only by a step with no host action left and an idle core, and there the output port
decides between them. -/
theorem runEndsWhenAllIsTaken : Obligations.RunEndsWhenAllIsTaken := by
  unfold Obligations.RunEndsWhenAllIsTaken
  intro s hc
  constructor
  · constructor
    · intro h
      obtain ⟨hb, hs⟩ := step_fault_idle h (by simp) (by simp)
      rw [step_idle_done hc hb hs] at h
      exact ⟨hb, hs, by simpa using h⟩
    · rintro ⟨hb, hs, ho⟩
      rw [step_idle_done hc hb hs, if_pos ho]
  · constructor
    · intro h
      obtain ⟨hb, hs⟩ := step_fault_idle h (by simp) (by simp)
      rw [step_idle_done hc hb hs] at h
      exact ⟨hb, hs, by simpa using h⟩
    · rintro ⟨hb, hs, ho⟩
      rw [step_idle_done hc hb hs, if_neg ho]

/-! A command starts alike with the ports' timing taken out: each start, by the cases of its definition. -/

/-- A branch on what the timing does not touch. -/
theorem ite_atOnce {p : Prop} [Decidable p] {d : Nat} {a b a' b' : State} (ha : a' = a.atOnce d)
    (hb : b' = b.atOnce d) : (if p then a' else b') = (if p then a else b).atOnce d := by
  subst ha hb
  exact (apply_ite (State.atOnce d) p a b).symm

theorem startHdrEmit_atOnce (d : Nat) (s : State) : startHdrEmit (s.atOnce d) = (startHdrEmit s).atOnce d := by
  rw [startHdrEmit_eq, startHdrEmit_eq, State.atOnce_bw, State.atOnce_freq]
  generalize s.bw.writeAll ((headerBytes s.freq).flatMap (lowBits · 8)) = r
  rfl

theorem startFreqRd_atOnce (idx : BitVec 10) (d : Nat) (s : State) :
    startFreqRd idx (s.atOnce d) = (startFreqRd idx s).atOnce d := by
  unfold startFreqRd
  cases symbolOf idx with
  | none => exact (raise_atOnce ..).symm
  | some k => rfl

theorem startFreqWr_atOnce (idx : BitVec 10) (d : Nat) (s : State) :
    startFreqWr idx (s.atOnce d) = (startFreqWr idx s).atOnce d := by
  unfold startFreqWr
  cases symbolOf idx with
  | none => exact (raise_atOnce ..).symm
  | some k => rfl

theorem startBuild_atOnce (d : Nat) (s : State) : startBuild (s.atOnce d) = (startBuild s).atOnce d := by
  unfold startBuild
  rw [State.atOnce_freq]
  cases buildCheck s.freq with
  | none => rfl
  | some v => exact (raise_atOnce d { s.invalidate with nleaf := 0, nnode := 0, root := 0 } v.1 v.2 false).symm

theorem startNodeRd_atOnce (idx : BitVec 10) (sel : BitVec 4) (d : Nat) (s : State) :
    startNodeRd idx sel (s.atOnce d) = (startNodeRd idx sel s).atOnce d := by
  refine ite_atOnce ?_ (raise_atOnce ..).symm
  rw [show (s.atOnce d).nnode = s.nnode from rfl]
  cases nodeOf idx s.nnode with
  | none => exact (raise_atOnce ..).symm
  | some k => rfl

theorem startCodeRd_atOnce (idx : BitVec 10) (sel : BitVec 4) (d : Nat) (s : State) :
    startCodeRd idx sel (s.atOnce d) = (startCodeRd idx sel s).atOnce d := by
  refine ite_atOnce ?_ (raise_atOnce ..).symm
  cases symbolOf idx with
  | none => exact (raise_atOnce ..).symm
  | some k => rfl

/-- Every command starts alike. -/
theorem start_atOnce (i : Instr) (d : Nat) (s : State) : start i (s.atOnce d) = (start i s).atOnce d := by
  cases i with
  | nop => rfl
  | putbits n => exact ite_atOnce rfl (raise_atOnce ..).symm
  | flush => rfl
  | getbit => exact ite_atOnce rfl rfl
  | count => rfl
  | freqRd idx => exact startFreqRd_atOnce idx d s
  | freqWr idx => exact startFreqWr_atOnce idx d s
  | hdrEmit => exact startHdrEmit_atOnce d s
  | hdrLoad => rfl
  | build => exact startBuild_atOnce d s
  | nodeRd idx sel => exact ite_atOnce (startNodeRd_atOnce idx sel d s) (raise_atOnce ..).symm
  | gencodes => exact ite_atOnce rfl (raise_atOnce ..).symm
  | codeRd idx sel => exact ite_atOnce (startCodeRd_atOnce idx sel d s) (raise_atOnce ..).symm
  | encode => exact ite_atOnce rfl (raise_atOnce ..).symm
  | decode => exact ite_atOnce rfl (raise_atOnce ..).symm

/-! A served command and the same command with everything at hand (R8, R11). -/

/-- How many output tokens the host has taken or the port still holds. -/
def State.emitted (s : State) : Nat := s.taken.length + s.outPort.length

theorem length_outPort_atOnce (d : Nat) (s : State) : (s.atOnce d).outPort.length = s.emitted :=
  List.length_append

theorem coreRun_emitted (n : Nat) (s : State) : s.emitted ≤ (coreRun n s).emitted := by
  have ht : (coreRun n s).taken = s.taken := taken_eq_of_hostSide (coreRun_hostSide n s)
  have ho := (coreRun_outPort n s).length_le
  simp only [State.emitted, ht]
  omega

/-- With everything at hand, the core's run to its end passes through every state it reaches in n moves. -/
theorem runOn_atOnce_coreRun (d n : Nat) (s : State) (hd : (coreRun n s).emitted ≤ d) :
    runOn (s.atOnce d) = runOn ((coreRun n s).atOnce d) := by
  induction n generalizing s with
  | zero => rfl
  | succ n ih =>
    cases hm : coreMove s with
    | none => rw [coreRun_stopped hm]
    | some v =>
      rw [coreRun_move hm] at hd ⊢
      have hv : v.emitted ≤ d := (coreRun_emitted n v).trans hd
      rw [runOn_move (coreMove_atOnce d hm hv), ih v hd]

/-- From s to t the host at most works the ports, which with the timing taken out changes nothing, and the core moves. -/
def ServedTo (s t : State) : Prop :=
  ∃ (v : State) (n : Nat), (∀ d, v.atOnce d = s.atOnce d) ∧ v.script ⊆ s.script ∧ t = coreRun n v

theorem servedTo_runOn (s : State) : ServedTo s (runOn s) := ⟨s, moveBound s, fun _ => rfl, List.Subset.refl _, rfl⟩

theorem servedTo_coreRun {s v : State} {a : HostAct} (n : Nat) (hs : s.script = a :: v.script)
    (hv : ∀ d, v.atOnce d = s.atOnce d) : ServedTo s (coreRun n v) :=
  ⟨v, n, hv, hs ▸ List.subset_cons_self .., rfl⟩

theorem coreInstead_servedTo {s t : State} (h : coreInstead s = .next t) : ServedTo s t :=
  (coreInstead_next h).2 ▸ servedTo_runOn s

/-- A host action on the ports serves the command: it waits while the core runs, or goes through. -/
theorem hostAct_servedTo {a : HostAct} {rest : List HostAct} {s t : State} (ha : a.onPorts = true)
    (hs : s.script = a :: rest) (h : hostAct a rest s = .next t) : ServedTo s t := by
  cases a with
  | offer tok =>
    simp only [hostAct] at h
    split at h
    · obtain rfl := Host.Outcome.next.inj h
      exact servedTo_coreRun 0 hs fun d => by simp [State.atOnce, hs, HostAct.offered]
    · exact coreInstead_servedTo h
  | take =>
    simp only [hostAct] at h
    split at h
    · exact coreInstead_servedTo h
    · rename_i tok port hp
      obtain rfl := Host.Outcome.next.inj h
      exact servedTo_coreRun 0 hs fun d => by simp [State.atOnce, hs, hp, List.filterMap_cons, HostAct.offered]
  | wait =>
    simp only [hostAct] at h
    split at h
    · exact coreInstead_servedTo h
    · obtain rfl := Host.Outcome.next.inj h
      exact servedTo_coreRun 0 hs fun d => by simp [State.atOnce, hs, List.filterMap_cons, HostAct.offered]
  | coreTurn n =>
    obtain rfl := Host.Outcome.next.inj h
    exact servedTo_coreRun n hs fun d => by simp [State.atOnce, hs, List.filterMap_cons, HostAct.offered]
  | write off bits v => simp [HostAct.onPorts] at ha
  | read off bits => simp [HostAct.onPorts] at ha
  | resetPin => simp [HostAct.onPorts] at ha
  | pace p => simp [HostAct.onPorts] at ha

theorem coreAlone_servedTo {s t : State} (h : coreAlone s = .next t) : ServedTo s t := by
  unfold coreAlone at h
  split at h
  · exact Host.Outcome.next.inj h ▸ servedTo_runOn s
  · (repeat' split at h) <;> simp at h

theorem step_servedTo {s t : State} (hs : ∀ a ∈ s.script, a.onPorts = true) (h : step s = .next t) : ServedTo s t := by
  unfold step at h
  split at h
  · exact coreAlone_servedTo h
  · rename_i a rest hscript
    exact hostAct_servedTo (hs a (by simp [hscript])) hscript h

theorem idleOk_of_atOnce_eq {s v : State} {d : Nat} (h : v.atOnce d = s.atOnce d) (hs : s.IdleOk) : v.IdleOk :=
  have hs' : (s.atOnce d).IdleOk := hs
  have hv' : (v.atOnce d).IdleOk := h ▸ hs'
  hv'

/-- However long the host serves, the run with everything at hand goes on from u as from t. -/
theorem run_onPorts (d n : Nat) {u t : State} (hs : ∀ a ∈ u.script, a.onPorts = true) (hu : u.IdleOk)
    (h : Host.Core.run core n u = .next t) (hd : t.emitted ≤ d) :
    u.emitted ≤ d ∧ t.IdleOk ∧ runOn (u.atOnce d) = runOn (t.atOnce d) := by
  induction n generalizing u with
  | zero =>
    obtain rfl : u = t := Host.Outcome.next.inj h
    exact ⟨hd, hu, rfl⟩
  | succ n ih =>
    cases hstep : step u with
    | fault r => simp [Host.Core.run, core, hstep] at h
    | refused r => simp [Host.Core.run, core, hstep] at h
    | next w =>
      have hrun : Host.Core.run core n w = .next t := by simpa [Host.Core.run, core, hstep] using h
      obtain ⟨v, k, hv, hscript, rfl⟩ := step_servedTo hs hstep
      have hw : ∀ a ∈ (coreRun k v).script, a.onPorts = true := fun a ha =>
        hs a (hscript (script_eq_of_hostSide (coreRun_hostSide k v) ▸ ha))
      have hwOk : (coreRun k v).IdleOk := coreRun_keeps coreMove_idleOk k v (idleOk_of_atOnce_eq (hv d) hu)
      obtain ⟨hwd, ht, heq⟩ := ih hw hwOk hrun
      have hvu : v.emitted = u.emitted := by rw [← length_outPort_atOnce d, hv, length_outPort_atOnce]
      exact ⟨hvu ▸ (coreRun_emitted k v).trans hwd, ht, by rw [← hv, runOn_atOnce_coreRun d k v hwd, heq]⟩

theorem launch_eq_coreRun (s : State) : ∃ k, launch s = coreRun k s := by
  unfold launch runOn
  split
  · exact ⟨_, rfl⟩
  · exact ⟨_, rfl⟩

/-- Settles O58: with everything at hand the core runs on from the command's start through every state the served command
passes through, and t, where the command has ended, is where it stops. -/
theorem portTimingChangesNoResult : Obligations.PortTimingChangesNoResult := by
  unfold Obligations.PortTimingChangesNoResult
  intro i s u t n d hports hexec hrun _ hidle hd
  have huOk : u.IdleOk := exec_idleOk hexec
  obtain ⟨k, hk⟩ := launch_eq_coreRun (start i s)
  obtain rfl : u = coreRun k (start i s) := (exec_eq_next.mp hexec).trans hk
  have hscript : (coreRun k (start i s)).script = s.script :=
    script_eq_of_hostSide ((coreRun_hostSide k _).trans (start_hostSide i s))
  obtain ⟨hu, ht, hserved⟩ := run_onPorts d n (hscript.symm ▸ hports) huOk hrun hd
  have hstop : coreMove (t.atOnce d) = none := coreMove_idle (ht hidle).2 hidle
  refine exec_eq_next.mpr ?_
  calc t.atOnce d
    _ = runOn (t.atOnce d) := (runOn_of_stopped hstop).symm
    _ = runOn ((coreRun k (start i s)).atOnce d) := hserved.symm
    _ = runOn ((start i s).atOnce d) := (runOn_atOnce_coreRun d k _ hu).symm
    _ = launch ((start i s).atOnce d) := (launch_eager rfl).symm
    _ = launch (start i (s.atOnce d)) := by rw [start_atOnce]

end Sys2Proof.Machine
end

section
/-! PROOF. What a command can write (10_state.md R34-R43, R55-R59): the statements CommandsLeaveHostStateAlone (O48),
TablesAndCountersChangeOnlyByTheirCommands (O49) and ValidityFlagsChangeOnlyByTheirCommands (O50).

A command is its start, then moves. The start writes the validity flags and the tables of the tree at once (`prepared`), and
everything after that is a step of the command's operation (`OpStep`): it leaves the flags, those tables and the ports alone
(`State.settled`), and writes RESULT, the counters and FREQ only where its operation may (`OpFrame`). Such a step also keeps
what the invariant says of the bit buffers and of the loops, which the next part uses. -/
namespace Sys2Proof.Machine

/-! The parts of the state that no loop of a command writes. -/

/-- The validity flags, the tree registers, NODE and CODE (R36, R43, R57, R59). -/
structure TableSide where
  treeValid : Bool
  codesValid : Bool
  nleaf : BitVec 9
  nnode : BitVec 10
  root : NodeIdx
  node : NodeTable
  code : CodeTable

/-- These parts of s. -/
def State.tableSide (s : State) : TableSide :=
  ⟨s.treeValid, s.codesValid, s.nleaf, s.nnode, s.root, s.node, s.code⟩

/-- What stands while a command runs, its OutWrites and its completion apart: the tables, the ports as the last token taken
left them, and the bits of STATUS with ERRINFO. -/
structure Settled where
  tables : TableSide
  inPort : List InToken
  outPort : List OutToken
  inDepth : Nat
  outDepth : Nat
  busy : Bool
  done : Bool
  err : Bool
  errCode : BitVec 8
  errInfo : Word

/-- These parts of s. -/
def State.settled (s : State) : Settled :=
  ⟨s.tableSide, s.inPort, s.outPort, s.inDepth, s.outDepth, s.busy, s.done, s.err, s.errCode, s.errInfo⟩

@[simp] theorem State.raise_settled (e : ErrCode) (info : Word) (a : Bool) (s : State) :
    (s.raise e info a).settled = s.settled := by
  simp [State.settled, State.tableSide]

/-! What the error epilogue's first part and the bit buffers' operations keep (R60, R61, R318). -/

theorem raise_bw_wf (e : ErrCode) (info : Word) (a : Bool) (s : State) (h : s.bw.wf = true) :
    (s.raise e info a).bw.wf = true := by
  unfold State.raise
  split
  · split
    · cases a <;> simp [h]
    · exact h
  · exact h

theorem raise_br_wf (e : ErrCode) (info : Word) (a : Bool) (s : State) (h : s.br.wf = true) :
    (s.raise e info a).br.wf = true := by
  unfold State.raise
  split
  · split
    · simp
    · exact h
  · exact h

theorem raise_activityOk (e : ErrCode) (info : Word) (a : Bool) (s : State) : (s.raise e info a).ActivityOk := by
  unfold State.raise
  split
  · split
    · trivial
    · assumption
  · trivial

theorem discarded_wf (br : BitReader) (h : br.wf = true) : br.discarded.wf = true := by
  rw [discarded_eq_empty br h]; exact reader_empty_wf

theorem close_wf (bw : BitWriter) (h : bw.wf = true) : bw.close.1.wf = true := by
  rw [(close_spec bw h).1]; exact writer_empty_wf

/-! Where a command of one operation can stand, and what it can write. -/

/-- The operation whose loop stands here, if only one has it. -/
def Activity.loopOf : Activity → Option Op
  | .idle => none
  | .getbit => some .getbit
  | .count => some .count
  | .hdrLoad _ _ => some .hdrLoad
  | .encode => some .encode
  | .decode _ => some .decode
  | .decodeEnd => some .decode
  | .errDrain _ _ _ => none
  | .finish _ => none

/-- Can a command of operation o stand here? -/
def Activity.FitsIn (a : Activity) (o : Op) : Prop := a.loopOf = none ∨ a.loopOf = some o

theorem Activity.FitsIn.eq {a : Activity} {o p : Op} (h : a.FitsIn o) (hp : a.loopOf = some p) : p = o := by
  simpa [Activity.FitsIn, hp] using h

theorem Activity.exists_fits (a : Activity) : ∃ o, a.FitsIn o := by
  cases h : a.loopOf with
  | none => exact ⟨.nop, .inl h⟩
  | some o => exact ⟨o, .inr h⟩

theorem raise_fits (e : ErrCode) (info : Word) (a : Bool) (s : State) (o : Op) :
    (s.raise e info a).activity.FitsIn o := by
  unfold State.raise
  split
  · split <;> exact .inl rfl
  · exact .inl rfl

/-- From s to t RESULT, the counters and FREQ are written only where operation o may (R39, R41, R42, R55). -/
structure OpFrame (o : Op) (s t : State) : Prop where
  result : o ∉ [.getbit, .freqRd, .nodeRd, .codeRd] → t.result = s.result
  bitCnt : o ∉ [.encode, .decode] → t.bitCnt = s.bitCnt
  symCnt : o ∉ [.count, .encode, .decode] → t.symCnt = s.symCnt
  freq : o ∉ [.count, .freqWr, .hdrLoad] → t.freq = s.freq

theorem OpFrame.of_eq {o : Op} {s t : State} (hr : t.result = s.result) (hb : t.bitCnt = s.bitCnt)
    (hs : t.symCnt = s.symCnt) (hf : t.freq = s.freq) : OpFrame o s t :=
  ⟨fun _ => hr, fun _ => hb, fun _ => hs, fun _ => hf⟩

theorem OpFrame.trans {o : Op} {s t u : State} (h : OpFrame o s t) (h' : OpFrame o t u) : OpFrame o s u where
  result ho := (h'.result ho).trans (h.result ho)
  bitCnt ho := (h'.bitCnt ho).trans (h.bitCnt ho)
  symCnt ho := (h'.symCnt ho).trans (h.symCnt ho)
  freq ho := (h'.freq ho).trans (h.freq ho)

/-- v differs from u in what operation o may write, in bit buffers that keep R60 and R61, and in where the command
stands. -/
structure OpKeeps (o : Op) (u v : State) : Prop extends OpFrame o u v where
  settled : v.settled = u.settled
  writer : u.bw.wf = true → v.bw.wf = true
  reader : u.br.wf = true → v.br.wf = true

namespace OpKeeps
variable {o : Op} {u v : State}

theorem refl (o : Op) (u : State) : OpKeeps o u u := ⟨.of_eq rfl rfl rfl rfl, rfl, id, id⟩

theorem setReader {br : BitReader} (h : OpKeeps o u v) (hbr : u.br.wf = true → br.wf = true) :
    OpKeeps o u { v with br := br } := ⟨⟨h.result, h.bitCnt, h.symCnt, h.freq⟩, h.settled, h.writer, hbr⟩

theorem setWriter {bw : BitWriter} (h : OpKeeps o u v) (hbw : u.bw.wf = true → bw.wf = true) :
    OpKeeps o u { v with bw := bw } := ⟨⟨h.result, h.bitCnt, h.symCnt, h.freq⟩, h.settled, hbw, h.reader⟩

theorem setResult {w : Word} (h : OpKeeps o u v) (ho : o ∈ [.getbit, .freqRd, .nodeRd, .codeRd]) :
    OpKeeps o u { v with result := w } :=
  ⟨⟨(absurd ho ·), h.bitCnt, h.symCnt, h.freq⟩, h.settled, h.writer, h.reader⟩

theorem setBitCnt {c : BitVec 64} (h : OpKeeps o u v) (ho : o ∈ [.encode, .decode]) :
    OpKeeps o u { v with bitCnt := c } :=
  ⟨⟨h.result, (absurd ho ·), h.symCnt, h.freq⟩, h.settled, h.writer, h.reader⟩

theorem countBits {k : Nat} (h : OpKeeps o u v) (ho : o ∈ [.encode, .decode]) : OpKeeps o u (v.countBits k) :=
  h.setBitCnt ho

theorem setSymCnt {c : Word} (h : OpKeeps o u v) (ho : o ∈ [.count, .encode, .decode]) :
    OpKeeps o u { v with symCnt := c } :=
  ⟨⟨h.result, h.bitCnt, (absurd ho ·), h.freq⟩, h.settled, h.writer, h.reader⟩

theorem countSymbol (h : OpKeeps o u v) (ho : o ∈ [.count, .encode, .decode]) : OpKeeps o u v.countSymbol :=
  h.setSymCnt ho

theorem setFreq {k : Nat} {w : Word} (h : OpKeeps o u v) (ho : o ∈ [.count, .freqWr, .hdrLoad]) :
    OpKeeps o u (v.setFreq k w) :=
  ⟨⟨h.result, h.bitCnt, h.symCnt, (absurd ho ·)⟩, h.settled, h.writer, h.reader⟩

theorem clearFreq (h : OpKeeps o u v) (ho : o ∈ [.count, .freqWr, .hdrLoad]) : OpKeeps o u v.clearFreq :=
  ⟨⟨h.result, h.bitCnt, h.symCnt, (absurd ho ·)⟩, h.settled, h.writer, h.reader⟩

end OpKeeps

/-- A step of a command of operation o from u to t: in t such a command can stand, with what the invariant asks there. -/
structure OpStep (o : Op) (u t : State) : Prop extends OpKeeps o u t where
  fits : t.activity.FitsIn o
  activityOk : u.ActivityOk → t.ActivityOk

/-- The command goes on in a loop of its operation. -/
theorem OpKeeps.goOn {o : Op} {u v : State} {out : List OutToken} {a : Activity} (h : OpKeeps o u v)
    (ha : a.loopOf = some o) (hok : u.ActivityOk → State.ActivityOk { v with pending := out, activity := a }) :
    OpStep o u { v with pending := out, activity := a } :=
  ⟨⟨⟨h.result, h.bitCnt, h.symCnt, h.freq⟩, h.settled, h.writer, h.reader⟩, .inr ha, hok⟩

namespace OpStep
variable {o : Op} {u v : State}

theorem raise {e : ErrCode} {info : Word} {a : Bool} (h : OpKeeps o u v) : OpStep o u (v.raise e info a) where
  result ho := (State.raise_result ..).trans (h.result ho)
  bitCnt ho := (State.raise_bitCnt ..).trans (h.bitCnt ho)
  symCnt ho := (State.raise_symCnt ..).trans (h.symCnt ho)
  freq ho := (State.raise_freq ..).trans (h.freq ho)
  settled := (State.raise_settled ..).trans h.settled
  writer hw := raise_bw_wf _ _ _ _ (h.writer hw)
  reader hr := raise_br_wf _ _ _ _ (h.reader hr)
  fits := raise_fits ..
  activityOk _ := raise_activityOk ..

theorem succeed {out : List OutToken} (h : OpKeeps o u v) : OpStep o u (v.succeed out) :=
  ⟨⟨⟨h.result, h.bitCnt, h.symCnt, h.freq⟩, h.settled, h.writer, h.reader⟩, .inl rfl, fun _ => trivial⟩

theorem same (h : u.activity.FitsIn o) : OpStep o u u := ⟨.refl o u, h, id⟩

end OpStep

/-! Every turn of a loop is a step of its operation. -/

variable {u : State}

theorem gotBit_opStep {r : Bool × BitReader} (h : u.br.wf = true → r.2.wf = true) : OpStep .getbit u (gotBit r u) :=
  .succeed (((OpKeeps.refl _ u).setReader h).setResult (by decide))

theorem getbitToken_opStep (tok : InToken) (u : State) : OpStep .getbit u (getbitToken tok u) := by
  cases tok with
  | byte b => exact gotBit_opStep (readBit_wf _ _)
  | eoi => exact .succeed ((OpKeeps.refl _ u).setResult (by decide))
  | ioerr => exact .raise (.refl _ u)

theorem countToken_opStep (ha : u.activity = .count) (tok : InToken) : OpStep .count u (countToken tok u) := by
  cases tok with
  | byte b =>
    have hwf := readGroup8_wf u.br b
    have hv : u.ActivityOk → u.treeValid = false := by simp [State.ActivityOk, ha]
    unfold countToken
    dsimp only
    generalize u.br.readGroup8 b = r at hwf ⊢
    have hk := (OpKeeps.refl .count u).setReader hwf
    split
    · exact .raise (hk.clearFreq (by decide))
    · exact ((hk.setFreq (by decide)).countSymbol (by decide)).goOn rfl hv
  | eoi => exact .succeed (((OpKeeps.refl _ u).setReader (discarded_wf _)).setFreq (by decide))
  | ioerr => exact .raise (((OpKeeps.refl _ u).setReader (discarded_wf _)).clearFreq (by decide))

/-- A header's last byte completes its last entry, so it is never passed over (R197, R198). -/
theorem headerVerdict_more {i : Nat} {h : List Byte} {sum : Nat} (hi : i < Config.hdrLen)
    (hv : headerVerdict i h sum = .more) : i + 1 < Config.hdrLen := by
  by_contra hlast
  have h1035 : i = 1035 := by simp only [Config.hdrLen] at hi hlast; omega
  simp only [headerVerdict, h1035] at hv
  (repeat' split at hv) <;> simp_all

theorem hdrLoadToken_opStep {h : List Byte} {sum : Nat} (ha : u.activity = .hdrLoad h sum) (tok : InToken) :
    OpStep .hdrLoad u (hdrLoadToken h sum tok u) := by
  cases tok with
  | byte b =>
    have hwf := readGroup8_wf u.br b
    have hpos : u.ActivityOk → u.treeValid = false ∧ h.length < Config.hdrLen := by simp [State.ActivityOk, ha]
    unfold hdrLoadToken
    dsimp only
    generalize u.br.readGroup8 b = r at hwf ⊢
    have hk := (OpKeeps.refl .hdrLoad u).setReader hwf
    split
    · exact .raise (hk.clearFreq (by decide))
    · rename_i hv
      exact hk.goOn rfl fun hok => ⟨(hpos hok).1, headerVerdict_more (hpos hok).2 hv⟩
    · split
      · exact .succeed (hk.setFreq (by decide))
      · rename_i hlast
        refine (hk.setFreq (by decide)).goOn rfl fun hok => ⟨(hpos hok).1, ?_⟩
        have := (hpos hok).2
        simp only [List.length_cons]
        omega
  | eoi => exact .raise (((OpKeeps.refl _ u).setReader (discarded_wf _)).clearFreq (by decide))
  | ioerr => exact .raise (((OpKeeps.refl _ u).setReader (discarded_wf _)).clearFreq (by decide))

theorem encodeEnd_opStep {v : State} (h : OpKeeps .encode u v) (hbw : v.bw = u.bw) : OpStep .encode u (encodeEnd v) :=
  .succeed ((h.setWriter fun hw => close_wf _ (writeAll_wf _ _ (hbw ▸ hw))).countBits (by decide))

theorem encodeToken_opStep (ha : u.activity = .encode) (tok : InToken) : OpStep .encode u (encodeToken tok u) := by
  cases tok with
  | byte b =>
    have hwf := readGroup8_wf u.br b
    have hv : u.ActivityOk → u.codesValid = true := by simp [State.ActivityOk, ha]
    unfold encodeToken
    dsimp only
    generalize u.br.readGroup8 b = r at hwf ⊢
    have hk := (OpKeeps.refl .encode u).setReader hwf
    split
    · exact .raise hk
    · rename_i p _
      exact (((hk.setWriter (writeAll_wf u.bw p)).countBits (by decide)).countSymbol (by decide)).goOn rfl hv
  | eoi => exact encodeEnd_opStep ((OpKeeps.refl _ u).setReader (discarded_wf _)) rfl
  | ioerr => exact .raise ((OpKeeps.refl _ u).setReader (discarded_wf _))

theorem decodeLeaf_opStep {cur : NodeIdx} (ha : u.activity = .decode cur) (sym : Symbol) :
    OpStep .decode u (decodeLeaf sym u) := by
  have hv : u.ActivityOk → u.treeValid = true := by simp [State.ActivityOk, ha]
  unfold decodeLeaf
  split
  · exact ((OpKeeps.refl .decode u).setReader fun _ => reader_empty_wf).goOn rfl fun hok => ⟨rfl, hv hok⟩
  · have hwf := writeAll_wf u.bw (lowBits (BitVec.ofNat 8 sym.val) 8)
    generalize u.bw.writeAll _ = r at hwf ⊢
    exact (((OpKeeps.refl .decode u).setWriter hwf).countSymbol (by decide)).goOn rfl hv

theorem decodeBit_opStep {cur : NodeIdx} (ha : u.activity = .decode cur) (l r : NodeIdx) (b : Byte) :
    OpStep .decode u (decodeBit l r (u.br.readBit b) u) :=
  have hs := ((OpKeeps.refl .decode u).setReader (readBit_wf u.br b)).countBits (k := 1) (by decide)
  hs.goOn rfl (by simp [State.ActivityOk, ha])

theorem decodeToken_opStep {cur : NodeIdx} (ha : u.activity = .decode cur) (l r : NodeIdx) (tok : InToken) :
    OpStep .decode u (decodeToken l r tok u) := by
  cases tok with
  | byte b => exact decodeBit_opStep ha l r b
  | eoi => exact .raise (.refl _ u)
  | ioerr => exact .raise (.refl _ u)

theorem decodeEndToken_opStep (ha : u.activity = .decodeEnd) (tok : InToken) :
    OpStep .decode u (decodeEndToken tok u) := by
  cases tok with
  | byte b => exact .same (.inr (by rw [ha]; rfl))
  | eoi => exact .succeed ((OpKeeps.refl _ u).setWriter (close_wf _))
  | ioerr => exact .raise (.refl _ u)

theorem drainToken_opStep {e : ErrCode} {info : Word} {a : Bool} (o : Op) (ha : u.activity = .errDrain e info a)
    (tok : InToken) : OpStep o u (drainToken e info a tok u) := by
  unfold drainToken
  split
  · refine ⟨⟨.of_eq rfl rfl rfl rfl, rfl, fun hw => ?_, fun _ => reader_empty_wf⟩,
      .inl rfl, fun _ => trivial⟩
    cases a
    · exact hw
    · exact writer_empty_wf
  · exact .same (.inl (by rw [ha]; rfl))

/-- A turn of any loop, u being the state with the token taken. -/
theorem Turn.opStep {o : Op} {act : InToken → State → State} (ht : Turn u act) (ho : u.activity.FitsIn o)
    (tok : InToken) : OpStep o u (act tok u) := by
  cases ht with
  | getbit ha => exact ho.eq (by rw [ha]; rfl) ▸ getbitToken_opStep tok u
  | count ha => exact ho.eq (by rw [ha]; rfl) ▸ countToken_opStep ha tok
  | hdrLoad h sum ha => exact ho.eq (by rw [ha]; rfl) ▸ hdrLoadToken_opStep ha tok
  | encode ha => exact ho.eq (by rw [ha]; rfl) ▸ encodeToken_opStep ha tok
  | decode cur c l r ha => exact ho.eq (by rw [ha]; rfl) ▸ decodeToken_opStep ha l r tok
  | decodeEnd ha => exact ho.eq (by rw [ha]; rfl) ▸ decodeEndToken_opStep ha tok
  | errDrain e info a ha => exact drainToken_opStep o ha tok

/-! Every move is an OutWrite, a completion, or a step of the running command's operation. -/

/-- Taking its token leaves a loop where it stands. -/
theorem Turn.taken {s : State} {act : InToken → State → State} (ht : Turn s act) (rest : List InToken) (e : Bool) :
    Turn { s with inPort := rest, segEnded := e } act := by
  cases ht with
  | getbit ha => exact .getbit ha
  | count ha => exact .count ha
  | hdrLoad h sum ha => exact .hdrLoad h sum ha
  | encode ha => exact .encode ha
  | decode cur c l r ha hn hb => exact .decode cur c l r ha hn hb
  | decodeEnd ha => exact .decodeEnd ha
  | errDrain e info a ha => exact .errDrain e info a ha

theorem State.complete_tableSide (v : Option (ErrCode × Word)) (s : State) :
    (s.complete v).tableSide = s.tableSide := by
  cases v <;> rfl

theorem complete_opFrame (o : Op) (v : Option (ErrCode × Word)) (s : State) : OpFrame o s (s.complete v) := by
  cases v <;> exact .of_eq rfl rfl rfl rfl

/-- A move writes RESULT, the counters and FREQ only where its operation may. -/
theorem coreMove_opFrame {o : Op} {s t : State} (ho : s.activity.FitsIn o) (h : coreMove s = some t) :
    OpFrame o s t ∧ t.activity.FitsIn o := by
  cases coreMove_move h with
  | emit => exact ⟨.of_eq rfl rfl rfl rfl, ho⟩
  | complete v => exact ⟨complete_opFrame o v s, .inl (by cases v <;> rfl)⟩
  | leaf cur sym c hp ha =>
    obtain rfl : .decode = o := ho.eq (by rw [ha]; rfl)
    have hl := decodeLeaf_opStep ha sym
    exact ⟨hl.toOpFrame, hl.fits⟩
  | bit cur c l r hp ha =>
    obtain rfl : .decode = o := ho.eq (by rw [ha]; rfl)
    have hl := decodeBit_opStep ha l r 0
    exact ⟨hl.toOpFrame, hl.fits⟩
  | token tok rest act hp ht =>
    have hl := (ht.taken rest (s.segEnded || tok.terminates)).opStep ho tok
    exact ⟨⟨hl.result, hl.bitCnt, hl.symCnt, hl.freq⟩, hl.fits⟩

/-- No move writes the flags, the tree registers, NODE or CODE. -/
theorem coreMove_tableSide {s t : State} (h : coreMove s = some t) : t.tableSide = s.tableSide := by
  cases coreMove_move h with
  | emit => rfl
  | complete v => exact State.complete_tableSide v s
  | leaf cur sym c hp ha => exact congrArg Settled.tables (decodeLeaf_opStep ha sym).settled
  | bit cur c l r hp ha => exact congrArg Settled.tables (decodeBit_opStep ha l r 0).settled
  | token tok rest act hp ht =>
    obtain ⟨o, ho⟩ := s.activity.exists_fits
    exact congrArg Settled.tables ((ht.taken rest (s.segEnded || tok.terminates)).opStep ho tok).settled

/-! The start of a command. -/

/-- What the start of a command writes to the validity flags, the tree registers, NODE and CODE; nothing after it writes
them (R36, R43, R57, R59). -/
def prepared (i : Instr) (s : State) : State :=
  match i with
  | .count => s.invalidate
  | .hdrLoad => s.invalidate
  | .freqWr idx => if (symbolOf idx).isSome then s.invalidate else s
  | .build =>
    if buildCheck s.freq = none then
      { s with
        treeValid := true
        codesValid := false
        node := writeNodes s.node (treeOf s.freq).nodes
        nleaf := BitVec.ofNat 9 (treeOf s.freq).nleaf
        nnode := BitVec.ofNat 10 (treeOf s.freq).nodes.length
        root := Fin.ofNat 513 (treeOf s.freq).root }
    else { s.invalidate with nleaf := 0, nnode := 0, root := 0 }
  | .gencodes => if s.treeValid then { s with codesValid := true, code := codesOf s.node s.root } else s
  | _ => s

theorem prepared_opFrame (i : Instr) (s : State) : OpFrame i.op s (prepared i s) := by
  cases i <;> simp only [prepared] <;> (repeat' split) <;> exact .of_eq rfl rfl rfl rfl

theorem startFreqWr_opStep (idx : BitVec 10) (s : State) :
    OpStep .freqWr (prepared (.freqWr idx) s) (startFreqWr idx s) := by
  unfold startFreqWr prepared
  dsimp only
  cases symbolOf idx with
  | none => exact .raise (.refl _ s)
  | some k => exact .succeed ((OpKeeps.refl .freqWr s.invalidate).setFreq (by decide))

theorem startBuild_opStep (s : State) : OpStep .build (prepared .build s) (startBuild s) := by
  unfold startBuild prepared
  dsimp only
  cases buildCheck s.freq with
  | none => exact .succeed (.refl _ _)
  | some v => exact .raise (.refl _ _)

theorem startPutbits_opStep (n : BitVec 6) (s : State) : OpStep .putbits s (startPutbits n s) := by
  rw [startPutbits_eq]
  exact .succeed ((OpKeeps.refl _ s).setWriter (writeAll_wf _ _))

theorem startFlush_opStep (s : State) : OpStep .flush s (startFlush s) := by
  rw [startFlush_eq]
  exact .succeed ((OpKeeps.refl _ s).setWriter (close_wf _))

theorem startHdrEmit_opStep (s : State) : OpStep .hdrEmit s (startHdrEmit s) := by
  rw [startHdrEmit_eq]
  exact .succeed ((OpKeeps.refl _ s).setWriter (writeAll_wf _ _))

theorem startFreqRd_opStep (idx : BitVec 10) (s : State) : OpStep .freqRd s (startFreqRd idx s) := by
  unfold startFreqRd
  cases symbolOf idx with
  | none => exact .raise (.refl _ s)
  | some k => exact .succeed ((OpKeeps.refl _ s).setResult (by decide))

theorem startNodeRd_opStep (idx : BitVec 10) (sel : BitVec 4) (s : State) : OpStep .nodeRd s (startNodeRd idx sel s) := by
  unfold startNodeRd
  split
  · cases nodeOf idx s.nnode with
    | none => exact .raise (.refl _ s)
    | some k => exact .succeed ((OpKeeps.refl _ s).setResult (by decide))
  · exact .raise (.refl _ s)

theorem startCodeRd_opStep (idx : BitVec 10) (sel : BitVec 4) (s : State) : OpStep .codeRd s (startCodeRd idx sel s) := by
  unfold startCodeRd
  split
  · cases symbolOf idx with
    | none => exact .raise (.refl _ s)
    | some k => exact .succeed ((OpKeeps.refl _ s).setResult (by decide))
  · exact .raise (.refl _ s)

theorem startGetbit_opStep (s : State) : OpStep .getbit s (startGetbit s) := by
  unfold startGetbit
  split
  · rename_i hn
    exact (OpKeeps.refl .getbit s).goOn rfl fun _ => Fin.ext hn
  · exact gotBit_opStep (readBit_wf _ _)

theorem startGencodes_opStep (s : State) : OpStep .gencodes (prepared .gencodes s) (startGencodes s) := by
  unfold startGencodes prepared
  by_cases hv : s.treeValid = true
  · rw [if_pos hv]
    dsimp only
    rw [if_pos hv]
    exact .succeed (.refl _ _)
  · rw [if_neg hv]
    dsimp only
    rw [if_neg hv]
    exact .raise (.refl _ s)

theorem startEncode_opStep (s : State) : OpStep .encode s (startEncode s) := by
  unfold startEncode
  split
  · rename_i hv
    exact (((OpKeeps.refl .encode s).setBitCnt (c := 0) (by decide)).setSymCnt (c := 0) (by decide)).goOn rfl fun _ => hv
  · exact .raise (.refl _ s)

theorem startDecode_opStep (s : State) : OpStep .decode s (startDecode s) := by
  unfold startDecode
  split
  · rename_i hv
    exact (((OpKeeps.refl .decode s).setBitCnt (c := 0) (by decide)).setSymCnt (c := 0) (by decide)).goOn rfl fun _ => hv
  · exact .raise (.refl _ s)

/-- What a start does beyond that is a step of its operation. -/
theorem start_opStep (i : Instr) (s : State) : OpStep i.op (prepared i s) (start i s) := by
  cases i with
  | nop => exact .succeed (.refl _ s)
  | putbits n =>
    simp only [start]
    split
    · exact startPutbits_opStep n s
    · exact .raise (.refl _ s)
  | flush => exact startFlush_opStep s
  | getbit => exact startGetbit_opStep s
  | count =>
    have hk := ((OpKeeps.refl .count s.invalidate).clearFreq (by decide)).setSymCnt (c := 0) (by decide)
    exact hk.goOn rfl fun _ => rfl
  | freqRd idx => exact startFreqRd_opStep idx s
  | freqWr idx => exact startFreqWr_opStep idx s
  | hdrEmit => exact startHdrEmit_opStep s
  | hdrLoad => exact (OpKeeps.refl .hdrLoad s.invalidate).goOn rfl fun _ => ⟨rfl, by decide⟩
  | build => exact startBuild_opStep s
  | nodeRd idx sel =>
    simp only [start]
    split
    · exact startNodeRd_opStep idx sel s
    · exact .raise (.refl _ s)
  | gencodes => exact startGencodes_opStep s
  | codeRd idx sel =>
    simp only [start]
    split
    · exact startCodeRd_opStep idx sel s
    · exact .raise (.refl _ s)
  | encode => exact startEncode_opStep s
  | decode => exact startDecode_opStep s

/-! However far the core has run. -/

theorem exec_opFrame {i : Instr} {s t : State} (h : exec i s = .next t) : OpFrame i.op s t := by
  have hstep : ∀ u v : State, OpFrame i.op s u ∧ u.activity.FitsIn i.op → coreMove u = some v →
      OpFrame i.op s v ∧ v.activity.FitsIn i.op := fun u v hu hm =>
    have hv := coreMove_opFrame hu.2 hm
    ⟨hu.1.trans hv.1, hv.2⟩
  have hl := start_opStep i s
  exact (exec_keeps hstep h ⟨(prepared_opFrame i s).trans hl.toOpFrame, hl.fits⟩).1

theorem exec_tableSide {i : Instr} {s t : State} (h : exec i s = .next t) : t.tableSide = (prepared i s).tableSide :=
  exec_keeps (P := fun u => u.tableSide = (prepared i s).tableSide) (fun _ _ hu hm => (coreMove_tableSide hm).trans hu) h
    (congrArg Settled.tables (start_opStep i s).settled)

/-- Settles O48: neither the start of a command nor a move writes the host's part. -/
theorem commandsLeaveHostStateAlone : Obligations.CommandsLeaveHostStateAlone := by
  unfold Obligations.CommandsLeaveHostStateAlone
  intro i s t h
  have hh : t.hostSide = s.hostSide :=
    exec_keeps (P := fun u => u.hostSide = s.hostSide) (fun _ _ hu hm => (coreMove_hostSide hm).trans hu) h
      (start_hostSide i s)
  exact ⟨congrArg HostSide.data hh, congrArg HostSide.ie hh, congrArg HostSide.rej hh, congrArg HostSide.inDepth hh,
    congrArg HostSide.outDepth hh, congrArg HostSide.script hh, congrArg HostSide.taken hh,
    congrArg HostSide.busReads hh, congrArg HostSide.pace hh, congrArg HostSide.freeCtr hh⟩

theorem prepared_tree {i : Instr} (hi : i.op ≠ .build) (s : State) : (prepared i s).nleaf = s.nleaf ∧
    (prepared i s).nnode = s.nnode ∧ (prepared i s).root = s.root ∧ (prepared i s).node = s.node := by
  cases i with
  | build => exact absurd rfl hi
  | freqWr idx => simp only [prepared]; split <;> simp
  | gencodes => simp only [prepared]; split <;> simp
  | _ => simp [prepared]

theorem prepared_code {i : Instr} (hi : i.op ≠ .gencodes) (s : State) : (prepared i s).code = s.code := by
  cases i with
  | gencodes => exact absurd rfl hi
  | freqWr idx => simp only [prepared]; split <;> simp
  | build => simp only [prepared]; split <;> simp
  | _ => simp [prepared]

/-- Settles O49: RESULT, the counters and FREQ by the frame of the command's operation; the tree registers, NODE and CODE are
as the start left them, and only BUILD's and GENCODES' starts write them. -/
theorem tablesAndCountersChangeOnlyByTheirCommands : Obligations.TablesAndCountersChangeOnlyByTheirCommands := by
  unfold Obligations.TablesAndCountersChangeOnlyByTheirCommands
  intro i s t h
  have hw := exec_opFrame h
  have ht := exec_tableSide h
  refine ⟨hw.result, hw.bitCnt, hw.symCnt, fun hi => ?_, hw.freq, fun hi => ?_⟩
  · obtain ⟨h1, h2, h3, h4⟩ := prepared_tree hi s
    exact ⟨(congrArg TableSide.nleaf ht).trans h1, (congrArg TableSide.nnode ht).trans h2,
      (congrArg TableSide.root ht).trans h3, (congrArg TableSide.node ht).trans h4⟩
  · exact (congrArg TableSide.code ht).trans (prepared_code hi s)

theorem prepared_flags {i : Instr} (hi : i.op ∉ [.count, .freqWr, .hdrLoad, .build, .gencodes]) (s : State) :
    (prepared i s).treeValid = s.treeValid ∧ (prepared i s).codesValid = s.codesValid := by
  cases i with
  | count | freqWr | hdrLoad | build | gencodes => simp [Instr.op] at hi
  | _ => exact ⟨rfl, rfl⟩

theorem prepared_gencodes_treeValid (s : State) : (prepared .gencodes s).treeValid = s.treeValid := by
  simp only [prepared]
  split <;> rfl

theorem prepared_build_codesValid (s : State) : (prepared .build s).codesValid = false := by
  simp only [prepared]
  split <;> rfl

theorem prepared_treeValid {i : Instr} (hi : i.op ≠ .build) {s : State} (h : (prepared i s).treeValid = true) :
    s.treeValid = true := by
  cases i with
  | build => exact absurd rfl hi
  | count | hdrLoad => simp [prepared] at h
  | freqWr idx =>
    simp only [prepared] at h
    split at h
    · simp at h
    · exact h
  | gencodes => exact (prepared_gencodes_treeValid s).symm.trans h
  | _ => exact h

theorem prepared_codesValid {i : Instr} (hi : i.op ≠ .gencodes) {s : State} (h : (prepared i s).codesValid = true) :
    s.codesValid = true := by
  cases i with
  | gencodes => exact absurd rfl hi
  | count | hdrLoad => simp [prepared] at h
  | build => simp [prepared_build_codesValid] at h
  | freqWr idx =>
    simp only [prepared] at h
    split at h
    · simp at h
    · exact h
  | _ => exact h

/-- Settles O50: the flags are as the start of the command left them. -/
theorem validityFlagsChangeOnlyByTheirCommands : Obligations.ValidityFlagsChangeOnlyByTheirCommands := by
  unfold Obligations.ValidityFlagsChangeOnlyByTheirCommands
  intro i s t h
  have htree : t.treeValid = (prepared i s).treeValid := congrArg TableSide.treeValid (exec_tableSide h)
  have hcodes : t.codesValid = (prepared i s).codesValid := congrArg TableSide.codesValid (exec_tableSide h)
  rw [htree, hcodes]
  refine ⟨fun hi => prepared_flags hi s, fun hi => ?_, fun hi => prepared_treeValid hi,
    fun hi => prepared_codesValid hi, fun hi => ?_, fun hi => ?_⟩
  · cases i <;> simp only [Instr.op, reduceCtorEq] at hi
    exact prepared_gencodes_treeValid s
  · cases i <;> simp [Instr.op] at hi <;> exact ⟨rfl, rfl⟩
  · cases i <;> simp only [Instr.op, reduceCtorEq] at hi
    exact prepared_build_codesValid s

end Sys2Proof.Machine
end

section
/-! PROOF. The machine's invariant (10_state.md R35, R36, R59-R61; 20_memory.md R81, R82): the statements InvariantAtReset
(O44) and StepKeepsInvariant (O45).

The part of the invariant that does not speak of where the command stands (`State.Ready`) goes through acceptance, through
what the start writes, and through every step of an operation (`OpStep`); with the loops' preconditions that is the
invariant again. The meaning of TREE_VALID depends on FREQ, which only COUNT's and HDR_LOAD's loops write, and there
TREE_VALID = 0. -/
namespace Sys2Proof.Machine

/-! A running command. -/

/-- The invariant of a state with a command accepted, but for where in the command it stands. -/
structure State.Ready (s : State) : Prop where
  writer : s.bw.wf = true
  reader : s.br.wf = true
  memory : Memory.wf s.code = true
  status : s.StatusOk
  ports : s.PortsOk
  flags : s.FlagsOk
  busy : s.busy = true

theorem State.Ready.inv {s : State} (h : s.Ready) (hrun : s.activity ≠ .idle) (hact : s.ActivityOk) : s.Inv where
  writer := h.writer
  reader := h.reader
  memory := h.memory
  status := h.status
  control := by simp [State.ControlOk, h.busy, hrun]
  activity := hact
  ports := h.ports
  flags := h.flags

theorem State.Inv.ready {s : State} (h : s.Inv) (hrun : s.activity ≠ .idle) : s.Ready where
  writer := h.writer
  reader := h.reader
  memory := h.memory
  status := h.status
  ports := h.ports
  flags := h.flags
  busy := by
    by_contra hb
    exact hrun (h.control.1.mp (by simpa using hb))

/-- What TREE_VALID and CODES_VALID mean speaks of FREQ and the tables alone (R36). -/
theorem flagsOk_of_tableSide {s t : State} (h : s.FlagsOk) (ht : t.tableSide = s.tableSide)
    (hf : s.treeValid = true → t.freq = s.freq) : t.FlagsOk := by
  have htree : t.treeValid = s.treeValid := congrArg TableSide.treeValid ht
  have hcodes : t.codesValid = s.codesValid := congrArg TableSide.codesValid ht
  have hnode : t.node = s.node := congrArg TableSide.node ht
  have hroot : t.root = s.root := congrArg TableSide.root ht
  refine ⟨fun hv => ?_, fun hv => ?_⟩
  · have hv' : s.treeValid = true := htree ▸ hv
    exact treeOk_of_same (h.1 hv') (hf hv') hnode (congrArg TableSide.nleaf ht) (congrArg TableSide.nnode ht) hroot
  · exact codesOk_of_same (h.2 (hcodes ▸ hv)) hnode hroot (congrArg TableSide.code ht)

theorem OpKeeps.ready {o : Op} {u t : State} (hk : OpKeeps o u t) (h : u.Ready)
    (hf : u.treeValid = true → t.freq = u.freq) : t.Ready := by
  have hs := hk.settled
  have htab : t.tableSide = u.tableSide := congrArg Settled.tables hs
  have hcode : t.code = u.code := congrArg TableSide.code htab
  have hbusy : t.busy = u.busy := congrArg Settled.busy hs
  refine ⟨hk.writer h.writer, hk.reader h.reader, hcode ▸ h.memory, ?_, ?_, flagsOk_of_tableSide h.flags htab hf,
    hbusy.trans h.busy⟩
  · unfold State.StatusOk
    rw [show t.err = u.err from congrArg Settled.err hs, show t.errCode = u.errCode from congrArg Settled.errCode hs,
      show t.errInfo = u.errInfo from congrArg Settled.errInfo hs, hbusy,
      show t.done = u.done from congrArg Settled.done hs,
      show t.codesValid = u.codesValid from congrArg TableSide.codesValid htab,
      show t.treeValid = u.treeValid from congrArg TableSide.treeValid htab]
    exact h.status
  · unfold State.PortsOk
    rw [show t.inDepth = u.inDepth from congrArg Settled.inDepth hs,
      show t.outDepth = u.outDepth from congrArg Settled.outDepth hs,
      show t.inPort = u.inPort from congrArg Settled.inPort hs,
      show t.outPort = u.outPort from congrArg Settled.outPort hs]
    exact h.ports

theorem OpStep.inv {o : Op} {u t : State} (hl : OpStep o u t) (h : u.Inv) (hrun : u.activity ≠ .idle)
    (hrun' : t.activity ≠ .idle) (hf : u.treeValid = true → t.freq = u.freq) : t.Inv :=
  (hl.ready (h.ready hrun) hf).inv hrun' (hl.activityOk h.activity)

/-- While TREE_VALID = 1 no loop that writes FREQ runs (R36). -/
theorem exists_fits_of_treeValid {s : State} (hok : s.ActivityOk) (hv : s.treeValid = true) :
    ∃ o, s.activity.FitsIn o ∧ o ∉ [.count, .freqWr, .hdrLoad] := by
  unfold State.ActivityOk at hok
  cases ha : s.activity with
  | count => simp [ha, hv] at hok
  | hdrLoad h sum => simp [ha, hv] at hok
  | idle | errDrain | finish => exact ⟨.nop, .inl rfl, by decide⟩
  | getbit | encode | decode | decodeEnd => exact ⟨_, .inr rfl, by decide⟩

theorem Turn.inv {u : State} {act : InToken → State → State} (ht : Turn u act) (h : u.Inv) (tok : InToken) :
    (act tok u).Inv := by
  obtain ⟨o, ho⟩ := u.activity.exists_fits
  refine (ht.opStep ho tok).inv h ht.running ((ht.frame tok u).running ht.running) fun hv => ?_
  obtain ⟨o', ho', hfree⟩ := exists_fits_of_treeValid h.activity hv
  exact (ht.opStep ho' tok).freq hfree

/-! A move, a run. -/

theorem ErrCode.toByte_ne_zero (e : ErrCode) : e.toByte ≠ 0 := by
  cases e <;> decide

theorem complete_inv {s : State} (h : s.Inv) (hp : s.pending = []) (v : Option (ErrCode × Word)) :
    (s.complete v).Inv := by
  obtain ⟨herr0, herr1, hbusy, hflags⟩ := h.status
  cases v with
  | none => exact ⟨h.writer, h.reader, h.memory, ⟨herr0, herr1, by simp, hflags⟩, by simp [State.ControlOk, hp], trivial,
      h.ports, h.flags⟩
  | some v =>
    obtain ⟨e, info⟩ := v
    exact ⟨h.writer, h.reader, h.memory, ⟨by simp, fun _ => e.toByte_ne_zero, by simp, hflags⟩,
      by simp [State.ControlOk, hp], trivial, h.ports, h.flags⟩

/-- The invariant speaks neither of IE, REJ, DATA and seg_ended nor of the host's record, and of the ports only that they
hold no more than their depths. -/
theorem State.Inv.edit {s : State} {ie rej segEnded : Bool} {data : Word} {inPort : List InToken} {outPort : List OutToken}
    {script : List HostAct} {taken : List OutToken} {busReads : List Word} {pace : Option Nat} {freeCtr : Nat}
    (h : s.Inv) (hin : inPort.length ≤ s.inDepth) (hout : outPort.length ≤ s.outDepth) :
    State.Inv { s with
      ie := ie, rej := rej, data := data, segEnded := segEnded, inPort := inPort, outPort := outPort
      script := script, taken := taken, busReads := busReads, pace := pace, freeCtr := freeCtr } :=
  have ⟨hin1, hout1, _, _⟩ := h.ports
  ⟨h.writer, h.reader, h.memory, h.status, h.control, h.activity, ⟨hin1, hout1, hin, hout⟩, h.flags⟩

theorem coreMove_inv (s t : State) (h : s.Inv) (hm : coreMove s = some t) : t.Inv := by
  obtain ⟨hin1, hout1, hin, hout⟩ := h.ports
  cases coreMove_move hm with
  | emit tok rest hp hroom =>
    have hbusy : s.busy = true := by
      by_contra hb
      simpa [hp] using h.control.2 (by simpa using hb)
    exact ⟨h.writer, h.reader, h.memory, h.status, ⟨h.control.1, by simp [hbusy]⟩, h.activity,
      ⟨hin1, hout1, hin, by simpa using hroom⟩, h.flags⟩
  | complete v hp ha => exact complete_inv h hp v
  | leaf cur sym c hp ha =>
    have hl := decodeLeaf_opStep ha sym
    have hrun : s.activity ≠ .idle := by simp [ha]
    exact hl.inv h hrun ((decodeLeaf_turnFrame sym s).running hrun) fun _ => hl.freq (by decide)
  | bit cur c l r hp ha =>
    have hl := decodeBit_opStep ha l r 0
    have hrun : s.activity ≠ .idle := by simp [ha]
    exact hl.inv h hrun ((decodeBit_turnFrame l r _ s).running hrun) fun _ => hl.freq (by decide)
  | token tok rest act hp ht htok =>
    refine (ht.taken rest (s.segEnded || tok.terminates)).inv ?_ tok
    have hlen : rest.length ≤ s.inDepth := by simp [htok] at hin; omega
    exact h.edit hlen hout

theorem coreRun_inv (n : Nat) {s : State} (h : s.Inv) : (coreRun n s).Inv := coreRun_keeps coreMove_inv n s h

theorem launch_inv {s : State} (h : s.Inv) : (launch s).Inv := by
  obtain ⟨k, hk⟩ := launch_eq_coreRun s
  rw [hk]
  exact coreRun_inv k h

/-! The acceptance of a word, and the start of its command. -/

theorem accept_ready {s : State} (w : Word) (h : s.Inv) (he : s.err = false) : (s.accept w).Ready :=
  have ⟨herr0, herr1, _, hflags⟩ := h.status
  ⟨h.writer, h.reader, h.memory, ⟨herr0, herr1, fun _ => ⟨rfl, he⟩, hflags⟩, h.ports, h.flags, rfl⟩

theorem invalidate_ready {s : State} (h : s.Ready) : s.invalidate.Ready :=
  have ⟨herr0, herr1, hbusy, _⟩ := h.status
  ⟨h.writer, h.reader, h.memory, ⟨herr0, herr1, hbusy, by simp⟩, h.ports, by simp [State.FlagsOk], h.busy⟩

theorem prepared_ready (i : Instr) {s : State} (h : s.Ready) : (prepared i s).Ready := by
  obtain ⟨herr0, herr1, hbusy, hflags⟩ := h.status
  cases i with
  | count | hdrLoad => exact invalidate_ready h
  | freqWr idx =>
    simp only [prepared]
    split
    · exact invalidate_ready h
    · exact h
  | build =>
    simp only [prepared]
    split
    · rename_i hc
      exact ⟨h.writer, h.reader, h.memory, ⟨herr0, herr1, hbusy, by simp⟩, h.ports,
        ⟨fun _ => treeOk_of_fields s.node hc rfl rfl rfl rfl rfl, by simp⟩, h.busy⟩
    · exact ⟨h.writer, h.reader, h.memory, ⟨herr0, herr1, hbusy, by simp⟩, h.ports, by simp [State.FlagsOk], h.busy⟩
  | gencodes =>
    simp only [prepared]
    split
    · rename_i hv
      exact ⟨h.writer, h.reader, codesOf_wf _ _, ⟨herr0, herr1, hbusy, fun _ => hv⟩, h.ports, ⟨h.flags.1, fun _ => rfl⟩,
        h.busy⟩
    · exact h
  | _ => exact h

/-- A start that leaves TREE_VALID = 1 leaves FREQ alone. -/
theorem start_freq {i : Instr} {s : State} (hv : (prepared i s).treeValid = true) :
    (start i s).freq = (prepared i s).freq := by
  by_cases hi : i.op ∈ [.count, .freqWr, .hdrLoad]
  · cases i with
    | count | hdrLoad => simp [prepared] at hv
    | freqWr idx =>
      simp only [start, startFreqWr, prepared] at hv ⊢
      cases hk : symbolOf idx with
      | none => simp
      | some k => simp [hk] at hv
    | _ => simp [Instr.op] at hi
  · exact (start_opStep i s).freq hi

theorem start_inv (i : Instr) (w : Word) {s : State} (h : s.Inv) (he : s.err = false) :
    (start i (s.accept w)).Inv := by
  have hl := start_opStep i (s.accept w)
  refine (hl.ready (prepared_ready i (accept_ready w h he)) start_freq).inv (start_activity _ _) (hl.activityOk ?_)
  have : (prepared i (s.accept w)).activity = .idle := by
    cases i <;> simp only [prepared] <;> (repeat' split) <;> rfl
  simp [State.ActivityOk, this]

theorem illegal_inv (w : Word) {s : State} (h : s.Inv) (he : s.err = false) :
    ((s.accept w).raise .illegal w false).Inv :=
  have hl : OpStep .nop (s.accept w) ((s.accept w).raise .illegal w false) := .raise (.refl ..)
  (hl.ready (accept_ready w h he) fun _ => hl.freq (by decide)).inv (raise_activity _ _ _ _) (raise_activityOk ..)

/-! Reset, register access, the host's actions. -/

theorem reset_inv : State.reset.Inv where
  writer := writer_empty_wf
  reader := reader_empty_wf
  memory := reset_memory_wf
  status := by simp [State.StatusOk, State.reset]
  control := by simp [State.ControlOk, State.reset]
  activity := trivial
  ports := by simp [State.PortsOk, State.reset, Config.inDepth, Config.outDepth]
  flags := by simp [State.FlagsOk, State.reset]

theorem doReset_inv {s : State} (h : s.Inv) : s.doReset.Inv :=
  ⟨reset_inv.writer, reset_inv.reader, doReset_memory_wf s, by simp [State.StatusOk, State.reset],
    by simp [State.ControlOk, State.reset], trivial, h.ports, by simp [State.FlagsOk, State.reset]⟩

theorem writeStatus_inv (v : Word) {s : State} (h : s.Inv) : (writeStatus v s).Inv := by
  obtain ⟨herr0, herr1, hbusy, hflags⟩ := h.status
  refine ⟨h.writer, h.reader, h.memory, ⟨?_, ?_, ?_, hflags⟩, h.control, h.activity, h.ports, h.flags⟩
  · dsimp only [writeStatus]
    cases v.getLsbD 2
    · simpa using herr0
    · simp
  · dsimp only [writeStatus]
    cases v.getLsbD 2
    · simpa using herr1
    · simp
  · intro hb
    obtain ⟨hd, he⟩ := hbusy hb
    simp [writeStatus, hd, he]

theorem readReg_inv (k : Nat) {s : State} (h : s.Inv) : (readReg k s).Inv := by
  unfold readReg
  obtain ⟨-, -, hin, hout⟩ := h.ports
  split <;> exact h.edit hin hout

theorem writeCtrl_inv (v : Word) {s : State} (h : s.Inv) : (writeCtrl v s).Inv := by
  unfold writeCtrl
  split
  · exact doReset_inv h
  · obtain ⟨-, -, hin, hout⟩ := h.ports
    exact h.edit hin hout

theorem hostEffect_inv {s t : State} (h : s.Inv) (he : HostEffect s t) : t.Inv := by
  obtain ⟨-, -, hin, hout⟩ := h.ports
  cases he with
  | ctrl v => exact writeCtrl_inv v h
  | status v => exact writeStatus_inv v h
  | command i w hb herr hd => exact launch_inv (start_inv i w h herr)
  | illegal w e hb herr hd => exact launch_inv (illegal_inv w h herr)
  | ignored => exact h
  | waited => exact h
  | read k => exact readReg_inv k h
  | reset => exact doReset_inv h
  | coreTurn n => exact coreRun_inv n h
  | rejected => exact h.edit hin hout
  | data v => exact h.edit hin hout
  | pace p => exact h.edit hin hout
  | offer tok hroom => exact h.edit (by simpa using hroom) hout
  | take tok port hp =>
    have hlen : port.length ≤ s.outDepth := by simp [hp] at hout; omega
    exact h.edit hin hlen

/-- Settles O44: at reset nothing runs, both flags are 0 and both buffers are empty. -/
theorem invariantAtReset : Obligations.InvariantAtReset := reset_inv

/-- Settles O45: a step is a run of the core or an action of the host that goes through, and each move of the core and each
such action keeps the invariant. -/
theorem stepKeepsInvariant : Obligations.StepKeepsInvariant := by
  unfold Obligations.StepKeepsInvariant
  intro s t h hstep
  rcases step_cases hstep with ⟨-, rfl⟩ | ⟨a, rest, -, he⟩
  · exact coreRun_inv _ h
  · obtain ⟨-, -, hin, hout⟩ := h.ports
    have h' : State.Inv { s with script := rest } := h.edit hin hout
    exact hostEffect_inv h' he

end Sys2Proof.Machine
end

section
/-! PROOF. Command issue and register access (10_state.md R32-R48, R64; 30_encoding.md R127; 60_exceptions.md R318, R320;
70_reset_and_hazards.md R350-R352): the statements StepRunsDecodedCommand (O5), IllegalWordHasOnlyTheEpilogue (O6),
CmdWriteRejected (O7), StatusWriteClears (O9), CtrlWrite (O10), DataWriteStoresOthersIgnore (O11), ResetValues (O13),
IdleReadReturnsRegister (O14), BusyReadReturnsStableValues (O15) and ReservedOffsets (O60). -/
namespace Sys2Proof.Machine

/-! Which register an access reaches, and what its step then does. -/

/-- A 32-bit access at offset 4k of the window reaches register k (R88, R92). -/
theorem accessIndex_word {k : Nat} (hk : k ≤ 63) : accessIndex (4 * (k : Int)) 32 = some k := by
  have hspan : (Config.regSpan : Int) = 256 := rfl
  rw [accessIndex, if_pos (by omega)]
  congr 1
  omega

theorem step_write {s : State} {off : Int} {k : Nat} {v : Word} {rest : List HostAct}
    (hs : s.script = .write off 32 v :: rest) (hk : accessIndex off 32 = some k) :
    step s = writeReg k v { s with script := rest } := by
  simp [step, hs, hostAct, hk]

theorem step_read {s : State} {off : Int} {k : Nat} {rest : List HostAct}
    (hs : s.script = .read off 32 :: rest) (hk : accessIndex off 32 = some k) :
    step s = .next (readReg k { s with script := rest }) := by
  simp [step, hs, hostAct, hk]

/-- Only CTRL, STATUS, CMD and DATA can be written (R45, R46, R91). -/
theorem writeReg_ignored {k : Nat} (hk : k ∉ [2, 3, 4, 5]) (v : Word) (s : State) : writeReg k v s = .next s := by
  unfold writeReg
  split
  · simp at hk
  · simp at hk
  · simp at hk
  · simp at hk
  · rfl

/-! CMD (R37). -/

theorem step_cmdWrite {s : State} {w : Word} {rest : List HostAct} (hs : s.script = .write 0x10 32 w :: rest) :
    step s = writeCmd w { s with script := rest } := step_write (k := 4) hs rfl

theorem writeCmd_accepted {s : State} (w : Word) (hb : s.busy = false) (he : s.err = false) :
    writeCmd w s = issue w s := by
  simp [writeCmd, hb, he]

theorem writeCmd_rejected {s : State} (w : Word) (h : s.busy = true ∨ s.err = true) :
    writeCmd w s = .next { s with rej := true } := by
  simp [writeCmd, h]

/-- Settles O5: the write is accepted, and `State.accept` is what acceptance writes. -/
theorem stepRunsDecodedCommand : Obligations.StepRunsDecodedCommand := by
  unfold Obligations.StepRunsDecodedCommand
  intro s w rest i hs hb he hd
  rw [step_cmdWrite hs, writeCmd_accepted (s := { s with script := rest }) w hb he]
  simp only [issue, hd]
  rfl

/-- Settles O6: E_ILLEGAL is no stream-phase error, so its epilogue only records it (`runOn_raise`). -/
theorem illegalWordHasOnlyTheEpilogue : Obligations.IllegalWordHasOnlyTheEpilogue := by
  unfold Obligations.IllegalWordHasOnlyTheEpilogue
  intro s w rest e hs hb he hpace hd
  have hpace' : ((State.accept w { s with script := rest }).raise .illegal w false).pace = none :=
    (State.raise_pace ..).trans hpace
  rw [step_cmdWrite hs, writeCmd_accepted (s := { s with script := rest }) w hb he]
  simp only [issue, hd]
  rw [launch_eager hpace', runOn_raise _ _ _ _ rfl]
  simp [State.failed, State.finished, State.accept, ErrCode.toByte, hb]

/-- Settles O7: the write is not accepted, and is lost. -/
theorem cmdWriteRejected : Obligations.CmdWriteRejected := by
  unfold Obligations.CmdWriteRejected
  intro s w rest hs hbe
  exact (step_cmdWrite hs).trans (writeCmd_rejected w hbe)

/-! STATUS, DATA and the offsets that ignore a write (R38, R45-R47). -/

/-- Settles O9: a cleared bit is AND NOT of the bit written. -/
theorem statusWriteClears : Obligations.StatusWriteClears := by
  unfold Obligations.StatusWriteClears
  intro s v rest hs
  have hclear : ∀ b c : Bool, (b && !c) = if c then false else b := by decide
  rw [step_write (k := 3) hs rfl]
  simp only [writeReg, writeStatus, hclear]

/-- Settles O11: register 5 is DATA, and a register that cannot be written ignores the write. -/
theorem dataWriteStoresOthersIgnore : Obligations.DataWriteStoresOthersIgnore := by
  unfold Obligations.DataWriteStoresOthersIgnore
  intro s k v rest hk hs
  rw [step_write hs (accessIndex_word hk)]
  refine ⟨?_, fun hother => writeReg_ignored hother v _⟩
  rintro rfl
  rfl

/-! What a register holds. -/

theorem regValue_reserved {k : Nat} (hk : 15 ≤ k) (s : State) : regValue k s = 0 := by
  obtain ⟨n, rfl⟩ := Nat.exists_eq_add_of_le' hk
  rfl

theorem regValue_doReset (k : Nat) (s : State) : regValue k s.doReset = regValue k State.reset := by
  simp [regValue, statusWord, statusWith, bitState]

/-- After reset every register but ID and VERSION reads 0 (R64). -/
theorem regValue_reset {k : Nat} (h0 : k ≠ 0) (h1 : k ≠ 1) : regValue k State.reset = 0 := by
  rcases Nat.lt_or_ge k 15 with hk | hk
  · have hmap : ∀ j < 15, j ≠ 0 → j ≠ 1 → regValue j State.reset = 0 := by decide
    exact hmap k hk h0 h1
  · exact regValue_reserved hk _

/-- A field of w bits placed at bit p, bit by bit. -/
theorem getLsbD_field {w : Nat} (f : BitVec w) (p j : Nat) :
    (f.setWidth 32 <<< p).getLsbD j = (decide (p ≤ j ∧ j < 32) && f.getLsbD (j - p)) := by
  rw [BitVec.getLsbD_shiftLeft, BitVec.getLsbD_setWidth]
  by_cases hj : j < 32
  · by_cases hp : j < p
    · simp [hj, hp]
    · have : j - p < 32 := by omega
      simp [hj, hp, this, Nat.le_of_not_lt hp]
  · simp [hj]

/-- The bits a field occupies hold the field. -/
theorem extract_field {w p : Nat} (f : BitVec w) (h : p + w ≤ 32) : (f.setWidth 32 <<< p).extractLsb' p w = f := by
  ext i hi
  have hlt : p + i < 32 := by omega
  simp [BitVec.getElem_extractLsb', hlt, BitVec.getLsbD_eq_getElem hi]

/-- The bits beside a field are 0. -/
theorem extract_beside_field {w p q l : Nat} (f : BitVec w) (h : q + l ≤ p ∨ p + w ≤ q) :
    (f.setWidth 32 <<< p).extractLsb' q l = 0 := by
  ext i hi
  simp only [BitVec.getElem_extractLsb', getLsbD_field]
  rcases h with h | h
  · have : ¬ p ≤ q + i := by omega
    simp [this]
  · have : w ≤ q + i - p := by omega
    simp [BitVec.getLsbD_of_ge _ _ this]

theorem getLsbD_bitAt (b : Bool) (k j : Nat) : (bitAt b k).getLsbD j = (decide (j = k ∧ j < 32) && b) := by
  rw [bitAt, getLsbD_field, BitVec.getLsbD_ofBool]
  by_cases hj : j = k
  · simp [hj]
  · by_cases hle : k ≤ j
    · have : j - k ≠ 0 := by omega
      simp [hj, this]
    · simp [hj, hle]

theorem extract_beside_bitAt {b : Bool} {k q l : Nat} (h : q + l ≤ k ∨ k + 1 ≤ q) : (bitAt b k).extractLsb' q l = 0 :=
  extract_beside_field _ h

/-- CTRL's word: IE in bit 0 (R34, R46). -/
theorem bitAt_zero_fields (b : Bool) : (bitAt b 0).getLsbD 0 = b ∧ (bitAt b 0).extractLsb' 1 31 = 0 :=
  ⟨by simp only [getLsbD_bitAt]; simp, extract_beside_bitAt (by decide)⟩

/-- The STATUS word, field by field (R35, R46). -/
theorem statusWith_fields (s : State) (tree codes : Bool) :
    (statusWith s tree codes).getLsbD 0 = s.busy ∧ (statusWith s tree codes).getLsbD 1 = s.done ∧
    (statusWith s tree codes).getLsbD 2 = s.err ∧ (statusWith s tree codes).getLsbD 3 = s.rej ∧
    (statusWith s tree codes).getLsbD 4 = tree ∧ (statusWith s tree codes).getLsbD 5 = codes ∧
    (statusWith s tree codes).extractLsb' 6 2 = 0 ∧ (statusWith s tree codes).extractLsb' 8 8 = s.errCode ∧
    (statusWith s tree codes).extractLsb' 16 16 = 0 := by
  have hbit : ∀ j < 8, (statusWith s tree codes).getLsbD j = (decide (j = 0) && s.busy || decide (j = 1) && s.done ||
      decide (j = 2) && s.err || decide (j = 3) && s.rej || decide (j = 4) && tree || decide (j = 5) && codes) := by
    intro j hj
    have h8 : ¬ 8 ≤ j := by omega
    have h32 : j < 32 := by omega
    simp only [statusWith, BitVec.getLsbD_or, getLsbD_bitAt, getLsbD_field, h8, h32]
    simp
  refine ⟨(hbit 0 (by decide)).trans (by simp), (hbit 1 (by decide)).trans (by simp),
    (hbit 2 (by decide)).trans (by simp), (hbit 3 (by decide)).trans (by simp), (hbit 4 (by decide)).trans (by simp),
    (hbit 5 (by decide)).trans (by simp), ?_, ?_, ?_⟩
  · simp (disch := decide) only [statusWith, BitVec.extractLsb'_or, extract_beside_bitAt, extract_beside_field]
    rfl
  · simp (disch := decide) only [statusWith, BitVec.extractLsb'_or, extract_beside_bitAt, extract_field]
    simp
  · simp (disch := decide) only [statusWith, BitVec.extractLsb'_or, extract_beside_bitAt, extract_beside_field]
    rfl

/-- BITSTATE as four fields in their places; the counts are below 8 (R44, R60, R61). -/
theorem bitState_eq (s : State) : bitState s = s.bw.acc.setWidth 32 <<< 0 |||
    ((BitVec.ofNat 4 s.bw.n.val).setWidth 32 <<< 8) ||| (s.br.acc.setWidth 32 <<< 16) |||
    ((BitVec.ofNat 4 s.br.n.val).setWidth 32 <<< 24) := by
  have hcount : ∀ n : Fin 8, BitVec.ofNat 32 n.val = (BitVec.ofNat 4 n.val).setWidth 32 := by decide
  rw [bitState, hcount, hcount, BitVec.shiftLeft_zero]

/-- The BITSTATE word, field by field (R44, R46). -/
theorem bitState_fields (s : State) :
    (bitState s).extractLsb' 0 8 = s.bw.acc ∧ ((bitState s).extractLsb' 8 4).toNat = s.bw.n.val ∧
    (bitState s).extractLsb' 12 4 = 0 ∧ (bitState s).extractLsb' 16 8 = s.br.acc ∧
    ((bitState s).extractLsb' 24 4).toNat = s.br.n.val ∧ (bitState s).extractLsb' 28 4 = 0 := by
  have hcount : ∀ n : Fin 8, n.val % 16 = n.val := by decide
  rw [bitState_eq]
  simp (disch := decide) only [BitVec.extractLsb'_or, extract_field, extract_beside_field]
  simp [hcount]

/-! Reset (R64, R350-R352). -/

/-- Settles O13: `State.reset` holds these values. -/
theorem resetValues : Obligations.ResetValues := by
  unfold Obligations.ResetValues
  exact ⟨rfl, rfl, fun _ h0 h1 => regValue_reset h0 h1, rfl, rfl, rfl, rfl, rfl, rfl, rfl, rfl, rfl, zeroFreq_get, rfl, rfl,
    rfl⟩

/-- Settles O10: with SRST = 1 the next state is `State.doReset`, whose registers read as after reset. -/
theorem ctrlWrite : Obligations.CtrlWrite := by
  unfold Obligations.CtrlWrite
  intro s v rest hs
  rw [step_write (k := 2) hs rfl]
  simp only [writeReg, writeCtrl]
  constructor
  · intro hv
    rw [if_neg (by rw [hv]; decide)]
  · intro hv
    rw [if_pos hv]
    refine ⟨_, rfl, fun k h0 h1 => ?_, rfl, rfl, rfl, rfl, rfl, rfl, rfl, zeroFreq_get, rfl, rfl, rfl, rfl, rfl, rfl, rfl,
      rfl, rfl, rfl, rfl, rfl, rfl, rfl, rfl⟩
    rw [regValue_doReset, regValue_reset h0 h1]

/-! Register reads (R32-R48, R91). -/

theorem readReg_idle {s : State} (k : Nat) (hb : s.busy = false) :
    readReg k s = { s with busReads := s.busReads ++ [regValue k s] } := by
  simp [readReg, hb]

theorem readReg_busy {s : State} (k : Nat) (hb : s.busy = true) :
    readReg k s = { s with
      busReads := s.busReads ++ [busyValue k (Config.freeWord s.freeCtr) s], freeCtr := s.freeCtr + 1 } := by
  simp [readReg, hb]

/-- Outside STATUS and the volatile registers a read while BUSY = 1 returns the register too (R48). -/
theorem busyValue_stable {k : Nat} (h3 : k ≠ 3) (hv : volatile k = false) (any : Word) (s : State) :
    busyValue k any s = regValue k s := by
  simp [busyValue, h3, hv]

/-- Settles O60: such an offset holds 0, is not volatile, and ignores a write. -/
theorem reservedOffsets : Obligations.ReservedOffsets := by
  unfold Obligations.ReservedOffsets
  intro s k rest h15 hk
  refine ⟨fun hs => ?_, fun v hs => ?_⟩
  · rw [step_read hs (accessIndex_word hk)]
    cases s.busy with
    | false =>
      rw [readReg_idle k rfl, regValue_reserved h15]
      rfl
    | true =>
      have hv : volatile k = false := by simp [volatile]; omega
      rw [readReg_busy k rfl, busyValue_stable (by omega) hv, regValue_reserved h15]
      rfl
  · rw [step_write hs (accessIndex_word hk)]
    exact writeReg_ignored (by simp; omega) v _

/-- Settles O14: the word read is `regValue`, whose composed words are taken apart field by field. -/
theorem idleReadReturnsRegister : Obligations.IdleReadReturnsRegister := by
  unfold Obligations.IdleReadReturnsRegister
  intro s k rest hk hs hb
  refine ⟨regValue k { s with script := rest }, ?_, ?_⟩
  · rw [step_read hs (accessIndex_word hk), readReg_idle (s := { s with script := rest }) k hb]
  · refine ⟨?_, ?_, ?_, ?_, ?_, ?_, ?_, ?_, ?_, ?_, ?_, ?_, ?_, ?_, ?_, fun h15 => regValue_reserved h15 _⟩ <;> rintro rfl
    case refine_3 => exact bitAt_zero_fields s.ie
    case refine_4 =>
      have h := statusWith_fields s s.treeValid s.codesValid
      rw [hb] at h
      exact h
    case refine_12 => simp [regValue]; omega
    case refine_13 => simp [regValue]; omega
    case refine_14 => simp [regValue]; omega
    case refine_15 => exact bitState_fields s
    all_goals rfl

/-- Settles O15: the listed registers are stable, and of STATUS only the two validity bits are drawn. -/
theorem busyReadReturnsStableValues : Obligations.BusyReadReturnsStableValues := by
  unfold Obligations.BusyReadReturnsStableValues
  intro s k rest hk hs hb hok
  obtain ⟨herr0, -, hbusy, -⟩ := hok
  obtain ⟨hdone, herr⟩ := hbusy hb
  obtain ⟨hcode, -⟩ := herr0 herr
  refine ⟨busyValue k (Config.freeWord s.freeCtr) { s with script := rest }, ?_, ?_⟩
  · rw [step_read hs (accessIndex_word hk), readReg_busy (s := { s with script := rest }) k hb]
  · refine ⟨?_, ?_, ?_, ?_, ?_, ?_, fun h15 => ?_⟩
    case refine_7 =>
      have hv : volatile k = false := by simp [volatile]; omega
      rw [busyValue_stable (by omega) hv, regValue_reserved h15]
    all_goals rintro rfl
    case refine_3 => exact bitAt_zero_fields s.ie
    case refine_4 =>
      obtain ⟨h0, h1, h2, h3, -, -, h6, h8, h16⟩ := statusWith_fields { s with script := rest }
        ((Config.freeWord s.freeCtr).getLsbD 4) ((Config.freeWord s.freeCtr).getLsbD 5)
      exact ⟨h0.trans hb, h1.trans hdone, h2.trans herr, h3, h6, h8.trans hcode, h16⟩
    all_goals rfl

end Sys2Proof.Machine
end

section
/-! PROOF. Register access and the ports (20_memory.md R81, R82, R88, R89, R92, R100, R101, R106): the statements
OtherAccessRefused (O8), PortsAreFifo (O16), CommandsKeepTokenOrder (O52) and HangOnlyAtBlockedPort (O54).

A host action stops a step only by waiting for a core that cannot move (`hostAct_fault_waits`), and why a core cannot move
is `coreMove_eq_none`. A start writes neither port, and a move at most takes the oldest input token or puts one output token
behind the held ones, so this holds of every run. -/
namespace Sys2Proof.Machine

/-! Register access (R88, R89, R92). -/

/-- The window reaches its 64 registers and nothing else (R88, R92). -/
theorem accessIndex_eq_none {addr bits : Nat} : accessIndex (busOffset addr) bits = none ↔
    ¬ (bits = 32 ∧ ∃ k, k ≤ 63 ∧ addr = Config.hufBase + 4 * k) := by
  have hspan : (Config.regSpan : Int) = 256 := rfl
  rw [accessIndex, busOffset, hspan, ite_eq_right_iff]
  simp only [reduceCtorEq, imp_false]
  refine not_congr (and_congr_right fun _ => ⟨fun ⟨hlow, hhigh, hword⟩ => ?_, fun ⟨k, hk, haddr⟩ => ?_⟩)
  · exact ⟨(addr - Config.hufBase) / 4, by omega, by omega⟩
  · omega

theorem step_read_refused {s : State} {off : Int} {bits : Nat} {rest : List HostAct}
    (hs : s.script = .read off bits :: rest) : step s = .refused .busError ↔ accessIndex off bits = none := by
  simp only [step, hs, hostAct]
  cases accessIndex off bits <;> simp

theorem step_write_refused {s : State} {off : Int} {bits : Nat} {v : Word} {rest : List HostAct}
    (hs : s.script = .write off bits v :: rest) : step s = .refused .busError ↔ accessIndex off bits = none := by
  simp only [step, hs, hostAct]
  cases accessIndex off bits with
  | none => simp
  | some k =>
    obtain ⟨t, ht⟩ := writeReg_next k v { s with script := rest }
    simp [ht]

/-- Settles O8: an access is refused exactly when it reaches no register. -/
theorem otherAccessRefused : Obligations.OtherAccessRefused := by
  unfold Obligations.OtherAccessRefused
  intro s addr bits v rest
  exact ⟨(step_read_refused rfl).trans accessIndex_eq_none, (step_write_refused rfl).trans accessIndex_eq_none⟩

/-! The core cannot move (R100, R101, R106). -/

/-- A hang is a running command's, whose core cannot move. -/
theorem coreInstead_hang {s : State} (h : coreInstead s = .fault .hang) : s.busy = true ∧ s.Stopped := by
  unfold coreInstead at h
  split at h
  · simp at h
  · rename_i hm
    split at h
    · exact ⟨‹_›, by simpa [State.Stopped] using hm⟩
    · simp at h

theorem coreAlone_hang {s : State} (h : coreAlone s = .fault .hang) : s.busy = true ∧ s.Stopped := by
  unfold coreAlone at h
  split at h
  · simp at h
  · rename_i hm
    split at h
    · exact ⟨‹_›, by simpa [State.Stopped] using hm⟩
    · split at h <;> simp at h

/-- A host action that stops the step waits for the core, which cannot move. -/
theorem hostAct_fault_waits {a : HostAct} {rest : List HostAct} {s : State} {r : Fault}
    (h : hostAct a rest s = .fault r) : coreInstead s = .fault r := by
  cases a with
  | write off bits v =>
    simp only [hostAct] at h
    split at h
    · simp at h
    · rename_i k _
      obtain ⟨t, ht⟩ := writeReg_next k v { s with script := rest }
      simp [ht] at h
  | read off bits =>
    simp only [hostAct] at h
    split at h <;> simp at h
  | offer tok =>
    simp only [hostAct] at h
    split at h
    · simp at h
    · exact h
  | take =>
    simp only [hostAct] at h
    split at h
    · exact h
    · simp at h
  | wait =>
    simp only [hostAct] at h
    split at h
    · exact h
    · simp at h
  | resetPin | coreTurn n | pace p => simp [hostAct] at h

theorem step_hang {s : State} (h : step s = .fault .hang) : s.busy = true ∧ s.Stopped := by
  unfold step at h
  split at h
  · exact coreAlone_hang h
  · exact coreInstead_hang (hostAct_fault_waits h)

/-- Settles O54: the machine hangs with BUSY = 1 and a core that cannot move, and a running command is held only by a
port. -/
theorem hangOnlyAtBlockedPort : Obligations.HangOnlyAtBlockedPort := by
  unfold Obligations.HangOnlyAtBlockedPort
  intro s hinv h
  obtain ⟨hb, hstop⟩ := step_hang h
  obtain ⟨-, -, -, hout⟩ := hinv.ports
  refine ⟨hb, ?_⟩
  rcases coreMove_eq_none hstop with ⟨hp, hfull⟩ | ⟨-, hidle⟩ | ⟨hp, -, hin⟩
  · exact .inr ⟨hp, by omega⟩
  · simp [hinv.control.1.mpr hidle] at hb
  · exact .inl ⟨hp, hin⟩

/-! Token order (R81, R82). -/

/-- A turn of a loop leaves the input port as it is once its token is taken. -/
theorem Turn.inPort {s : State} {act : InToken → State → State} (ht : Turn s act) (tok : InToken) :
    (act tok s).inPort = s.inPort := by
  obtain ⟨o, ho⟩ := s.activity.exists_fits
  exact congrArg Settled.inPort (ht.opStep ho tok).settled

theorem State.complete_inPort (v : Option (ErrCode × Word)) (s : State) : (s.complete v).inPort = s.inPort := by
  cases v <;> rfl

/-- A move consumes at most the oldest input token (R81). -/
theorem coreMove_inPort {s t : State} (h : coreMove s = some t) : t.inPort <:+ s.inPort := by
  cases coreMove_move h with
  | emit => exact List.suffix_refl _
  | complete v => rw [State.complete_inPort]
  | leaf cur sym c hp ha =>
    have hin : (decodeLeaf sym s).inPort = s.inPort := congrArg Settled.inPort (decodeLeaf_opStep ha sym).settled
    rw [hin]
  | bit cur c l r hp ha => exact List.suffix_refl _
  | token tok rest act hp ht hin =>
    rw [(ht.taken rest (s.segEnded || tok.terminates)).inPort tok, hin]
    exact List.suffix_cons ..

theorem coreRun_inPort (n : Nat) (s : State) : (coreRun n s).inPort <:+ s.inPort :=
  coreRun_keeps (P := fun t => t.inPort <:+ s.inPort) (fun _ _ hs hm => (coreMove_inPort hm).trans hs) n s
    (List.suffix_refl _)

theorem outDepth_eq_of_hostSide {s t : State} (h : t.hostSide = s.hostSide) : t.outDepth = s.outDepth :=
  congrArg HostSide.outDepth h

/-- The output port holds no more than its depth (R82). -/
def State.OutFits (s : State) : Prop := s.outPort.length ≤ s.outDepth

theorem outFits_of_same {s t : State} (hs : s.OutFits) (ho : t.outPort = s.outPort) (hh : t.hostSide = s.hostSide) :
    t.OutFits := by
  rw [State.OutFits, ho, outDepth_eq_of_hostSide hh]
  exact hs

/-- An OutWrite needs room, and no other move writes the output port (R82). -/
theorem coreMove_outFits (s t : State) (hs : s.OutFits) (h : coreMove s = some t) : t.OutFits := by
  have hh := coreMove_hostSide h
  cases coreMove_move h with
  | emit tok rest hp hroom => simpa [State.OutFits] using hroom
  | complete v => exact outFits_of_same hs (State.complete_outPort v s) hh
  | leaf cur sym => exact outFits_of_same hs (decodeLeaf_turnFrame sym s).outPort hh
  | bit cur c l r => exact outFits_of_same hs rfl hh
  | token tok rest act hp ht => exact outFits_of_same hs (ht.frame tok _).outPort hh

theorem prepared_ports (i : Instr) (s : State) :
    (prepared i s).inPort = s.inPort ∧ (prepared i s).outPort = s.outPort := by
  cases i with
  | freqWr | build | gencodes => simp only [prepared]; split <;> exact ⟨rfl, rfl⟩
  | _ => exact ⟨rfl, rfl⟩

theorem start_inPort (i : Instr) (s : State) : (start i s).inPort = s.inPort :=
  (congrArg Settled.inPort (start_opStep i s).settled).trans (prepared_ports i s).1

theorem start_outPort (i : Instr) (s : State) : (start i s).outPort = s.outPort :=
  (congrArg Settled.outPort (start_opStep i s).settled).trans (prepared_ports i s).2

theorem exec_eq_coreRun {i : Instr} {s t : State} (h : exec i s = .next t) : ∃ n, t = coreRun n (start i s) := by
  obtain ⟨n, hn⟩ := launch_eq_coreRun (start i s)
  exact ⟨n, (exec_eq_next.mp h).trans hn⟩

/-- Settles O52: a start writes neither port, and a move at most consumes the oldest input token or puts one token, for
which there is room, behind those the output port holds. -/
theorem commandsKeepTokenOrder : Obligations.CommandsKeepTokenOrder := by
  unfold Obligations.CommandsKeepTokenOrder
  intro i s t h
  have hfits : s.OutFits → t.OutFits := fun hs =>
    exec_keeps coreMove_outFits h (outFits_of_same hs (start_outPort i s) (start_hostSide i s))
  obtain ⟨n, rfl⟩ := exec_eq_coreRun h
  exact ⟨start_inPort i s ▸ coreRun_inPort n _, start_outPort i s ▸ coreRun_outPort n _, hfits⟩

/-- Where a step runs the core in the host's place, the script and what the host took stay. -/
theorem coreInstead_keeps {s u : State} (h : coreInstead s = .next u) :
    u.script = s.script ∧ u.taken = s.taken ∧ u.inPort <:+ s.inPort := by
  obtain ⟨-, rfl⟩ := coreInstead_next h
  have hh : (runOn s).hostSide = s.hostSide := coreRun_hostSide _ s
  exact ⟨script_eq_of_hostSide hh, taken_eq_of_hostSide hh, coreRun_inPort _ s⟩

/-- Settles O16: an offer with room and a take of a held token go through; any other waits while the core runs. -/
theorem portsAreFifo : Obligations.PortsAreFifo := by
  unfold Obligations.PortsAreFifo
  intro s rest
  refine ⟨fun tok hs => ⟨fun hroom => ?_, fun hfull u h => ?_⟩, fun hs => ⟨fun tok port hp => ?_, fun hp u h => ?_⟩⟩
  · simp [step, hs, hostAct, hroom]
  · have hi : coreInstead s = .next u := by simpa [step, hs, hostAct, Nat.not_lt.mpr hfull] using h
    obtain ⟨hscript, -, hin⟩ := coreInstead_keeps hi
    exact ⟨hscript, hin⟩
  · simp [step, hs, hostAct, hp]
  · have hi : coreInstead s = .next u := by simpa [step, hs, hostAct, hp] using h
    obtain ⟨hscript, htaken, -⟩ := coreInstead_keeps hi
    exact ⟨hscript, htaken⟩

end Sys2Proof.Machine
end

section
/-! PROOF. Which commands use which port and bit buffer (20_memory.md R84; 10_state.md R60, R61): the statement
PortlessCommandsTouchNoPort (O51).

A command that reads no token has no loop, so once started it only emits and completes (`ReadFree`). One that writes no token
starts with nothing to emit, and the loops of GETBIT, COUNT and HDR_LOAD and their epilogue bring about nothing (`WriteFree`). -/
namespace Sys2Proof.Machine

/-- No command runs, or nothing is left of it but OutWrites and its completion. -/
def Activity.NoLoop : Activity → Prop
  | .idle => True
  | .getbit => False
  | .count => False
  | .hdrLoad _ _ => False
  | .encode => False
  | .decode _ => False
  | .decodeEnd => False
  | .errDrain _ _ _ => False
  | .finish _ => True

/-- Neither a loop that emits tokens runs, nor an epilogue that is to emit ABT (R318). -/
def Activity.Silent : Activity → Prop
  | .idle => True
  | .getbit => True
  | .count => True
  | .hdrLoad _ _ => True
  | .encode => False
  | .decode _ => False
  | .decodeEnd => False
  | .errDrain _ _ abort => abort = false
  | .finish _ => True

/-- In t the input port and BR are as in s, and no InRead follows. -/
structure ReadFree (s t : State) : Prop where
  inPort : t.inPort = s.inPort
  br : t.br = s.br
  noLoop : t.activity.NoLoop

/-- In t the output port and BW are as in s, and no OutWrite follows. -/
structure WriteFree (s t : State) : Prop where
  outPort : t.outPort = s.outPort
  bw : t.bw = s.bw
  pending : t.pending = []
  silent : t.activity.Silent

/-- Neither port is used from s to t, and neither will be. -/
structure PortFree (s t : State) : Prop extends ReadFree s t, WriteFree s t

/-- An error found before the stream phase needs no drain (R317, R318). -/
theorem raise_early {e : ErrCode} (he : e.stream = false) (info : Word) (a : Bool) (s : State) :
    s.raise e info a = { s with pending := [], activity := .finish (some (e, info)) } := by
  simp [State.raise, he]

section
variable {s u : State}

theorem ReadFree.succeed {out : List OutToken} (hin : u.inPort = s.inPort) (hr : u.br = s.br) :
    ReadFree s (u.succeed out) := ⟨hin, hr, trivial⟩

theorem ReadFree.raise {e : ErrCode} {info : Word} {a : Bool} (he : e.stream = false) (hin : u.inPort = s.inPort)
    (hr : u.br = s.br) : ReadFree s (u.raise e info a) := by
  rw [raise_early he]
  exact ⟨hin, hr, trivial⟩

theorem WriteFree.succeed (hout : u.outPort = s.outPort) (hw : u.bw = s.bw) : WriteFree s (u.succeed []) :=
  ⟨hout, hw, rfl, trivial⟩

/-- The epilogue of a command other than ENCODE and DECODE emits nothing (R318). -/
theorem WriteFree.raise {e : ErrCode} {info : Word} (hout : u.outPort = s.outPort) (hw : u.bw = s.bw) :
    WriteFree s (u.raise e info false) := by
  unfold State.raise
  (repeat' split) <;> exact ⟨hout, hw, rfl, by trivial⟩

theorem PortFree.succeed (hin : u.inPort = s.inPort) (hr : u.br = s.br) (hout : u.outPort = s.outPort)
    (hw : u.bw = s.bw) : PortFree s (u.succeed []) := ⟨.succeed hin hr, .succeed hout hw⟩

theorem PortFree.raise {e : ErrCode} {info : Word} (he : e.stream = false) (hin : u.inPort = s.inPort)
    (hr : u.br = s.br) (hout : u.outPort = s.outPort) (hw : u.bw = s.bw) : PortFree s (u.raise e info false) :=
  ⟨.raise he hin hr, .raise hout hw⟩

end

/-! A move. -/

theorem complete_readFree {s u : State} (h : ReadFree s u) (v : Option (ErrCode × Word)) : ReadFree s (u.complete v) := by
  cases v <;> exact ⟨h.inPort, h.br, trivial⟩

theorem complete_writeFree {s u : State} (h : WriteFree s u) (v : Option (ErrCode × Word)) :
    WriteFree s (u.complete v) := by
  cases v <;> exact ⟨h.outPort, h.bw, h.pending, trivial⟩

theorem Turn.loop {s : State} {act : InToken → State → State} (ht : Turn s act) : ¬ s.activity.NoLoop := by
  cases ht <;> simp [Activity.NoLoop, *]

/-- Without a loop a move is an OutWrite or the completion, and neither touches the input port and BR. -/
theorem coreMove_readFree {s : State} (u v : State) (h : ReadFree s u) (hm : coreMove u = some v) : ReadFree s v := by
  cases coreMove_move hm with
  | emit => exact ⟨h.inPort, h.br, h.noLoop⟩
  | complete v => exact complete_readFree h v
  | leaf cur sym c hp ha => exact absurd h.noLoop (by simp [Activity.NoLoop, ha])
  | bit cur c l r hp ha => exact absurd h.noLoop (by simp [Activity.NoLoop, ha])
  | token tok rest act hp ht => exact absurd h.noLoop ht.loop

theorem countToken_writeFree {s u : State} (h : WriteFree s u) (tok : InToken) : WriteFree s (countToken tok u) := by
  cases tok with
  | byte b =>
    unfold countToken
    dsimp only
    split
    · exact .raise h.outPort h.bw
    · exact ⟨h.outPort, h.bw, h.pending, trivial⟩
  | eoi => exact .succeed h.outPort h.bw
  | ioerr => exact .raise h.outPort h.bw

theorem hdrLoadToken_writeFree {s u : State} (h : WriteFree s u) (hd : List Byte) (sum : Nat) (tok : InToken) :
    WriteFree s (hdrLoadToken hd sum tok u) := by
  cases tok with
  | byte b =>
    unfold hdrLoadToken
    dsimp only
    split
    · exact .raise h.outPort h.bw
    · exact ⟨h.outPort, h.bw, h.pending, trivial⟩
    · split
      · exact .succeed h.outPort h.bw
      · exact ⟨h.outPort, h.bw, h.pending, trivial⟩
  | eoi => exact .raise h.outPort h.bw
  | ioerr => exact .raise h.outPort h.bw

/-- The loops of GETBIT, COUNT and HDR_LOAD and their epilogue's drain emit nothing. -/
theorem Turn.writeFree {s u : State} {act : InToken → State → State} (ht : Turn u act) (h : WriteFree s u)
    (tok : InToken) : WriteFree s (act tok u) := by
  have hs := h.silent
  cases ht with
  | getbit ha =>
    cases tok with
    | byte b => exact .succeed h.outPort h.bw
    | eoi => exact .succeed h.outPort h.bw
    | ioerr => exact .raise h.outPort h.bw
  | count ha => exact countToken_writeFree h tok
  | hdrLoad hd sum ha => exact hdrLoadToken_writeFree h hd sum tok
  | encode ha | decode cur c l r ha | decodeEnd ha => simp [Activity.Silent, ha] at hs
  | errDrain e info a ha =>
    obtain rfl : a = false := by simpa [Activity.Silent, ha] using hs
    unfold drainToken
    split
    · exact ⟨h.outPort, h.bw, rfl, trivial⟩
    · exact h

theorem coreMove_writeFree {s : State} (u v : State) (h : WriteFree s u) (hm : coreMove u = some v) : WriteFree s v := by
  have hs := h.silent
  cases coreMove_move hm with
  | emit tok rest hp => simp [h.pending] at hp
  | complete v => exact complete_writeFree h v
  | leaf cur sym c hp ha => simp [Activity.Silent, ha] at hs
  | bit cur c l r hp ha => simp [Activity.Silent, ha] at hs
  | token tok rest act hp ht =>
    exact (ht.taken rest (u.segEnded || tok.terminates)).writeFree ⟨h.outPort, h.bw, h.pending, hs⟩ tok

/-! A start. -/

theorem startFreqRd_portFree (idx : BitVec 10) (s : State) : PortFree s (startFreqRd idx s) := by
  unfold startFreqRd
  cases symbolOf idx with
  | none => exact .raise rfl rfl rfl rfl rfl
  | some k => exact .succeed rfl rfl rfl rfl

theorem startFreqWr_portFree (idx : BitVec 10) (s : State) : PortFree s (startFreqWr idx s) := by
  unfold startFreqWr
  cases symbolOf idx with
  | none => exact .raise rfl rfl rfl rfl rfl
  | some k => exact .succeed rfl rfl rfl rfl

/-- BUILD's errors are found before any stream phase (R221, R315). -/
theorem buildCheck_stream {f : FreqTable} {e : ErrCode} {info : Word} (h : buildCheck f = some (e, info)) :
    e.stream = false := by
  unfold buildCheck at h
  split at h
  · cases h; rfl
  · split at h
    · cases h; rfl
    · split at h
      · cases h; rfl
      · cases h

theorem startBuild_portFree (s : State) : PortFree s (startBuild s) := by
  unfold startBuild
  cases hc : buildCheck s.freq with
  | none => exact .succeed rfl rfl rfl rfl
  | some v => exact .raise (buildCheck_stream hc) rfl rfl rfl rfl

theorem startNodeRd_portFree (idx : BitVec 10) (sel : BitVec 4) (s : State) : PortFree s (startNodeRd idx sel s) := by
  unfold startNodeRd
  split
  · cases nodeOf idx s.nnode with
    | none => exact .raise rfl rfl rfl rfl rfl
    | some i => exact .succeed rfl rfl rfl rfl
  · exact .raise rfl rfl rfl rfl rfl

theorem startGencodes_portFree (s : State) : PortFree s (startGencodes s) := by
  unfold startGencodes
  split
  · exact .succeed rfl rfl rfl rfl
  · exact .raise rfl rfl rfl rfl rfl

theorem startCodeRd_portFree (idx : BitVec 10) (sel : BitVec 4) (s : State) : PortFree s (startCodeRd idx sel s) := by
  unfold startCodeRd
  split
  · cases symbolOf idx with
    | none => exact .raise rfl rfl rfl rfl rfl
    | some k => exact .succeed rfl rfl rfl rfl
  · exact .raise rfl rfl rfl rfl rfl

/-- The commands of the tables and NOP use no port at all. -/
theorem start_portFree {i : Instr} (hi : i.op ∈ [.nop, .freqRd, .freqWr, .build, .nodeRd, .gencodes, .codeRd])
    (s : State) : PortFree s (start i s) := by
  cases i with
  | nop => exact .succeed rfl rfl rfl rfl
  | freqRd idx => exact startFreqRd_portFree idx s
  | freqWr idx => exact startFreqWr_portFree idx s
  | build => exact startBuild_portFree s
  | nodeRd idx sel =>
    simp only [start]
    split
    · exact startNodeRd_portFree idx sel s
    · exact .raise rfl rfl rfl rfl rfl
  | gencodes => exact startGencodes_portFree s
  | codeRd idx sel =>
    simp only [start]
    split
    · exact startCodeRd_portFree idx sel s
    · exact .raise rfl rfl rfl rfl rfl
  | putbits | flush | getbit | count | hdrEmit | hdrLoad | encode | decode => simp [Instr.op] at hi

theorem start_readFree {i : Instr} (hi : i.op ∉ [.getbit, .count, .hdrLoad, .encode, .decode]) (s : State) :
    ReadFree s (start i s) := by
  cases i with
  | putbits n =>
    simp only [start]
    split
    · exact .succeed rfl rfl
    · exact .raise rfl rfl rfl
  | flush => exact .succeed rfl rfl
  | hdrEmit =>
    simp only [start, startHdrEmit_eq]
    exact .succeed rfl rfl
  | getbit | count | hdrLoad | encode | decode => simp [Instr.op] at hi
  | nop | freqRd | freqWr | build | nodeRd | gencodes | codeRd =>
    exact (start_portFree (by simp [Instr.op]) s).toReadFree

theorem start_writeFree {i : Instr} (hi : i.op ∉ [.putbits, .flush, .hdrEmit, .encode, .decode]) (s : State) :
    WriteFree s (start i s) := by
  cases i with
  | getbit =>
    simp only [start, startGetbit]
    split
    · exact ⟨rfl, rfl, rfl, trivial⟩
    · exact .succeed rfl rfl
  | count => exact ⟨rfl, rfl, rfl, trivial⟩
  | hdrLoad => exact ⟨rfl, rfl, rfl, trivial⟩
  | putbits | flush | hdrEmit | encode | decode => simp [Instr.op] at hi
  | nop | freqRd | freqWr | build | nodeRd | gencodes | codeRd =>
    exact (start_portFree (by simp [Instr.op]) s).toWriteFree

/-- Settles O51: a command outside either list starts without an InRead, or an OutWrite, ahead of it, and no move brings one
about. -/
theorem portlessCommandsTouchNoPort : Obligations.PortlessCommandsTouchNoPort := by
  unfold Obligations.PortlessCommandsTouchNoPort
  intro i s t h
  refine ⟨fun hi => ?_, fun hi => ?_⟩
  · have ht : ReadFree s t := exec_keeps coreMove_readFree h (start_readFree hi s)
    exact ⟨ht.inPort, ht.br⟩
  · have ht : WriteFree s t := exec_keeps coreMove_writeFree h (start_writeFree hi s)
    exact ⟨ht.outPort, ht.bw⟩

end Sys2Proof.Machine
end

section
/-! PROOF. No lookahead (00_scope.md R8; 20_memory.md R84): the statement NoLookahead (O53).

More tokens behind those the input port holds (`State.withInput`) go through the start of a command and through every move, so
a run that ends its command does the same with them; they stay in the port. -/
namespace Sys2Proof.Machine

/-! No lookahead (R8, R84): more tokens behind those a move can see change nothing but what is left in the port. -/

/-- The same state with more tokens offered behind those the input port holds. -/
def State.withInput (extra : List InToken) (s : State) : State := { s with inPort := s.inPort ++ extra }

section
variable (extra : List InToken) (s : State)

@[simp] theorem State.withInput_br : (s.withInput extra).br = s.br := rfl
@[simp] theorem State.withInput_bw : (s.withInput extra).bw = s.bw := rfl
@[simp] theorem State.withInput_code : (s.withInput extra).code = s.code := rfl
@[simp] theorem State.withInput_node : (s.withInput extra).node = s.node := rfl
@[simp] theorem State.withInput_freq : (s.withInput extra).freq = s.freq := rfl
@[simp] theorem State.withInput_symCnt : (s.withInput extra).symCnt = s.symCnt := rfl
@[simp] theorem State.withInput_segEnded : (s.withInput extra).segEnded = s.segEnded := rfl
@[simp] theorem State.withInput_activity : (s.withInput extra).activity = s.activity := rfl
@[simp] theorem State.withInput_pending : (s.withInput extra).pending = s.pending := rfl

end

section
variable {extra : List InToken} {u v a b a' b' : State}

/-- A branch on what the extra tokens do not touch. -/
theorem ite_withInput {p : Prop} [Decidable p] (ha : a' = a.withInput extra) (hb : b' = b.withInput extra) :
    (if p then a' else b') = (if p then a else b).withInput extra := by
  subst ha hb
  exact (apply_ite (State.withInput extra) p a b).symm

theorem setReader_withInput (br : BitReader) (h : v = u.withInput extra) :
    { v with br := br } = { u with br := br }.withInput extra := h ▸ rfl

theorem setWriter_withInput (bw : BitWriter) (h : v = u.withInput extra) :
    { v with bw := bw } = { u with bw := bw }.withInput extra := h ▸ rfl

theorem clearFreq_withInput (h : v = u.withInput extra) : v.clearFreq = u.clearFreq.withInput extra := h ▸ rfl

theorem setFreq_withInput (k : Nat) (c : Word) (h : v = u.withInput extra) :
    v.setFreq k c = (u.setFreq k c).withInput extra := h ▸ rfl

theorem countBits_withInput (k : Nat) (h : v = u.withInput extra) :
    v.countBits k = (u.countBits k).withInput extra := h ▸ rfl

theorem countSymbol_withInput (h : v = u.withInput extra) : v.countSymbol = u.countSymbol.withInput extra := h ▸ rfl

/-- The command goes on elsewhere. -/
theorem goOn_withInput (out : List OutToken) (act : Activity) (h : v = u.withInput extra) :
    { v with pending := out, activity := act } = { u with pending := out, activity := act }.withInput extra := h ▸ rfl

theorem raise_withInput {e : ErrCode} {info : Word} {abort : Bool} (h : v = u.withInput extra) :
    v.raise e info abort = (u.raise e info abort).withInput extra := by
  subst h
  exact ite_withInput (ite_withInput rfl rfl) rfl

end

section
variable (extra : List InToken) (u : State)

theorem countToken_withInput (tok : InToken) :
    countToken tok (u.withInput extra) = (countToken tok u).withInput extra := by
  cases tok with
  | byte b =>
    unfold countToken
    rw [State.withInput_br, State.withInput_symCnt, State.withInput_freq]
    dsimp only
    generalize u.br.readGroup8 b = r
    have hr := setReader_withInput (extra := extra) (u := u) r.2 rfl
    refine ite_withInput (raise_withInput (clearFreq_withInput hr)) ?_
    exact goOn_withInput _ _ (countSymbol_withInput (setFreq_withInput _ _ hr))
  | eoi => exact goOn_withInput _ _ (setFreq_withInput _ _ (setReader_withInput _ rfl))
  | ioerr => exact raise_withInput (clearFreq_withInput (setReader_withInput _ rfl))

theorem hdrLoadToken_withInput (h : List Byte) (sum : Nat) (tok : InToken) :
    hdrLoadToken h sum tok (u.withInput extra) = (hdrLoadToken h sum tok u).withInput extra := by
  cases tok with
  | byte b =>
    unfold hdrLoadToken
    rw [State.withInput_br]
    dsimp only
    generalize u.br.readGroup8 b = r
    have hr := setReader_withInput (extra := extra) (u := u) r.2 rfl
    cases headerVerdict h.length (r.1 :: h) sum with
    | bad e info => exact raise_withInput (clearFreq_withInput hr)
    | more => exact goOn_withInput _ _ hr
    | entry k c sum' =>
      have hk := setFreq_withInput k c hr
      exact ite_withInput (goOn_withInput _ _ hk) (goOn_withInput _ _ hk)
  | eoi => exact raise_withInput (clearFreq_withInput (setReader_withInput _ rfl))
  | ioerr => exact raise_withInput (clearFreq_withInput (setReader_withInput _ rfl))

theorem encodeEnd_withInput : encodeEnd (u.withInput extra) = (encodeEnd u).withInput extra := by
  unfold encodeEnd
  rw [State.withInput_code, State.withInput_bw]
  exact goOn_withInput _ _ (countBits_withInput _ (setWriter_withInput _ rfl))

theorem encodeToken_withInput (tok : InToken) :
    encodeToken tok (u.withInput extra) = (encodeToken tok u).withInput extra := by
  cases tok with
  | byte b =>
    unfold encodeToken
    rw [State.withInput_br, State.withInput_code, State.withInput_bw]
    dsimp only
    generalize u.br.readGroup8 b = r
    have hr := setReader_withInput (extra := extra) (u := u) r.2 rfl
    cases u.code[byteSymbol r.1] with
    | none => exact raise_withInput hr
    | some p => exact goOn_withInput _ _ (countSymbol_withInput (countBits_withInput _ (setWriter_withInput _ hr)))
  | eoi => exact encodeEnd_withInput extra { u with br := u.br.discarded }
  | ioerr => exact raise_withInput (setReader_withInput _ rfl)

theorem getbitToken_withInput (tok : InToken) :
    getbitToken tok (u.withInput extra) = (getbitToken tok u).withInput extra := by
  cases tok with
  | byte b => rfl
  | eoi => rfl
  | ioerr => exact raise_withInput rfl

theorem decodeLeaf_withInput (sym : Symbol) :
    decodeLeaf sym (u.withInput extra) = (decodeLeaf sym u).withInput extra := by
  unfold decodeLeaf
  rw [State.withInput_bw]
  dsimp only
  generalize u.bw.writeAll _ = r
  exact ite_withInput rfl (goOn_withInput _ _ (countSymbol_withInput (setWriter_withInput _ rfl)))

theorem decodeBit_withInput (l r : NodeIdx) (bit : Bool × BitReader) :
    decodeBit l r bit (u.withInput extra) = (decodeBit l r bit u).withInput extra :=
  goOn_withInput _ _ (countBits_withInput _ (setReader_withInput _ rfl))

theorem decodeToken_withInput (l r : NodeIdx) (tok : InToken) :
    decodeToken l r tok (u.withInput extra) = (decodeToken l r tok u).withInput extra := by
  cases tok with
  | byte b => exact decodeBit_withInput extra u l r (u.br.readBit b)
  | eoi => exact raise_withInput rfl
  | ioerr => exact raise_withInput rfl

theorem decodeEndToken_withInput (tok : InToken) :
    decodeEndToken tok (u.withInput extra) = (decodeEndToken tok u).withInput extra := by
  cases tok with
  | byte b => rfl
  | eoi => rfl
  | ioerr => exact raise_withInput rfl

theorem complete_withInput (v : Option (ErrCode × Word)) :
    (u.withInput extra).complete v = (u.complete v).withInput extra := by
  cases v <;> rfl

end

/-- A turn of a loop does with its token the same. -/
theorem Turn.withInput {s : State} {act : InToken → State → State} (ht : Turn s act) (extra : List InToken)
    (tok : InToken) (u : State) : act tok (u.withInput extra) = (act tok u).withInput extra := by
  cases ht with
  | getbit => exact getbitToken_withInput extra u tok
  | count => exact countToken_withInput extra u tok
  | hdrLoad h sum => exact hdrLoadToken_withInput extra u h sum tok
  | encode => exact encodeToken_withInput extra u tok
  | decode cur c l r => exact decodeToken_withInput extra u l r tok
  | decodeEnd => exact decodeEndToken_withInput extra u tok
  | errDrain e info a => exact ite_withInput rfl rfl

/-- The head of a loop is one with any tokens in the port. -/
theorem Turn.atInput {s : State} {act : InToken → State → State} (ht : Turn s act) (extra : List InToken) :
    Turn (s.withInput extra) act := ht.taken (s.inPort ++ extra) s.segEnded

/-- A move goes through as well with more tokens behind, and leaves those (R84). -/
theorem coreMove_withInput {s t : State} (extra : List InToken) (h : coreMove s = some t) :
    coreMove (s.withInput extra) = some (t.withInput extra) := by
  cases coreMove_move h with
  | emit tok rest hp hroom =>
    unfold coreMove
    rw [State.withInput_pending, hp]
    exact outWrite_eq_some.mpr ⟨hroom, rfl⟩
  | complete v hp ha =>
    unfold coreMove
    simp only [State.withInput_pending, hp, State.withInput_activity, ha, complete_withInput]
  | leaf cur sym c hp ha hn =>
    unfold coreMove decodeMove
    simp only [State.withInput_pending, hp, State.withInput_activity, ha, State.withInput_node, hn, decodeLeaf_withInput]
  | bit cur c l r hp ha hn hb =>
    unfold coreMove decodeMove
    have hb' : ¬ s.br.n.val = 0 := by omega
    simp only [State.withInput_pending, hp, State.withInput_activity, ha, State.withInput_node, hn, State.withInput_br, hb',
      if_false, decodeBit_withInput]
  | token tok rest act hp ht hin =>
    have hin' : (s.withInput extra).inPort = tok :: (rest ++ extra) := congrArg (· ++ extra) hin
    rw [coreMove_token (s := s.withInput extra) hp (ht.atInput extra) hin']
    exact congrArg some (ht.withInput extra tok { s with inPort := rest, segEnded := s.segEnded || tok.terminates })

/-- A run to the end of a command needs no more tokens than it has. -/
theorem coreRun_withInput (extra : List InToken) (n : Nat) {s : State} (hs : s.IdleOk)
    (h : (coreRun n s).activity = .idle) : coreRun n (s.withInput extra) = (coreRun n s).withInput extra := by
  induction n generalizing s with
  | zero => rfl
  | succ n ih =>
    cases hm : coreMove s with
    | none =>
      rw [coreRun_stopped hm] at h ⊢
      exact coreRun_stopped (s := s.withInput extra) (coreMove_idle (hs h).2 h) _
    | some t =>
      rw [coreRun_move hm] at h ⊢
      rw [coreRun_move (coreMove_withInput extra hm)]
      exact ih (coreMove_idleOk s t hs hm) h

theorem launch_withInput (extra : List InToken) {s : State} (hs : s.IdleOk) (h : (launch s).activity = .idle) :
    launch (s.withInput extra) = (launch s).withInput extra := by
  cases hp : s.pace with
  | some n =>
    have hrun : ∀ u : State, u.pace = some n → launch u = coreRun n u := fun u hu => by simp [launch, hu]
    rw [hrun s hp] at h ⊢
    exact (hrun (s.withInput extra) hp).trans (coreRun_withInput extra n hs h)
  | none =>
    rw [launch_eager hp] at h ⊢
    rw [launch_eager (s := s.withInput extra) hp]
    have hrun : coreRun (moveBound s) (s.withInput extra) = (runOn s).withInput extra := coreRun_withInput extra _ hs h
    have hidle : (runOn s).IdleOk := coreRun_keeps coreMove_idleOk _ s hs
    have hstop : coreMove ((runOn s).withInput extra) = none := coreMove_idle (hidle h).2 h
    rw [← hrun] at hstop ⊢
    exact coreRun_stop_unique (runOn_stopped _) hstop

section
variable (extra : List InToken) (s : State)

theorem startFreqRd_withInput (idx : BitVec 10) :
    startFreqRd idx (s.withInput extra) = (startFreqRd idx s).withInput extra := by
  unfold startFreqRd
  cases symbolOf idx with
  | none => exact raise_withInput rfl
  | some k => rfl

theorem startFreqWr_withInput (idx : BitVec 10) :
    startFreqWr idx (s.withInput extra) = (startFreqWr idx s).withInput extra := by
  unfold startFreqWr
  cases symbolOf idx with
  | none => exact raise_withInput rfl
  | some k => rfl

theorem startHdrEmit_withInput : startHdrEmit (s.withInput extra) = (startHdrEmit s).withInput extra := by
  rw [startHdrEmit_eq, startHdrEmit_eq, State.withInput_bw, State.withInput_freq]
  exact goOn_withInput _ _ (setWriter_withInput _ rfl)

theorem startBuild_withInput : startBuild (s.withInput extra) = (startBuild s).withInput extra := by
  unfold startBuild
  rw [State.withInput_freq]
  cases buildCheck s.freq with
  | none => rfl
  | some v => exact raise_withInput rfl

theorem startNodeRd_withInput (idx : BitVec 10) (sel : BitVec 4) :
    startNodeRd idx sel (s.withInput extra) = (startNodeRd idx sel s).withInput extra := by
  refine ite_withInput ?_ (raise_withInput rfl)
  rw [show (s.withInput extra).nnode = s.nnode from rfl]
  cases nodeOf idx s.nnode with
  | none => exact raise_withInput rfl
  | some k => rfl

theorem startCodeRd_withInput (idx : BitVec 10) (sel : BitVec 4) :
    startCodeRd idx sel (s.withInput extra) = (startCodeRd idx sel s).withInput extra := by
  refine ite_withInput ?_ (raise_withInput rfl)
  cases symbolOf idx with
  | none => exact raise_withInput rfl
  | some k => rfl

/-- A start looks at no token. -/
theorem start_withInput (i : Instr) : start i (s.withInput extra) = (start i s).withInput extra := by
  cases i with
  | nop => rfl
  | putbits n => exact ite_withInput rfl (raise_withInput rfl)
  | flush => rfl
  | getbit => exact ite_withInput rfl rfl
  | count => rfl
  | freqRd idx => exact startFreqRd_withInput extra s idx
  | freqWr idx => exact startFreqWr_withInput extra s idx
  | hdrEmit => exact startHdrEmit_withInput extra s
  | hdrLoad => rfl
  | build => exact startBuild_withInput extra s
  | nodeRd idx sel => exact ite_withInput (startNodeRd_withInput extra s idx sel) (raise_withInput rfl)
  | gencodes => exact ite_withInput rfl (raise_withInput rfl)
  | codeRd idx sel => exact ite_withInput (startCodeRd_withInput extra s idx sel) (raise_withInput rfl)
  | encode => exact ite_withInput rfl (raise_withInput rfl)
  | decode => exact ite_withInput rfl (raise_withInput rfl)

end

/-- Settles O53: the start looks at no token, each move at the oldest at most, and the run that ends the command ends it
with more tokens behind too. -/
theorem noLookahead : Obligations.NoLookahead := by
  unfold Obligations.NoLookahead
  intro i s t extra h hidle
  obtain rfl := exec_eq_next.mp h
  have hs : (start i s).IdleOk := idleOk_of_running (start_activity i s)
  refine exec_eq_next.mpr ?_
  calc (launch (start i s)).withInput extra
    _ = launch ((start i s).withInput extra) := (launch_withInput extra hs hidle).symm
    _ = launch (start i (s.withInput extra)) := by rw [start_withInput]

end Sys2Proof.Machine
end

section
/-! PROOF. Encoding and decoding (30_encoding.md R120-R129): the statements DecodeOfEncode (O1), EncodeOfDecode (O2),
DecodeRefusesByName (O3) and SpecWordsDecode (O4).

A command word is OP, then the operands of its format (`Op.operandWidth` bits), then reserved bits (R122), so a word matches
a row exactly when it has the row's OP and no reserved bit set (`matches_iff`). Rows differ in OP, so at most one row matches,
and each answer of `decode` is a statement about the rows (`decode_eq_ok_iff` and its neighbours). -/
namespace Sys2Proof

open Machine

/-! The places of a word: OP, k operand bits, reserved bits (R122). -/

/-- The k bits from bit p on. -/
def fieldMask (p k : Nat) : Word := (BitVec.allOnes k).setWidth 32 <<< p

/-- What is read at a place, put back there. -/
theorem field_extract (w : Word) (p k : Nat) :
    (w.extractLsb' p k).setWidth 32 <<< p = w &&& fieldMask p k := by
  refine BitVec.eq_of_getLsbD_eq fun j hj => ?_
  rw [fieldMask, BitVec.getLsbD_and, getLsbD_field, getLsbD_field, BitVec.getLsbD_extractLsb', BitVec.getLsbD_allOnes]
  by_cases hp : p ≤ j
  · simp [hp, hj, Bool.and_comm]
  · simp [hp]

/-- A word is known by its OP, its operand bits and its reserved bits. -/
theorem eq_iff_places {k : Nat} (hk : k ≤ 24) (x y : Word) :
    x = y ↔ x.extractLsb' 0 8 = y.extractLsb' 0 8 ∧ x.extractLsb' 8 k = y.extractLsb' 8 k ∧
      x.extractLsb' (8 + k) (24 - k) = y.extractLsb' (8 + k) (24 - k) := by
  refine ⟨fun h => by simp [h], fun ⟨hop, hoperands, hreserved⟩ => BitVec.eq_of_getLsbD_eq fun j hj => ?_⟩
  have at_place : ∀ {p l : Nat}, x.extractLsb' p l = y.extractLsb' p l → p ≤ j → j < p + l →
      x.getLsbD j = y.getLsbD j := by
    intro p l h hp hl
    have hbit := congrArg (·.getLsbD (j - p)) h
    have hlt : j - p < l := by omega
    simpa [hlt, Nat.add_sub_cancel' hp] using hbit
  rcases Nat.lt_or_ge j 8 with h8 | h8
  · exact at_place hop (Nat.zero_le j) (by omega)
  · rcases Nat.lt_or_ge j (8 + k) with hj' | hj'
    · exact at_place hoperands h8 hj'
    · exact at_place hreserved hj' (by omega)

theorem extract_and_not (x m : Word) (p l : Nat) :
    (x &&& ~~~m).extractLsb' p l = x.extractLsb' p l &&& ~~~(m.extractLsb' p l) := by
  ext i hi
  by_cases h : p + i < 32
  · simp [h]
  · simp [BitVec.getLsbD_of_ge x (p + i) (by omega)]

/-- With the operand bits masked out, a word is a bare OP exactly when it has that OP and no reserved bit set. -/
theorem masked_eq_op_iff {k : Nat} (hk : k ≤ 24) (w : Word) (c : BitVec 8) :
    w &&& ~~~fieldMask 8 k = c.setWidth 32 <<< 0 ↔ w.extractLsb' 0 8 = c ∧ w.extractLsb' (8 + k) (24 - k) = 0#(24 - k) := by
  have hmask_operands : (fieldMask 8 k).extractLsb' 8 k = BitVec.allOnes k := extract_field _ (by omega)
  have hmask_op : (fieldMask 8 k).extractLsb' 0 8 = 0#8 := extract_beside_field _ (.inl le_rfl)
  have hmask_reserved : (fieldMask 8 k).extractLsb' (8 + k) (24 - k) = 0#_ := extract_beside_field _ (.inr le_rfl)
  have hop : (c.setWidth 32 <<< 0).extractLsb' 0 8 = c := extract_field c (by decide)
  have hop_beside {q l : Nat} (h : 8 ≤ q) : (c.setWidth 32 <<< 0).extractLsb' q l = 0#l :=
    extract_beside_field c (.inr h)
  rw [eq_iff_places hk, hop, hop_beside le_rfl, hop_beside (Nat.le_add_right 8 k)]
  simp only [extract_and_not, hmask_op, hmask_operands, hmask_reserved, BitVec.not_zero, BitVec.not_allOnes,
    BitVec.and_allOnes, BitVec.and_zero, true_and]

/-! The rows of the opcode table (R123). -/

/-- How many bits the operands of an operation take, from bit 8 on (R121, R122). -/
def Op.operandWidth : Op → Nat
  | .putbits => 6
  | .freqRd => 10
  | .freqWr => 10
  | .nodeRd => 14
  | .codeRd => 14
  | .nop => 0
  | .flush => 0
  | .getbit => 0
  | .count => 0
  | .hdrEmit => 0
  | .hdrLoad => 0
  | .build => 0
  | .gencodes => 0
  | .encode => 0
  | .decode => 0

theorem Op.operandWidth_le (o : Op) : o.operandWidth ≤ 24 := by cases o <;> decide

/-- Every operation has its row. -/
theorem exists_row (o : Op) : ∃ r ∈ opcodeTable, r.op = o := by cases o <;> decide

section
variable {r : Row} (hr : r ∈ opcodeTable)
include hr

theorem pattern_of_row : r.op.pattern = r.pattern := by
  revert r
  decide

theorem pattern_eq_op : r.pattern = (opField r.pattern).setWidth 32 <<< 0 := by
  revert r
  decide

theorem mask_eq_not_operands : r.mask = ~~~fieldMask 8 r.op.operandWidth := by
  revert r
  decide

/-- Rows differ in OP. -/
theorem row_unique {q : Row} (hq : q ∈ opcodeTable) {w : Word} (hqw : opField w = opField q.pattern)
    (hrw : opField w = opField r.pattern) : q = r := by
  have hrows : ∀ r ∈ opcodeTable, ∀ q ∈ opcodeTable, opField q.pattern = opField r.pattern → q = r := by decide
  exact hrows r hr q hq (hqw.symm.trans hrw)

/-- A word matches a row exactly when it has the row's OP and every reserved bit is 0 (R123, R124). -/
theorem matches_iff {w : Word} :
    r.matches w = true ↔
      opField w = opField r.pattern ∧ w.extractLsb' (8 + r.op.operandWidth) (24 - r.op.operandWidth) = 0#_ := by
  have h := masked_eq_op_iff r.op.operandWidth_le w (opField r.pattern)
  rwa [← mask_eq_not_operands hr, ← pattern_eq_op hr, ← beq_iff_eq] at h

theorem op_of_matches {w : Word} (h : r.matches w = true) : opField w = opField r.pattern := ((matches_iff hr).mp h).1

theorem find_of_matches {w : Word} (h : r.matches w = true) : opcodeTable.find? (·.matches w) = some r := by
  cases hf : opcodeTable.find? (·.matches w) with
  | none => exact absurd h (List.find?_eq_none.mp hf r hr)
  | some q =>
    have hq : q ∈ opcodeTable := List.mem_of_find?_eq_some hf
    have hqw : q.matches w = true := by simpa using List.find?_some hf
    rw [row_unique hr hq (op_of_matches hq hqw) (op_of_matches hr h)]

/-- No row matches a word that has a row's OP and yet does not match that row. -/
theorem find_of_reserved {w : Word} (hop : opField w = opField r.pattern) (hm : r.matches w = false) :
    opcodeTable.find? (·.matches w) = none := by
  refine List.find?_eq_none.mpr fun q hq hqw => ?_
  rw [row_unique hr hq (op_of_matches hq hqw) hop, hm] at hqw
  cases hqw

end

/-! What the decoder answers (R124-R128). -/

/-- The answers the rows give for a word. -/
inductive Answer (w : Word) : Except Illegal Instr → Prop
  | command (r : Row) (hr : r ∈ opcodeTable) (hm : r.matches w = true) (hwf : (r.op.withFields w).wf = true) :
    Answer w (.ok (r.op.withFields w))
  | fieldLimit (r : Row) (hr : r ∈ opcodeTable) (hm : r.matches w = true) (hwf : (r.op.withFields w).wf = false) :
    Answer w (.error .fieldLimit)
  | reservedBits (r : Row) (hr : r ∈ opcodeTable) (hop : opField w = opField r.pattern) (hm : r.matches w = false) :
    Answer w (.error .reservedBits)
  | undefinedOpcode (h : ∀ r ∈ opcodeTable, opField w ≠ opField r.pattern) : Answer w (.error .undefinedOpcode)

theorem find_of_undefined {w : Word} (h : ∀ r ∈ opcodeTable, opField w ≠ opField r.pattern) :
    opcodeTable.find? (·.matches w) = none :=
  List.find?_eq_none.mpr fun q hq hqw => h q hq (op_of_matches hq hqw)

theorem decode_eq_of_answer {w : Word} {a : Except Illegal Instr} (h : Answer w a) : decode w = a := by
  unfold decode
  cases h with
  | command r hr hm hwf => simp only [find_of_matches hr hm, if_pos hwf]
  | fieldLimit r hr hm hwf => simp only [find_of_matches hr hm, hwf, Bool.false_eq_true, if_false]
  | reservedBits r hr hop hm =>
    have hany : opcodeTable.any (fun r => opField r.pattern == opField w) = true :=
      List.any_eq_true.mpr ⟨r, hr, beq_iff_eq.mpr hop.symm⟩
    simp only [find_of_reserved hr hop hm, if_pos hany]
  | undefinedOpcode h =>
    have hany : ¬ opcodeTable.any (fun r => opField r.pattern == opField w) = true := fun hany => by
      obtain ⟨r, hr, hop⟩ := List.any_eq_true.mp hany
      exact h r hr (beq_iff_eq.mp hop).symm
    simp only [find_of_undefined h, if_neg hany]

/-- Every word has an answer (R128). -/
theorem exists_answer (w : Word) : ∃ a, Answer w a := by
  by_cases hop : ∃ r ∈ opcodeTable, opField w = opField r.pattern
  · obtain ⟨r, hr, hop⟩ := hop
    cases hm : r.matches w with
    | false => exact ⟨_, .reservedBits r hr hop hm⟩
    | true =>
      cases hwf : (r.op.withFields w).wf with
      | false => exact ⟨_, .fieldLimit r hr hm hwf⟩
      | true => exact ⟨_, .command r hr hm hwf⟩
  · exact ⟨_, .undefinedOpcode fun r hr h => hop ⟨r, hr, h⟩⟩

theorem decode_eq_iff {w : Word} {a : Except Illegal Instr} : decode w = a ↔ Answer w a := by
  refine ⟨fun h => ?_, decode_eq_of_answer⟩
  obtain ⟨b, hb⟩ := exists_answer w
  rwa [← h, decode_eq_of_answer hb]

/-! Each answer, as a statement about the rows. -/

section
variable {w : Word}

theorem decode_eq_ok_iff {i : Instr} :
    decode w = .ok i ↔ ∃ r ∈ opcodeTable, r.matches w = true ∧ r.op.withFields w = i ∧ i.wf = true := by
  refine decode_eq_iff.trans ⟨fun | .command r hr hm hwf => ⟨r, hr, hm, rfl, hwf⟩, ?_⟩
  rintro ⟨r, hr, hm, rfl, hwf⟩
  exact .command r hr hm hwf

theorem decode_eq_fieldLimit_iff :
    decode w = .error .fieldLimit ↔ ∃ r ∈ opcodeTable, r.matches w = true ∧ (r.op.withFields w).wf = false :=
  decode_eq_iff.trans
    ⟨fun | .fieldLimit r hr hm hwf => ⟨r, hr, hm, hwf⟩, fun ⟨r, hr, hm, hwf⟩ => .fieldLimit r hr hm hwf⟩

/-- With a row's OP, not to match the row is to have a reserved bit set. -/
theorem decode_eq_reservedBits_iff :
    decode w = .error .reservedBits ↔ ∃ r ∈ opcodeTable, opField w = opField r.pattern ∧
      w.extractLsb' (8 + r.op.operandWidth) (24 - r.op.operandWidth) ≠ 0#_ := by
  have hmatch {r : Row} (hr : r ∈ opcodeTable) (hop : opField w = opField r.pattern) : r.matches w = false ↔
      w.extractLsb' (8 + r.op.operandWidth) (24 - r.op.operandWidth) ≠ 0#_ := by
    rw [← Bool.not_eq_true, matches_iff hr, not_and, imp_iff_right hop]
  exact decode_eq_iff.trans
    ⟨fun | .reservedBits r hr hop hm => ⟨r, hr, hop, (hmatch hr hop).mp hm⟩,
      fun ⟨r, hr, hop, hres⟩ => .reservedBits r hr hop ((hmatch hr hop).mpr hres)⟩

theorem decode_eq_undefinedOpcode_iff :
    decode w = .error .undefinedOpcode ↔ ∀ r ∈ opcodeTable, opField w ≠ opField r.pattern :=
  decode_eq_iff.trans ⟨fun | .undefinedOpcode h => h, .undefinedOpcode⟩

end

/-! Encoding and its fields (R121, R122, R129). -/

/-- The operand fields of a word's command, put back in their places, are the word's operand bits. -/
theorem fields_withFields (o : Op) (w : Word) : (o.withFields w).fields = w &&& fieldMask 8 o.operandWidth := by
  have hsplit : fieldMask 8 14 = fieldMask 8 10 ||| fieldMask 18 4 := by decide
  cases o with
  | putbits => exact field_extract w 8 6
  | freqRd | freqWr => exact field_extract w 8 10
  | nodeRd | codeRd =>
    show _ = w &&& fieldMask 8 14
    rw [hsplit, BitVec.and_or_distrib_left, ← field_extract, ← field_extract]
    rfl
  | nop | flush | getbit | count | hdrEmit | hdrLoad | build | gencodes | encode | decode =>
    exact (BitVec.and_zero (x := w)).symm

theorem withFields_op (o : Op) (w : Word) : (o.withFields w).op = o := by cases o <;> rfl

/-- The pattern of an operation holds OP alone (R123). -/
theorem pattern_beside_op (o : Op) {q l : Nat} (h : 8 ≤ q) : o.pattern.extractLsb' q l = 0#l := by
  obtain ⟨r, hr, rfl⟩ := exists_row o
  rw [pattern_of_row hr, pattern_eq_op hr]
  exact extract_beside_field _ (.inr h)

/-- Beside OP, the word of a command holds its fields. -/
theorem encode_beside_op (i : Instr) {q l : Nat} (h : 8 ≤ q) :
    (encode i).extractLsb' q l = i.fields.extractLsb' q l := by
  rw [encode, BitVec.extractLsb'_or, pattern_beside_op _ h, BitVec.zero_or]

/-- The fields of an encoded command are read back. -/
theorem withFields_encode (i : Instr) : i.op.withFields (encode i) = i := by
  cases i with
  | putbits n | freqRd idx | freqWr idx | nodeRd idx sel | codeRd idx sel =>
    simp (disch := decide) only [Instr.op, Op.withFields, nField, idxField, selField, encode_beside_op, Instr.fields,
      BitVec.extractLsb'_or, extract_field, extract_beside_field, BitVec.ofNat_eq_ofNat, BitVec.or_zero, BitVec.zero_or]
  | nop | flush | getbit | count | hdrEmit | hdrLoad | build | gencodes | encode | decode => rfl

/-- The fields of a command lie in its operands' places. -/
theorem fields_beside_operands (i : Instr) {q l : Nat} (h : q + l ≤ 8 ∨ 8 + i.op.operandWidth ≤ q) :
    i.fields.extractLsb' q l = 0#l := by
  have hfields : i.fields = encode i &&& fieldMask 8 i.op.operandWidth := by
    rw [← fields_withFields, withFields_encode]
  have hmask : (fieldMask 8 i.op.operandWidth).extractLsb' q l = 0#l := extract_beside_field _ h
  rw [hfields, BitVec.extractLsb'_and, hmask, BitVec.and_zero]

theorem encode_matches (i : Instr) {r : Row} (hr : r ∈ opcodeTable) (hop : r.op = i.op) :
    r.matches (encode i) = true := by
  refine (matches_iff hr).mpr ⟨?_, ?_⟩
  · rw [opField, encode, BitVec.extractLsb'_or, fields_beside_operands i (.inl le_rfl), BitVec.or_zero, ← hop,
      pattern_of_row hr, opField]
  · rw [hop, encode, BitVec.extractLsb'_or, fields_beside_operands i (.inr le_rfl), BitVec.or_zero,
      pattern_beside_op _ (Nat.le_add_right 8 _)]

theorem encode_withFields {r : Row} (hr : r ∈ opcodeTable) {w : Word} (hm : r.matches w = true) :
    encode (r.op.withFields w) = w := by
  have hpattern : w &&& r.mask = r.pattern := beq_iff_eq.mp hm
  rw [encode, withFields_op, pattern_of_row hr, fields_withFields, ← hpattern, mask_eq_not_operands hr,
    ← BitVec.and_or_distrib_left, BitVec.or_comm, BitVec.or_not_self, BitVec.and_allOnes]

/-! The statements. -/

/-- Settles O1: the word of a command matches the command's row, and the row reads the command's fields back. -/
theorem decodeOfEncode : Obligations.DecodeOfEncode := by
  unfold Obligations.DecodeOfEncode
  intro i hwf
  obtain ⟨r, hr, hop⟩ := exists_row i.op
  exact decode_eq_ok_iff.mpr ⟨r, hr, encode_matches i hr hop, by rw [hop, withFields_encode], hwf⟩

/-- Settles O2: the fields a row reads, put back into its pattern, are the word; and another well-formed command with this
word would be what the word decodes to (O1). -/
theorem encodeOfDecode : Obligations.EncodeOfDecode := by
  unfold Obligations.EncodeOfDecode
  intro w i h
  obtain ⟨r, hr, hm, hi, hwf⟩ := decode_eq_ok_iff.mp h
  refine ⟨by rw [← hi, encode_withFields hr hm], hwf, fun j hj hjw => ?_⟩
  have hdecode : decode w = .ok j := hjw ▸ decodeOfEncode j hj
  exact Except.ok.inj (hdecode.symm.trans h)

/-- Settles O3: what each refusal says about the rows, row by row; the statement lists the rows with reserved bits by their
formats. -/
theorem decodeRefusesByName : Obligations.DecodeRefusesByName := by
  unfold Obligations.DecodeRefusesByName
  intro w
  refine ⟨decode_eq_undefinedOpcode_iff.trans ?_, decode_eq_fieldLimit_iff.trans ?_,
    decode_eq_reservedBits_iff.trans ?_⟩
  · simp [opcodeTable, opField, BitVec.toNat_eq]
  · simp [opcodeTable, Row.matches, Op.withFields, Instr.wf, nField, selField]
  · have hop {c : BitVec 8} : opField w = c ↔ (w.extractLsb' 0 8).toNat = c.toNat := BitVec.toNat_inj.symm
    simp only [opcodeTable, List.mem_cons, List.not_mem_nil, or_false, or_and_right, or_assoc, exists_or, exists_eq_left,
      hop]
    dsimp only [opField, BitVec.reduceExtractLsb', BitVec.reduceToNat, Op.operandWidth, Nat.reduceAdd, Nat.reduceSub,
      BitVec.ofNat_eq_ofNat]
    exact iff_of_eq (by ac_rfl)

/-- Settles O4: each of the words is what O1 decodes, the word of its command. -/
theorem specWordsDecode : Obligations.SpecWordsDecode :=
  ⟨decodeOfEncode (.putbits 3) rfl, decodeOfEncode (.putbits 32) rfl, decodeOfEncode (.freqRd 256) rfl,
    decodeOfEncode (.freqWr 65) rfl, decodeOfEncode (.nodeRd 4 1) rfl, decodeOfEncode (.codeRd 65 1) rfl,
    decodeOfEncode .nop rfl, decodeOfEncode .encode rfl, decodeOfEncode .decode rfl⟩

end Sys2Proof
end

section
/-! PROOF. The bit writer's and bit reader's commands (40_bitio.md R150-R161): the statements PutbitsWritesLowBits (O18),
FlushClosesSegment (O19), GetbitReturnsNextBit (O20) and TerminatorEmptiesReader (O55).

PUTBITS and FLUSH are one operation of the bit writer, and emit what it made. GETBIT is one ReadBit, which takes a token only
when no bit is left. A turn of a loop that has taken a terminator leaves no bit in the reader (`Turn.terminated`): ReadGroup8
discards the bits it held, ReadBit had none, and the error epilogue empties the reader. A reader without bits that meets its
invariant is empty (O55). -/
namespace Sys2Proof.Machine

/-! A command that is done, or has failed, as soon as it has started (R35, R317). -/

/-- With nothing to emit, a command whose steps are done needs no room to complete. -/
theorem runOn_succeed_nil (s : State) : runOn (s.succeed []) = s.finished :=
  runOn_finish none (s.succeed []) rfl rfl

/-- A command that is done once it has written to the bit writer emits what that made, the port having room. -/
theorem exec_of_start_write {i : Instr} {s : State} {bw : BitWriter} {out : List OutToken} (hpace : s.pace = none)
    (hstart : start i s = { s with bw := bw }.succeed out) (hroom : s.outPort.length + out.length ≤ s.outDepth) :
    exec i s = .next { s.finished with bw := bw, outPort := s.outPort ++ out } := by
  rw [exec_eq, hstart, launch_eager, runOn_succeed]
  · rfl
  · exact hroom
  · exact hpace

/-- A command that fails at its start, before the stream phase, changes nothing else. -/
theorem exec_of_start_raise {i : Instr} {s : State} {e : ErrCode} {info : Word} {a : Bool} (hpace : s.pace = none)
    (hstart : start i s = s.raise e info a) (he : e.stream = false) : exec i s = .next (s.failed e info) := by
  rw [exec_eq, hstart, launch_eager ((State.raise_pace ..).trans hpace), runOn_raise e info a s he]

/-! The bit writer's commands (R152, R153, R157). -/

theorem close_of_empty {bw : BitWriter} (h : bw.n.val = 0) : bw.close = (bw, [.eoo]) :=
  if_neg (by omega)

theorem close_of_partial {bw : BitWriter} (h : 0 < bw.n.val) :
    bw.close = (⟨0, 0⟩, [.byte (bw.acc <<< (8 - bw.n.val)), .eoo]) :=
  if_pos h

theorem start_flush_of_close {s : State} {bw : BitWriter} {out : List OutToken} (h : s.bw.close = (bw, out)) :
    start .flush s = { s with bw := bw }.succeed out :=
  (startFlush_eq s).trans (by rw [h])

/-- Settles O18: WriteBits cuts the pending bits and the new ones into whole bytes and a rest (`writeAll_spec`); E_ILLEGAL
comes before anything is written. -/
theorem putbitsWritesLowBits : Obligations.PutbitsWritesLowBits := by
  unfold Obligations.PutbitsWritesLowBits
  intro s n hpace
  refine ⟨fun hn hwf hroom => ?_, fun hn => exec_of_start_raise hpace (if_neg (by omega)) rfl⟩
  obtain ⟨bs, hout, hlen, hbits, hrest⟩ := writeAll_spec s.bw (lowBits s.ldata n.toNat)
  rw [length_lowBits] at hlen hrest
  have hstart : start (.putbits n) s =
      { s with bw := (s.bw.writeAll (lowBits s.ldata n.toNat)).1 }.succeed (bytesOut bs) :=
    (if_pos hn).trans (hout ▸ startPutbits_eq n s)
  exact ⟨_, bs, exec_of_start_write hpace hstart (by simpa [bytesOut, hlen] using hroom), hbits, hlen, hrest,
    writeAll_wf _ _ hwf⟩

/-- Settles O19: the two forms of Close. -/
theorem flushClosesSegment : Obligations.FlushClosesSegment := by
  unfold Obligations.FlushClosesSegment
  intro s hpace
  exact ⟨fun hn hroom => exec_of_start_write hpace (start_flush_of_close (close_of_empty hn)) hroom,
    fun hn hroom => exec_of_start_write hpace (start_flush_of_close (close_of_partial hn)) hroom⟩

/-! GETBIT (R155, R160). -/

theorem bitResult_eq (b : Bool) : bitResult b = if b then 1 else 0 := by
  cases b <;> rfl

/-- A stream-phase error found once the terminator is consumed has nothing to drain (R318). -/
theorem raise_of_segEnded {s : State} {e : ErrCode} (info : Word) (a : Bool) (he : e.stream = true)
    (hs : s.segEnded = true) : s.raise e info a = s.abandon e info a := by
  simp [State.raise, he, hs]

theorem readBit_of_left {br : BitReader} (next : Byte) (h : 0 < br.n.val) :
    br.readBit next = (br.acc.getLsbD 7, ⟨br.acc <<< 1, ⟨br.n.val - 1, by omega⟩⟩) :=
  if_neg (by omega)

theorem readBit_of_empty {br : BitReader} (next : Byte) (h : br.n.val = 0) :
    br.readBit next = (next.getLsbD 7, ⟨next <<< 1, 7⟩) :=
  if_pos h

/-- GETBIT with its bit in hand completes (R160). -/
theorem runOn_gotBit (r : Bool × BitReader) (s : State) :
    runOn (gotBit r s) = { s.finished with result := if r.1 then 1 else 0, br := r.2 } := by
  rw [gotBit, runOn_succeed_nil, bitResult_eq]
  rfl

/-- GETBIT with no bit left waits for a token (R155). -/
theorem exec_getbit_of_empty {s : State} (hpace : s.pace = none) (hn : s.br.n.val = 0) :
    exec .getbit s = .next (runOn { s with pending := [], activity := .getbit }) := by
  have hstart : start .getbit s = { s with pending := [], activity := .getbit } := if_pos hn
  rw [exec_eq, hstart, launch_eager (s := { s with pending := [], activity := .getbit }) hpace]

/-- GETBIT's one turn, its token at hand. -/
theorem exec_getbit_token {s : State} {tok : InToken} {rest : List InToken} (hpace : s.pace = none)
    (hn : s.br.n.val = 0) (hin : s.inPort = tok :: rest) :
    exec .getbit s = .next (runOn (getbitToken tok { s with
      pending := [], activity := .getbit, inPort := rest, segEnded := s.segEnded || tok.terminates })) := by
  rw [exec_getbit_of_empty hpace hn]
  exact congrArg Host.Outcome.next (runOn_move (coreMove_token rfl (.getbit rfl) hin))

/-- Settles O20: a bit that is left, a token of each kind, and an empty port. -/
theorem getbitReturnsNextBit : Obligations.GetbitReturnsNextBit := by
  unfold Obligations.GetbitReturnsNextBit
  intro s hpace
  refine ⟨fun hleft => ?_, fun hn => ⟨fun b rest hin => ?_, fun rest hin => ?_, fun rest hin => ?_, fun hin => ?_⟩⟩
  · have hstart : start .getbit s = gotBit (s.br.readBit 0) s := if_neg (by omega)
    rw [exec_eq, hstart, readBit_of_left 0 hleft, launch_eager (s := gotBit _ s) hpace, runOn_gotBit]
  · rw [exec_getbit_token hpace hn hin]
    simp only [getbitToken, readBit_of_empty b hn, runOn_gotBit]
    rfl
  · rw [exec_getbit_token hpace hn hin]
    exact congrArg Host.Outcome.next (runOn_succeed_nil _)
  · rw [exec_getbit_token hpace hn hin, getbitToken, raise_of_segEnded 0 false rfl (by simp [InToken.terminates]),
      runOn_abandon .io 0 false _ (by simp)]
    rfl
  · rw [exec_getbit_of_empty hpace hn]
    exact congrArg Host.Outcome.next (runOn_of_stopped (coreMove_wait rfl (.getbit rfl) hin))

/-! A terminator leaves the reader empty (R155, R156, R161, R318). -/

theorem countToken_segEnded (tok : InToken) (u : State) : (countToken tok u).segEnded = u.segEnded := by
  cases tok with
  | byte b => simp only [countToken]; split <;> simp
  | eoi => rfl
  | ioerr => simp [countToken]

theorem hdrLoadToken_segEnded (h : List Byte) (sum : Nat) (tok : InToken) (u : State) :
    (hdrLoadToken h sum tok u).segEnded = u.segEnded := by
  cases tok with
  | byte b => simp only [hdrLoadToken]; (repeat' split) <;> simp
  | eoi => simp [hdrLoadToken]
  | ioerr => simp [hdrLoadToken]

theorem encodeToken_segEnded (tok : InToken) (u : State) : (encodeToken tok u).segEnded = u.segEnded := by
  cases tok with
  | byte b => simp only [encodeToken]; split <;> simp
  | eoi => simp [encodeToken, encodeEnd]
  | ioerr => simp [encodeToken]

/-- What a loop does with its token leaves seg_ended as taking the token left it (R62). -/
theorem Turn.segEnded {s : State} {act : InToken → State → State} (ht : Turn s act) (tok : InToken) (u : State) :
    (act tok u).segEnded = u.segEnded := by
  cases ht with
  | getbit => cases tok <;> simp [getbitToken, gotBit]
  | count => exact countToken_segEnded tok u
  | hdrLoad h sum => exact hdrLoadToken_segEnded h sum tok u
  | encode => exact encodeToken_segEnded tok u
  | decode => cases tok <;> simp [decodeToken, decodeBit]
  | decodeEnd => cases tok <;> simp [decodeEndToken]
  | errDrain e info a => unfold drainToken; split <;> rfl

theorem decodeLeaf_segEnded (sym : Symbol) (u : State) : (decodeLeaf sym u).segEnded = u.segEnded := by
  unfold decodeLeaf
  split <;> rfl

theorem State.complete_segEnded (v : Option (ErrCode × Word)) (s : State) : (s.complete v).segEnded = false := by
  cases v <;> rfl

/-- The epilogue of a stream-phase error that finds the segment over empties the reader (R318). -/
theorem raise_empties_reader {s : State} {e : ErrCode} (info : Word) (a : Bool) (he : e.stream = true)
    (hs : s.segEnded = true) : (s.raise e info a).br.n = 0 := by
  rw [raise_of_segEnded info a he hs, State.abandon_br]
  rfl

/-- A loop of u that has taken a terminator has no bit left. -/
theorem Turn.terminated {u : State} {act : InToken → State → State} (ht : Turn u act) (hok : u.ActivityOk)
    (hs : u.segEnded = true) {tok : InToken} (htok : tok.terminates = true) : (act tok u).br.n = 0 := by
  cases tok with
  | byte b => simp [InToken.terminates] at htok
  | eoi =>
    cases ht with
    | getbit ha =>
      have hempty : u.br.n = 0 := by simpa [State.ActivityOk, ha] using hok
      exact hempty
    | count => rfl
    | hdrLoad => exact raise_empties_reader _ _ rfl hs
    | encode => rfl
    | decode => exact raise_empties_reader _ _ rfl hs
    | decodeEnd ha =>
      obtain ⟨hempty, -⟩ : u.br = BitReader.empty ∧ u.treeValid = true := by simpa [State.ActivityOk, ha] using hok
      exact congrArg BitReader.n hempty
    | errDrain => rfl
  | ioerr =>
    cases ht with
    | errDrain => rfl
    | _ => exact raise_empties_reader _ _ rfl hs

/-- Settles O55: only a turn of a loop takes a token (`Move.token`), and after a terminator it leaves no bit in the reader,
whose invariant then makes it empty. -/
theorem terminatorEmptiesReader : Obligations.TerminatorEmptiesReader := by
  unfold Obligations.TerminatorEmptiesReader
  intro s t hinv hs hmove ht
  suffices hn : t.br.n = 0 from
    reader_eq_empty t.br (coreMove_inv s t hinv hmove).reader (congrArg Fin.val hn)
  cases coreMove_move hmove with
  | emit => simp [hs] at ht
  | complete v => simp [State.complete_segEnded] at ht
  | leaf cur sym c => simp [decodeLeaf_segEnded, hs] at ht
  | bit cur c l r => simp [decodeBit, hs] at ht
  | token tok rest act hp hturn hin =>
    rw [hturn.segEnded] at ht
    exact (hturn.taken rest (s.segEnded || tok.terminates)).terminated hinv.activity ht (by simpa [hs] using ht)

end Sys2Proof.Machine
end

section
/-! PROOF. Counting and direct access (41_freq.md R180-R185): the statements CountBuildsTable (O21), CountFails (O22),
FreqRdReadsCount (O23) and FreqWrWritesCount (O24).

The reader turns the bytes of a segment into groups, one a byte (`BitReader.made`), and these are the groups of the
segment's bits (`groups_inputBits`). COUNT's loop takes them one at a time and tallies them (`State.counting`,
`runOn_startCount`); what it does at the end of the segment, or at a byte too many, is one more turn. -/
namespace Sys2Proof.Machine

/-! What the reader makes of the bytes of a segment (R155, R156). -/

/-- The groups ReadGroup8 returns over the byte tokens of `bs`, in order. -/
def BitReader.made (br : BitReader) : List Byte → List Byte
  | [] => []
  | b :: bs => (br.readGroup8 b).1 :: (br.readGroup8 b).2.made bs

/-- The reader after them. -/
def BitReader.past (br : BitReader) : List Byte → BitReader
  | [] => br
  | b :: bs => (br.readGroup8 b).2.past bs

section Segments

variable (br : BitReader) (bs : List Byte)

@[simp] theorem made_nil : br.made [] = [] := rfl
@[simp] theorem past_nil : br.past [] = br := rfl

theorem made_cons (b : Byte) : br.made (b :: bs) = (br.readGroup8 b).1 :: (br.readGroup8 b).2.made bs := by
  rw [BitReader.made]

theorem past_cons (b : Byte) : br.past (b :: bs) = (br.readGroup8 b).2.past bs := by
  rw [BitReader.past]

theorem made_append (cs : List Byte) : br.made (bs ++ cs) = br.made bs ++ (br.past bs).made cs := by
  induction bs generalizing br with
  | nil => rfl
  | cons b bs ih => simp [made_cons, past_cons, ih]

theorem past_append (cs : List Byte) : br.past (bs ++ cs) = (br.past bs).past cs := by
  induction bs generalizing br with
  | nil => rfl
  | cons b bs ih => simp [past_cons, ih]

theorem made_concat (b : Byte) : br.made (bs ++ [b]) = br.made bs ++ [((br.past bs).readGroup8 b).1] := by
  rw [made_append, made_cons, made_nil]

theorem past_concat (b : Byte) : br.past (bs ++ [b]) = ((br.past bs).readGroup8 b).2 := by
  rw [past_append, past_cons, past_nil]

@[simp] theorem length_made : (br.made bs).length = bs.length := by
  induction bs generalizing br with
  | nil => rfl
  | cons b bs ih => simp [made_cons, ih]

@[simp] theorem past_n : (br.past bs).n = br.n := by
  induction bs generalizing br with
  | nil => rfl
  | cons b bs ih => rw [past_cons, ih, (readGroup8_spec br b).2]

theorem past_wf (h : br.wf = true) : (br.past bs).wf = true := by
  induction bs generalizing br with
  | nil => exact h
  | cons b bs ih => rw [past_cons]; exact ih _ (readGroup8_wf br b h)

/-- The groups made and the bits still held are the bits at hand. -/
theorem made_past_bits : (br.made bs).flatMap byteBits ++ (br.past bs).bits = inputBits br bs := by
  induction bs generalizing br with
  | nil => simp [inputBits]
  | cons b bs ih =>
    obtain ⟨hb, -⟩ := readGroup8_spec br b
    rw [made_cons, past_cons, List.flatMap_cons, List.append_assoc, ih]
    simp only [inputBits, List.flatMap_cons]
    rw [← List.append_assoc, hb, List.append_assoc]

/-- The groups made are the groups of the segment's bits. -/
theorem groups_inputBits : groups (inputBits br bs) = br.made bs := by
  rw [← made_past_bits]
  exact groups_bytes _ _ (by simp)

/-- A string of bytes has eight times as many bits. -/
theorem length_flatMap_byteBits : (bs.flatMap byteBits).length = 8 * bs.length := by
  simp [Nat.mul_comm]

/-- The reader is left with the bits behind the whole groups. -/
theorem past_bits : (br.past bs).bits = (inputBits br bs).drop (8 * bs.length) := by
  rw [← made_past_bits, List.drop_left' (by rw [length_flatMap_byteBits, length_made])]

end Segments

/-! A command that is done, or has failed, without writing to a port. -/

/-- A command that is done once it has started, and has nothing to emit, completes. -/
theorem exec_of_start_succeed {i : Instr} {s u : State} (hpace : u.pace = none) (hstart : start i s = u.succeed []) :
    exec i s = .next u.finished := by
  rw [exec_eq, hstart, launch_eager (s := u.succeed []) hpace, runOn_succeed_nil]

/-! Direct access (R184, R185). -/

/-- Settles O23: the index names a symbol, or none. -/
theorem freqRdReadsCount : Obligations.FreqRdReadsCount := by
  unfold Obligations.FreqRdReadsCount
  intro s idx hpace
  refine ⟨fun k hk => ?_, fun hk => ?_⟩
  · have hstart : start (.freqRd idx) s = { s with result := s.freq[k] }.succeed [] := by
      simp only [start, startFreqRd, symbolOf_eq_some.mpr hk]
    exact exec_of_start_succeed (u := { s with result := s.freq[k] }) hpace hstart
  · have hstart : start (.freqRd idx) s = s.raise .range (BitVec.ofNat 32 idx.toNat) false := by
      simp only [start, startFreqRd, symbolOf_eq_none.mpr hk, BitVec.ofNat_toNat]
    exact exec_of_start_raise hpace hstart rfl

/-- Settles O24: the index names a symbol, whose entry alone is written, or none. -/
theorem freqWrWritesCount : Obligations.FreqWrWritesCount := by
  unfold Obligations.FreqWrWritesCount
  intro s idx hpace
  refine ⟨fun k hk => ⟨(s.setFreq k.val s.ldata).freq, ?_, setFreq_same s k s.ldata,
    fun j hj => setFreq_other s k j s.ldata hj⟩, fun hk => ?_⟩
  · have hstart : start (.freqWr idx) s = (s.invalidate.setFreq k.val s.ldata).succeed [] := by
      simp only [start, startFreqWr, symbolOf_eq_some.mpr hk]
    exact exec_of_start_succeed (u := s.invalidate.setFreq k.val s.ldata) hpace hstart
  · have hstart : start (.freqWr idx) s = s.raise .range (BitVec.ofNat 32 idx.toNat) false := by
      simp only [start, startFreqWr, symbolOf_eq_none.mpr hk, BitVec.ofNat_toNat]
    exact exec_of_start_raise hpace hstart rfl

/-! COUNT's loop (R180-R183). -/

/-- FREQ after the groups `gs` are counted. -/
def tally (f : FreqTable) (gs : List Byte) : FreqTable :=
  gs.foldl (fun t g => t.setIfInBounds g.toNat (t[byteSymbol g] + 1)) f

theorem tally_byte (f : FreqTable) (gs : List Byte) (b : Byte) :
    (tally f gs)[byteSymbol b] = f[byteSymbol b] + BitVec.ofNat 32 (gs.count b) := by
  induction gs generalizing f with
  | nil => simp [tally]
  | cons g gs ih =>
    have hstep : tally f (g :: gs) = tally (f.setIfInBounds g.toNat (f[byteSymbol g] + 1)) gs := rfl
    rw [hstep, ih]
    by_cases hg : g = b
    · subst hg
      have hlt : g.toNat < 257 := (byteSymbol g).isLt
      simp [byteSymbol, BitVec.ofNat_add]
      rw [BitVec.add_assoc, BitVec.add_comm 1#32]
    · have hne : g.toNat ≠ b.toNat := fun h => hg (BitVec.eq_of_toNat_eq h)
      simp [byteSymbol, hg, hne]

theorem tally_append (f : FreqTable) (gs hs : List Byte) : tally f (gs ++ hs) = tally (tally f gs) hs :=
  List.foldl_append

theorem countToken_byte {s : State} (b : Byte) (hmax : s.symCnt.toNat ≠ Config.maxBytes) :
    countToken (.byte b) s = { s with
      br := (s.br.readGroup8 b).2, freq := tally s.freq [(s.br.readGroup8 b).1], symCnt := s.symCnt + 1
      activity := .count } := by
  simp only [countToken, if_neg hmax]
  generalize s.br.readGroup8 b = r
  rfl

theorem countToken_overflow {s : State} (b : Byte) (hmax : s.symCnt.toNat = Config.maxBytes) :
    countToken (.byte b) s = ({ s with br := (s.br.readGroup8 b).2 }.clearFreq).raise .countOvf
      ((s.br.readGroup8 b).1.setWidth 32) false := by
  simp only [countToken, if_pos hmax]

/-- COUNT at the head of its loop, started on s: the bytes `bs` are counted and `rest` is left in the port. -/
def State.counting (bs : List Byte) (rest : List InToken) (s : State) : State :=
  { s with
    treeValid := false, codesValid := false, freq := tally zeroFreq (s.br.made bs)
    symCnt := BitVec.ofNat 32 bs.length, br := s.br.past bs, inPort := rest, pending := [], activity := .count }

/-- A turn of the loop on a byte, SYMCNT being below its limit. -/
theorem counting_byte (bs : List Byte) (b : Byte) (rest : List InToken) (s : State)
    (hmax : bs.length < Config.maxBytes) :
    coreMove (s.counting bs (.byte b :: rest)) = some (s.counting (bs ++ [b]) rest) := by
  have hmax' : (BitVec.ofNat 32 bs.length).toNat ≠ Config.maxBytes := by
    have : Config.maxBytes = 2 ^ 32 - 2 := rfl
    simp; omega
  rw [coreMove_token (s := s.counting bs (.byte b :: rest)) rfl (.count rfl) rfl, countToken_byte b hmax']
  have hcnt : BitVec.ofNat 32 (bs ++ [b]).length = BitVec.ofNat 32 bs.length + 1 := by simp [BitVec.ofNat_add]
  unfold State.counting
  rw [made_concat, past_concat, tally_append, hcnt]
  simp only [InToken.terminates, Bool.or_false]

/-- COUNT takes every byte of a segment within the limit. -/
theorem runOn_startCount (bs : List Byte) (rest : List InToken) (s : State) (hin : s.inPort = bytesIn bs ++ rest)
    (hmax : bs.length ≤ Config.maxBytes) : runOn (startCount s) = runOn (s.counting bs rest) := by
  have loop : ∀ cs ds : List Byte, (cs ++ ds).length ≤ Config.maxBytes →
      runOn (s.counting cs (bytesIn ds ++ rest)) = runOn (s.counting (cs ++ ds) rest) := by
    intro cs ds hlen
    induction ds generalizing cs with
    | nil => simp [bytesIn]
    | cons b ds ih =>
      have hb := counting_byte cs b (bytesIn ds ++ rest) s (by simp at hlen; omega)
      have hrest := ih (cs ++ [b]) (by simpa using hlen)
      rw [List.append_assoc] at hrest
      exact (runOn_move hb).trans hrest
  have hstart : startCount s = s.counting [] s.inPort := rfl
  rw [hstart, hin]
  exact loop [] bs hmax

/-- The turn that finds EOI ends the table (R181). -/
theorem runOn_counting_eoi (bs : List Byte) (rest : List InToken) (s : State) (hwf : s.br.wf = true) :
    runOn (s.counting bs (.eoi :: rest)) = { s.finished with
      treeValid := false, codesValid := false, freq := (tally zeroFreq (s.br.made bs)).setIfInBounds 256 1
      symCnt := BitVec.ofNat 32 bs.length, br := ⟨0, 0⟩, inPort := rest } := by
  have hempty : (⟨0, 0⟩ : BitReader) = (s.br.past bs).discarded := (discarded_eq_empty _ (past_wf s.br bs hwf)).symm
  rw [hempty, runOn_move (coreMove_token (s := s.counting bs (.eoi :: rest)) rfl (.count rfl) rfl), countToken,
    runOn_succeed_nil]
  rfl

/-- The turn that finds IOERR clears it, and nothing is left to drain (R183, R318). -/
theorem runOn_counting_ioerr (bs : List Byte) (rest : List InToken) (s : State) :
    runOn (s.counting bs (.ioerr :: rest)) = { s with
      treeValid := false, codesValid := false, freq := zeroFreq, symCnt := BitVec.ofNat 32 bs.length
      br := ⟨0, 0⟩, inPort := rest }.failed .io 0 := by
  rw [runOn_move (coreMove_token (s := s.counting bs (.ioerr :: rest)) rfl (.count rfl) rfl), countToken,
    raise_of_segEnded 0 false rfl (by simp [InToken.terminates]), runOn_abandon .io 0 false _ (by simp)]
  rfl

theorem exec_count (bs : List Byte) (rest : List InToken) {s : State} (hpace : s.pace = none)
    (hin : s.inPort = bytesIn bs ++ rest) (hmax : bs.length ≤ Config.maxBytes) :
    exec .count s = .next (runOn (s.counting bs rest)) := by
  rw [exec_eq, start, launch_eager (s := startCount s) hpace, runOn_startCount bs rest s hin hmax]

/-- Settles O21: the loop takes the segment's bytes, and its groups are tallied. -/
theorem countBuildsTable : Obligations.CountBuildsTable := by
  unfold Obligations.CountBuildsTable
  intro s bs rest hpace hwf hin hmax
  refine ⟨(tally zeroFreq (s.br.made bs)).setIfInBounds 256 1, ?_, by simp, fun b => ?_⟩
  · rw [exec_count bs _ hpace hin hmax, runOn_counting_eoi bs rest s hwf]
  · have hne : 256 ≠ b.toNat := by have := b.isLt; omega
    have hb : ((tally zeroFreq (s.br.made bs)).setIfInBounds 256 1)[byteSymbol b] =
        (tally zeroFreq (s.br.made bs))[byteSymbol b] := by
      simp [byteSymbol, hne]
    rw [hb, tally_byte, groups_inputBits, zeroFreq_get]
    exact BitVec.zero_add _

/-- A stream-phase error found inside a segment drains it (R318): no abort is emitted, and the reader is emptied. -/
theorem runOn_raise_drain {e : ErrCode} (bs : List Byte) (info : Word) (tok : InToken) (rest : List InToken) (s : State)
    (he : e.stream = true) (hs : s.segEnded = false) (hin : s.inPort = bytesIn bs ++ tok :: rest)
    (htok : tok.terminates = true) :
    runOn (s.raise e info false) = { s with br := ⟨0, 0⟩, inPort := rest }.failed e info := by
  have hraise : s.raise e info false = { s with pending := [], activity := .errDrain e info false } := by
    simp [State.raise, he, hs]
  rw [hraise, runOn_drain e info false bs tok rest { s with pending := [], activity := .errDrain e info false }
    rfl rfl htok hin, runOn_abandon e info false _ (by simp)]
  rfl

theorem terminates_of_eq {t : InToken} (h : t = .eoi ∨ t = .ioerr) : t.terminates = true := by
  rcases h with rfl | rfl <;> rfl

/-- Settles O22: IOERR ends the segment itself, and after a byte too many the rest of it is drained. -/
theorem countFails : Obligations.CountFails := by
  unfold Obligations.CountFails
  intro s hwf
  refine ⟨fun bs rest hpace hin hmax => ?_, fun b bs t rest ha hp hs hmax hin ht => ?_⟩
  · rw [exec_count bs _ hpace hin hmax, runOn_counting_ioerr]
  · refine ⟨(s.br.readGroup8 b).1, by rw [groups_inputBits, made_cons]; rfl, ?_⟩
    rw [runOn_move (coreMove_token hp (.count ha) hin), countToken_overflow b,
      runOn_raise_drain bs _ t rest _ rfl _ rfl (terminates_of_eq ht)]
    · generalize s.br.readGroup8 b = r
      rfl
    · simp [hs, InToken.terminates]
    · exact hmax

end Sys2Proof.Machine
end

section
/-! PROOF. The header and HDR_EMIT (41_freq.md R190, R196): the statements HeaderLayout (O25) and
HdrEmitWritesHeader (O26).

An entry takes four bytes, so cutting the header at offset 8 + 4k is cutting the table at entry k (`drop_headerBytes`).
HDR_EMIT is one write of the header's bits (`writeAll_spec`). -/
namespace Sys2Proof.Machine

/-! The layout of R196. -/

/-- The header's first eight bytes: magic, version, width and entry count (R196). -/
def headerFixed : List Byte := [0x48, 0x55, 0x46, 0x46, 0x01, 0x04, 0x01, 0x01]

theorem headerBytes_eq (f : FreqTable) : headerBytes f = headerFixed ++ f.toList.flatMap bigEndian := rfl

@[simp] theorem length_bigEndian (v : Word) : (bigEndian v).length = 4 := rfl

@[simp] theorem length_flatMap_bigEndian (ws : List Word) : (ws.flatMap bigEndian).length = 4 * ws.length := by
  simp [Nat.mul_comm]

/-- Four bytes an entry: cutting the entries' bytes is cutting the entries. -/
theorem drop_flatMap_bigEndian (ws : List Word) (k : Nat) :
    (ws.flatMap bigEndian).drop (4 * k) = (ws.drop k).flatMap bigEndian := by
  induction k generalizing ws with
  | zero => rfl
  | succ k ih =>
    cases ws with
    | nil => simp
    | cons w ws =>
      have hcut : 4 * (k + 1) = (bigEndian w).length + 4 * k := by simp; omega
      rw [List.flatMap_cons, hcut, List.drop_length_add_append, ih, List.drop_succ_cons]

@[simp] theorem length_headerBytes (f : FreqTable) : (headerBytes f).length = 1036 := by
  rw [headerBytes_eq, List.length_append, length_flatMap_bigEndian, Vector.length_toList]
  rfl

theorem drop_headerBytes (f : FreqTable) (k : Nat) :
    (headerBytes f).drop (8 + 4 * k) = (f.toList.drop k).flatMap bigEndian := by
  rw [← drop_flatMap_bigEndian]
  exact List.drop_length_add_append (l₁ := headerFixed) (i := 4 * k)

/-- Entry k, and the entries behind it. -/
theorem drop_headerBytes_entry (f : FreqTable) (k : Symbol) :
    (headerBytes f).drop (8 + 4 * k.val) = bigEndian f[k] ++ (headerBytes f).drop (8 + 4 * (k.val + 1)) := by
  have hk : f.toList.drop k.val = f[k] :: f.toList.drop (k.val + 1) := by
    rw [List.drop_eq_getElem_cons (by simp)]
    simp
  rw [drop_headerBytes, drop_headerBytes, hk, List.flatMap_cons]

/-- Settles O25: the fixed part, and each entry where the header is cut before it. -/
theorem headerLayout : Obligations.HeaderLayout := by
  unfold Obligations.HeaderLayout
  refine fun f => ⟨length_headerBytes f, rfl, fun k => ?_⟩
  rw [drop_headerBytes_entry]
  rfl

/-! HDR_EMIT (R190). -/

/-- Settles O26: 1036 bytes are a whole number of groups, so as many bits stay pending as were. -/
theorem hdrEmitWritesHeader : Obligations.HdrEmitWritesHeader := by
  unfold Obligations.HdrEmitWritesHeader
  intro s hpace hwf hroom
  obtain ⟨bs, hout, hlen, hbits, hrest⟩ := writeAll_spec s.bw ((headerBytes s.freq).flatMap byteBits)
  rw [length_flatMap_byteBits, length_headerBytes] at hlen hrest
  have hn := s.bw.n.isLt
  have hbs : bs.length = 1036 := by omega
  have hstart : start .hdrEmit s =
      { s with bw := (s.bw.writeAll ((headerBytes s.freq).flatMap byteBits)).1 }.succeed (bytesOut bs) := by
    rw [← hout]
    exact startHdrEmit_eq s
  exact ⟨_, bs, exec_of_start_write hpace hstart (by simpa [bytesOut, hbs] using hroom), hbs,
    Fin.ext (by omega), hbits⟩

end Sys2Proof.Machine
end

section
/-! SUPPORT. HDR_LOAD's checks (41_freq.md R197, R198), one header byte at a time.

`Passes f p` says that no check has failed in the header bytes `p`, and that `f` is the table of their whole entries. The
verdict on a byte that passes is good (`headerVerdict_entry_of_passes`, `headerVerdict_more_of_passes`), and a byte whose
verdict is good passes (`passes_of_verdict`). -/
namespace Sys2Proof.Machine

/-! The verdict, field by field. -/

/-- The checks of a complete entry k of value v, `sum` being the sum of the entries before it (R197, R198). -/
def entryVerdict (k : Nat) (v : Word) (sum : Nat) : HeaderVerdict :=
  if k = 256 ∧ v ≠ 1 then .bad .hdrEos v
  else if sum + v.toNat > Config.cntMax then .bad .hdrSum (BitVec.ofNat 32 k)
  else .entry k v (sum + v.toNat)

section Entry

variable {k : Nat} {v : Word} {sum : Nat}

theorem entryVerdict_eos (hk : k = 256) (hv : v ≠ 1) : entryVerdict k v sum = .bad .hdrEos v :=
  if_pos ⟨hk, hv⟩

theorem entryVerdict_sum (heos : k = 256 → v = 1) (hsum : sum + v.toNat > Config.cntMax) :
    entryVerdict k v sum = .bad .hdrSum (BitVec.ofNat 32 k) :=
  (if_neg fun h => h.2 (heos h.1)).trans (if_pos hsum)

theorem entryVerdict_good (heos : k = 256 → v = 1) (hsum : ¬ sum + v.toNat > Config.cntMax) :
    entryVerdict k v sum = .entry k v (sum + v.toNat) :=
  (if_neg fun h => h.2 (heos h.1)).trans (if_neg hsum)

end Entry

section Verdict

variable (h : List Byte) (sum : Nat)

theorem headerVerdict_magic : headerVerdict 3 h sum =
    if lastFour h ≠ 0x48554646#32 then .bad .hdrMagic (lastFour h) else .more := by
  simp [headerVerdict]

theorem headerVerdict_version : headerVerdict 4 h sum =
    if newest h 0 ≠ 0x01 then .bad .hdrVersion ((newest h 0).setWidth 32) else .more := by
  simp [headerVerdict]

theorem headerVerdict_width : headerVerdict 5 h sum =
    if newest h 0 ≠ 0x04 then .bad .hdrWidth ((newest h 0).setWidth 32) else .more := by
  simp [headerVerdict]

theorem headerVerdict_count : headerVerdict 7 h sum =
    if lastTwo h ≠ 257 then .bad .hdrCount ((lastTwo h).setWidth 32) else .more := by
  simp [headerVerdict]

theorem headerVerdict_entry (k : Nat) : headerVerdict (11 + 4 * k) h sum = entryVerdict k (lastFour h) sum := by
  have hk : (11 + 4 * k - 8) / 4 = k := by omega
  have hend : 11 + 4 * k ≥ 11 ∧ (11 + 4 * k - 8) % 4 = 3 := by omega
  unfold headerVerdict
  rw [if_neg (by omega), if_neg (by omega), if_neg (by omega), if_neg (by omega), if_pos hend, hk]
  rfl

/-- No field ends at the other bytes. -/
theorem headerVerdict_inside {i : Nat} (hi : i < 3 ∨ i = 6 ∨ (8 ≤ i ∧ i % 4 ≠ 3)) :
    headerVerdict i h sum = .more := by
  unfold headerVerdict
  rw [if_neg (by omega), if_neg (by omega), if_neg (by omega), if_neg (by omega), if_neg (by omega)]

end Verdict

/-- Where a byte stands in the header: inside a field, at the end of a fixed one, or at the end of entry k. -/
theorem header_position (i : Nat) :
    (i < 3 ∨ i = 6 ∨ (8 ≤ i ∧ i % 4 ≠ 3)) ∨ i = 3 ∨ i = 4 ∨ i = 5 ∨ i = 7 ∨ ∃ k, i = 11 + 4 * k := by
  by_cases hk : 11 ≤ i ∧ i % 4 = 3
  · exact .inr (.inr (.inr (.inr (.inr ⟨(i - 11) / 4, by omega⟩))))
  · omega

/-! The bytes of an entry and its value (R86). -/

theorem lastFour_bigEndian (v : Word) (p : List Byte) : lastFour ((bigEndian v).reverse ++ p) = v := by
  have h1 : v.extractLsb' 24 8 ++ v.extractLsb' 16 8 = v.extractLsb' 16 (8 + 8) :=
    BitVec.extractLsb'_append_extractLsb'_eq_extractLsb' rfl
  have h2 : v.extractLsb' 16 (8 + 8) ++ v.extractLsb' 8 8 = v.extractLsb' 8 (8 + 8 + 8) :=
    BitVec.extractLsb'_append_extractLsb'_eq_extractLsb' rfl
  have h3 : v.extractLsb' 8 (8 + 8 + 8) ++ v.extractLsb' 0 8 = v.extractLsb' 0 (8 + 8 + 8 + 8) :=
    BitVec.extractLsb'_append_extractLsb'_eq_extractLsb' rfl
  calc lastFour ((bigEndian v).reverse ++ p)
    _ = v.extractLsb' 24 8 ++ v.extractLsb' 16 8 ++ v.extractLsb' 8 8 ++ v.extractLsb' 0 8 := rfl
    _ = v.extractLsb' 0 32 := by rw [h1, h2, h3]
    _ = v := BitVec.extractLsb'_eq_self

theorem bigEndian_lastFour (a b c d : Byte) (p : List Byte) :
    bigEndian (lastFour (d :: c :: b :: a :: p)) = [a, b, c, d] := by
  have ha : (a ++ b ++ c ++ d).extractLsb' 24 8 = a := by
    rw [BitVec.extractLsb'_append_eq_of_le (by decide), BitVec.extractLsb'_append_eq_of_le (by decide)]
    exact BitVec.extractLsb'_append_eq_left
  have hb : (a ++ b ++ c ++ d).extractLsb' 16 8 = b := by
    rw [BitVec.extractLsb'_append_eq_of_le (by decide), BitVec.extractLsb'_append_eq_of_le (by decide)]
    exact BitVec.extractLsb'_append_eq_right
  have hc : (a ++ b ++ c ++ d).extractLsb' 8 8 = c := by
    rw [BitVec.extractLsb'_append_eq_of_le (by decide)]
    exact BitVec.extractLsb'_append_eq_right
  have hd : (a ++ b ++ c ++ d).extractLsb' 0 8 = d := BitVec.extractLsb'_append_eq_right
  calc bigEndian (lastFour (d :: c :: b :: a :: p))
    _ = [(a ++ b ++ c ++ d).extractLsb' 24 8, (a ++ b ++ c ++ d).extractLsb' 16 8,
        (a ++ b ++ c ++ d).extractLsb' 8 8, (a ++ b ++ c ++ d).extractLsb' 0 8] := rfl
    _ = [a, b, c, d] := by rw [ha, hb, hc, hd]

/-- The entry count's two bytes (R196). -/
theorem append_eq_257 {u v : Byte} (h : u ++ v = 257#16) : u = 0x01 ∧ v = 0x01 := by
  constructor
  · rw [← BitVec.extractLsb'_append_eq_left (a := u) (b := v), h]; rfl
  · rw [← BitVec.extractLsb'_append_eq_right (a := u) (b := v), h]; rfl

/-! The sums of the first entries. -/

/-- The sum of the first k entries (R198). -/
def entrySum (f : FreqTable) (k : Nat) : Nat := ((f.toList.take k).map BitVec.toNat).sum

theorem entrySum_zero (f : FreqTable) : entrySum f 0 = 0 := rfl

theorem entrySum_succ (f : FreqTable) (k : Symbol) : entrySum f (k.val + 1) = entrySum f k.val + f[k].toNat := by
  have hk : f.toList.take (k.val + 1) = f.toList.take k.val ++ [f[k]] := by
    rw [List.take_succ_eq_append_getElem (by simp)]
    simp
  simp [entrySum, hk]

theorem entrySum_mono (f : FreqTable) {j k : Nat} (h : j ≤ k) : entrySum f j ≤ entrySum f k :=
  ((List.take_sublist_take_left h).map BitVec.toNat).sum_le_sum (by simp)

theorem entrySum_all (f : FreqTable) : entrySum f 257 = tableSum f := by
  rw [entrySum, List.take_of_length_le (by simp)]
  rfl

/-! What has been checked. -/

/-- How many of the first i header bytes the checks of the fixed part, or of whole entries, have looked at: the magic and
the entry count are looked at when they are complete (R197). -/
def checkedLen (i : Nat) : Nat := if i < 4 then 0 else if i = 7 then 6 else i

/-- No check fails in the header bytes p, and the whole entries in them are f's (R197). -/
structure Passes (f : FreqTable) (p : List Byte) : Prop where
  bytes : p.take (checkedLen p.length) = (headerBytes f).take (checkedLen p.length)
  sum : entrySum f ((p.length - 8) / 4) ≤ Config.cntMax
  eos : p.length = 1036 → f[256] = 1

theorem take_headerBytes_fixed (f : FreqTable) {n : Nat} (hn : n ≤ 8) : (headerBytes f).take n = headerFixed.take n :=
  List.take_append_of_le_length hn

theorem checkedLen_mono {i j : Nat} (h : i ≤ j) : checkedLen i ≤ checkedLen j := by
  unfold checkedLen
  (repeat' split) <;> omega

theorem checkedLen_of_ge {i : Nat} (h : 8 ≤ i) : checkedLen i = i := by
  unfold checkedLen
  rw [if_neg (by omega), if_neg (by omega)]

theorem checkedLen_le (i : Nat) : checkedLen i ≤ i := by
  unfold checkedLen
  (repeat' split) <;> omega

variable {f : FreqTable} {p : List Byte}

/-- What passes has passed from its beginning on. -/
theorem Passes.left {q : List Byte} (h : Passes f (p ++ q)) (hlen : p.length < 1036) : Passes f p where
  bytes := by
    have hle : checkedLen p.length ≤ checkedLen (p ++ q).length := checkedLen_mono (by simp)
    have htake := congrArg (List.take (checkedLen p.length)) h.bytes
    rwa [List.take_take, List.take_take, Nat.min_eq_left hle, List.take_append_of_le_length (checkedLen_le _)] at htake
  sum := (entrySum_mono f (by simp; omega)).trans h.sum
  eos := by omega

/-- Bytes that all have been looked at are f's header's. -/
theorem Passes.eq_take (h : Passes f p) (hc : checkedLen p.length = p.length) : p = (headerBytes f).take p.length := by
  have hb := h.bytes
  rwa [hc, List.take_length] at hb

/-- Within the fixed part they are its bytes. -/
theorem Passes.eq_fixed {n : Nat} (h : Passes f p) (hlen : p.length = n) (hn : n ≤ 8) (hc : checkedLen n = n) :
    p = headerFixed.take n := by
  subst hlen
  rw [← take_headerBytes_fixed f hn]
  exact h.eq_take hc

/-- Before its first entry only the fixed bytes count. -/
theorem passes_of_fixed (hlen : p.length ≤ 8)
    (h : p.take (checkedLen p.length) = headerFixed.take (checkedLen p.length)) : Passes f p where
  bytes := by
    have := checkedLen_le p.length
    rw [h, take_headerBytes_fixed f (by omega)]
  sum := by
    rw [show (p.length - 8) / 4 = 0 by omega, entrySum_zero]
    exact Nat.zero_le _
  eos := by omega

/-- The header itself, cut anywhere, passes as far as its sums and its last entry do. -/
theorem passes_take {n : Nat} (hn : n ≤ 1036) (hsum : entrySum f ((n - 8) / 4) ≤ Config.cntMax)
    (heos : n = 1036 → f[256] = 1) : Passes f ((headerBytes f).take n) := by
  have hlen : ((headerBytes f).take n).length = n := by simp [hn]
  refine ⟨?_, by rwa [hlen], by rwa [hlen]⟩
  rw [hlen, List.take_take, Nat.min_eq_left (checkedLen_le n)]

/-- A whole header that passes is its table's, and the table is legal. -/
theorem Passes.legal (h : Passes f p) (hlen : p.length = 1036) : LegalTable f ∧ p = headerBytes f := by
  refine ⟨⟨h.eos hlen, ?_⟩, ?_⟩
  · have hs := h.sum
    rwa [show (p.length - 8) / 4 = 257 by omega, entrySum_all] at hs
  · have ht := h.eq_take (checkedLen_of_ge (by omega))
    rwa [hlen, List.take_of_length_le (by simp)] at ht

theorem passes_of_legal (h : LegalTable f) : Passes f (headerBytes f) := by
  have hp := passes_take (f := f) (n := 1036) (Nat.le_refl _) (by simpa [entrySum_all] using h.2) (fun _ => h.1)
  rwa [List.take_of_length_le (by simp)] at hp

/-- The last four bytes of a header cut behind entry k are its value's. -/
theorem lastFour_take_entry (k : Symbol) : lastFour ((headerBytes f).take (12 + 4 * k.val)).reverse = f[k] := by
  have hcut : (headerBytes f).take (12 + 4 * k.val) = (headerBytes f).take (8 + 4 * k.val) ++ bigEndian f[k] := by
    rw [show 12 + 4 * k.val = 8 + 4 * k.val + 4 by omega, List.take_add, drop_headerBytes_entry]
    rfl
  rw [hcut, List.reverse_append, lastFour_bigEndian]

/-! The verdict on the next byte. -/

variable {b : Byte}

/-- A byte that completes entry k, and passes, is answered with the entry. -/
theorem headerVerdict_entry_of_passes {k : Symbol} (h : Passes f (p ++ [b])) (hlen : p.length = 11 + 4 * k.val) :
    headerVerdict p.length (b :: p.reverse) (entrySum f k.val) = .entry k.val f[k] (entrySum f (k.val + 1)) := by
  have hlen' : (p ++ [b]).length = 12 + 4 * k.val := by simp [hlen]; omega
  have htake := h.eq_take (checkedLen_of_ge (by omega))
  rw [hlen'] at htake
  have hfour : lastFour (b :: p.reverse) = f[k] := by
    rw [← lastFour_take_entry k, ← htake, List.reverse_concat]
  have hsum := h.sum
  rw [hlen', show (12 + 4 * k.val - 8) / 4 = k.val + 1 by omega, entrySum_succ] at hsum
  have heos : k.val = 256 → f[k] = 1 := by
    intro hk
    obtain rfl : k = 256 := Fin.ext hk
    exact h.eos (by simpa using hlen')
  rw [hlen, headerVerdict_entry, hfour, entryVerdict_good heos (by omega), entrySum_succ]

/-- A byte that completes no entry, and passes, is passed over. -/
theorem headerVerdict_more_of_passes (h : Passes f (p ++ [b])) (hlen : ∀ k, p.length ≠ 11 + 4 * k) (sum : Nat) :
    headerVerdict p.length (b :: p.reverse) sum = .more := by
  have hrev : b :: p.reverse = (p ++ [b]).reverse := by simp
  rcases header_position p.length with hin | h3 | h4 | h5 | h7 | ⟨k, hk⟩
  · exact headerVerdict_inside _ _ hin
  · rw [h3, headerVerdict_magic, hrev, h.eq_fixed (n := 4) (by simp [h3]) (by decide) rfl, if_neg (by decide)]
  · rw [h4, headerVerdict_version, hrev, h.eq_fixed (n := 5) (by simp [h4]) (by decide) rfl, if_neg (by decide)]
  · rw [h5, headerVerdict_width, hrev, h.eq_fixed (n := 6) (by simp [h5]) (by decide) rfl, if_neg (by decide)]
  · rw [h7, headerVerdict_count, hrev, h.eq_fixed (n := 8) (by simp [h7]) (by decide) rfl, if_neg (by decide)]
  · exact absurd hk (hlen k)

/-- A byte whose verdict is good passes, if behind the fixed part it is the next byte of f's header. -/
theorem passes_of_verdict (h : Passes f p) (hlen : p.length < 1036)
    (hnext : 8 ≤ p.length → p ++ [b] = (headerBytes f).take (p.length + 1))
    (hv : ∀ e info, headerVerdict p.length (b :: p.reverse) (entrySum f ((p.length - 8) / 4)) ≠ .bad e info) :
    Passes f (p ++ [b]) := by
  have hlen' : (p ++ [b]).length = p.length + 1 := by simp
  rcases header_position p.length with hin | h3 | h4 | h5 | h7 | ⟨k, hk⟩
  · rcases hin with hin | h6 | ⟨h8, hmod⟩
    · refine passes_of_fixed (by omega) ?_
      rw [hlen', show checkedLen (p.length + 1) = checkedLen 3 by simp [checkedLen]; omega]
      rfl
    · refine passes_of_fixed (by omega) ?_
      rw [hlen', h6]
      rw [h.eq_fixed h6 (by decide) rfl]
      rfl
    · rw [hnext h8]
      refine passes_take hlen ?_ (by omega)
      have hs := h.sum
      rwa [show (p.length + 1 - 8) / 4 = (p.length - 8) / 4 by omega]
  · have hmagic : lastFour (b :: p.reverse) = 0x48554646#32 :=
      by_contra fun hne => hv _ _ (by rw [h3, headerVerdict_magic, if_pos hne])
    obtain ⟨x, y, z, rfl⟩ := List.length_eq_three.mp h3
    have hbytes := bigEndian_lastFour x y z b []
    rw [show lastFour [b, z, y, x] = 0x48554646#32 from hmagic] at hbytes
    exact passes_of_fixed (by simp) hbytes.symm
  · have hb : b = 0x01 := by_contra fun hne => hv _ _ (by rw [h4, headerVerdict_version]; exact if_pos hne)
    rw [h.eq_fixed h4 (by decide) rfl, hb]
    exact passes_of_fixed (by decide) rfl
  · have hb : b = 0x04 := by_contra fun hne => hv _ _ (by rw [h5, headerVerdict_width]; exact if_pos hne)
    rw [h.eq_fixed h5 (by decide) rfl, hb]
    exact passes_of_fixed (by decide) rfl
  · have hcount : lastTwo (b :: p.reverse) = 257 :=
      by_contra fun hne => hv _ _ (by rw [h7, headerVerdict_count, if_pos hne])
    have hbytes := h.bytes
    rw [h7, take_headerBytes_fixed f (by decide)] at hbytes
    obtain ⟨u, hu⟩ := List.length_eq_one_iff.mp (show (p.drop 6).length = 1 by simp [h7])
    have hp : p = headerFixed.take 6 ++ [u] := by
      rw [← hu, ← show p.take 6 = headerFixed.take 6 from hbytes, List.take_append_drop]
    rw [hp] at hcount ⊢
    obtain ⟨rfl, rfl⟩ := append_eq_257 hcount
    exact passes_of_fixed (by decide) rfl
  · have hk' : k < 257 := by omega
    have htake : p ++ [b] = (headerBytes f).take (12 + 4 * k) := by rw [hnext (by omega), hk]; congr 1; omega
    have hfour : lastFour (b :: p.reverse) = f[k] := by
      rw [← List.reverse_concat, htake]
      exact lastFour_take_entry ⟨k, hk'⟩
    rw [hk, show (11 + 4 * k - 8) / 4 = k by omega, headerVerdict_entry, hfour] at hv
    have heos : k = 256 → f[k] = 1 := fun h256 => by_contra fun hne => hv _ _ (entryVerdict_eos h256 hne)
    have hsum : ¬ entrySum f k + f[k].toNat > Config.cntMax := fun hbad => hv _ _ (entryVerdict_sum heos hbad)
    rw [htake]
    refine passes_take (by omega) ?_ fun hend => ?_
    · rw [show (12 + 4 * k - 8) / 4 = k + 1 by omega]
      have hs := entrySum_succ f ⟨k, hk'⟩
      simp only [Fin.getElem_fin] at hs
      omega
    · obtain rfl : k = 256 := by omega
      exact heos rfl

end Sys2Proof.Machine
end

section
/-! PROOF. HDR_LOAD (41_freq.md R197-R199): the statements HdrLoadLoadsTable (O27), HdrLoadAcceptsOnlyHeaders (O28) and
HdrLoadFindsBadHeader (O29).

`State.loading` is HDR_LOAD at the head of its loop after some bytes of a header that has passed so far, and the loop
goes from one such state to the next (`runOn_startHdrLoad`). From there one more turn ends the command: on the last byte
the table is loaded (`exec_hdrLoad_legal`), on a byte with a bad verdict the header is refused (`AtSegment.bad`), and so
it is on a terminator (`AtSegment.cut`). For O28 the 1036 bytes are cut into a table first (`exists_table`); if one of
them had a bad verdict the command could not end without an error (`State.Failing`). -/
namespace Sys2Proof.Machine

/-! One turn of the loop (R198). -/

section OneTurn

variable {h : List Byte} {sum : Nat} {b : Byte} {s : State}

theorem hdrLoadToken_bad {e : ErrCode} {info : Word}
    (hv : headerVerdict h.length ((s.br.readGroup8 b).1 :: h) sum = .bad e info) :
    hdrLoadToken h sum (.byte b) s = ({ s with br := (s.br.readGroup8 b).2 }.clearFreq).raise e info false := by
  simp only [hdrLoadToken, hv]

theorem hdrLoadToken_more (hv : headerVerdict h.length ((s.br.readGroup8 b).1 :: h) sum = .more) :
    hdrLoadToken h sum (.byte b) s = { s with
      br := (s.br.readGroup8 b).2, activity := .hdrLoad ((s.br.readGroup8 b).1 :: h) sum } := by
  simp only [hdrLoadToken, hv]

theorem hdrLoadToken_entry {k : Nat} {v : Word} {sum' : Nat}
    (hv : headerVerdict h.length ((s.br.readGroup8 b).1 :: h) sum = .entry k v sum')
    (hlen : h.length + 1 ≠ Config.hdrLen) :
    hdrLoadToken h sum (.byte b) s = { s with
      br := (s.br.readGroup8 b).2, freq := s.freq.setIfInBounds k v
      activity := .hdrLoad ((s.br.readGroup8 b).1 :: h) sum' } := by
  simp only [hdrLoadToken, hv, if_neg hlen]
  generalize s.br.readGroup8 b = r
  rfl

theorem hdrLoadToken_last {k : Nat} {v : Word} {sum' : Nat}
    (hv : headerVerdict h.length ((s.br.readGroup8 b).1 :: h) sum = .entry k v sum')
    (hlen : h.length + 1 = Config.hdrLen) :
    hdrLoadToken h sum (.byte b) s =
      { s with br := (s.br.readGroup8 b).2, freq := s.freq.setIfInBounds k v }.succeed [] := by
  simp only [hdrLoadToken, hv, if_pos hlen]
  generalize s.br.readGroup8 b = r
  rfl

end OneTurn

/-! The loop over a header that has passed so far. -/

/-- FREQ with its first k entries loaded from f. -/
def loaded (old f : FreqTable) (k : Nat) : FreqTable := Vector.ofFn fun j => if j.val < k then f[j] else old[j]

theorem loaded_get (old f : FreqTable) (k : Nat) (j : Nat) (hj : j < 257) :
    (loaded old f k)[j] = if j < k then f[j] else old[j] :=
  Vector.getElem_ofFn hj

theorem loaded_zero (old f : FreqTable) : loaded old f 0 = old :=
  Vector.ext fun j hj => (loaded_get old f 0 j hj).trans (if_neg (Nat.not_lt_zero j))

theorem loaded_all (old f : FreqTable) : loaded old f 257 = f :=
  Vector.ext fun j hj => (loaded_get old f 257 j hj).trans (if_pos hj)

/-- The next entry. -/
theorem loaded_succ (old f : FreqTable) (k : Symbol) :
    (loaded old f k.val).setIfInBounds k.val f[k] = loaded old f (k.val + 1) := by
  refine Vector.ext fun j hj => ?_
  rw [loaded_get, Vector.getElem_setIfInBounds, loaded_get]
  by_cases hjk : k.val = j
  · subst hjk
    rw [if_pos rfl, if_pos (Nat.lt_succ_self _)]
    rfl
  · have hlt : j < k.val + 1 ↔ j < k.val := by omega
    simp only [if_neg hjk, hlt]

/-- HDR_LOAD at the head of its loop, started on s: it has read the bytes `bs` and loaded the entries of f that are whole
in them, and `rest` is left in the port. -/
def State.loading (f : FreqTable) (bs : List Byte) (rest : List InToken) (s : State) : State :=
  { s with
    treeValid := false, codesValid := false, freq := loaded s.freq f ((bs.length - 8) / 4), br := s.br.past bs
    inPort := rest, pending := []
    activity := .hdrLoad (s.br.made bs).reverse (entrySum f ((bs.length - 8) / 4)) }

theorem State.loading_br (f : FreqTable) (bs : List Byte) (rest : List InToken) (s : State) :
    (s.loading f bs rest).br = s.br.past bs := rfl

theorem State.loading_freq (f : FreqTable) (bs : List Byte) (rest : List InToken) (s : State) :
    (s.loading f bs rest).freq = loaded s.freq f ((bs.length - 8) / 4) := rfl

/-- The turn that takes a byte. -/
theorem coreMove_loading_byte (f : FreqTable) (bs : List Byte) (b : Byte) (rest : List InToken) (s : State) :
    coreMove (s.loading f bs (.byte b :: rest)) = some (hdrLoadToken (s.br.made bs).reverse
      (entrySum f ((bs.length - 8) / 4)) (.byte b) (s.loading f bs rest)) := by
  rw [coreMove_token (s := s.loading f bs (.byte b :: rest)) rfl (.hdrLoad _ _ rfl) rfl]
  simp only [InToken.terminates, Bool.or_false]
  rfl

/-- The turn that takes a terminator. -/
theorem coreMove_loading_end (f : FreqTable) (bs : List Byte) {tok : InToken} (rest : List InToken) (s : State)
    (htok : tok.terminates = true) :
    coreMove (s.loading f bs (tok :: rest)) = some (hdrLoadToken (s.br.made bs).reverse
      (entrySum f ((bs.length - 8) / 4)) tok ({ s with segEnded := true }.loading f bs rest)) := by
  rw [coreMove_token (s := s.loading f bs (tok :: rest)) rfl (.hdrLoad _ _ rfl) rfl, htok, Bool.or_true]
  rfl

section Loop

variable {f : FreqTable} {s : State} {bs : List Byte} {b : Byte} {rest : List InToken}

/-- A byte that passes, and is not the last, goes to the head of the loop again. -/
theorem loading_byte (rest : List InToken) (hpass : Passes f (s.br.made (bs ++ [b]))) (hlen : bs.length + 1 < 1036) :
    coreMove (s.loading f bs (.byte b :: rest)) = some (s.loading f (bs ++ [b]) rest) := by
  rw [made_concat] at hpass
  rw [coreMove_loading_byte]
  by_cases hentry : ∃ k, bs.length = 11 + 4 * k
  · obtain ⟨k, hk⟩ := hentry
    have hcur : (bs.length - 8) / 4 = k := by omega
    have hnext : ((bs ++ [b]).length - 8) / 4 = k + 1 := by simp; omega
    have hv := headerVerdict_entry_of_passes (k := ⟨k, by omega⟩) hpass (by simpa using hk)
    rw [← List.length_reverse] at hv
    rw [hcur, hdrLoadToken_entry (s := s.loading f bs rest) hv (by simp [Config.hdrLen]; omega)]
    unfold State.loading
    rw [made_concat, past_concat, hcur, hnext, List.reverse_concat, ← loaded_succ s.freq f ⟨k, by omega⟩]
  · have hsame : ((bs ++ [b]).length - 8) / 4 = (bs.length - 8) / 4 := by
      have : ∀ k, bs.length ≠ 11 + 4 * k := fun k hk => hentry ⟨k, hk⟩
      have := this ((bs.length - 11) / 4)
      simp; omega
    have hv := headerVerdict_more_of_passes hpass (by simpa using hentry) (entrySum f ((bs.length - 8) / 4))
    rw [← List.length_reverse] at hv
    rw [hdrLoadToken_more (s := s.loading f bs rest) hv]
    unfold State.loading
    rw [made_concat, past_concat, hsame, List.reverse_concat]

/-- HDR_LOAD takes the bytes of a header's beginning that passes. -/
theorem runOn_startHdrLoad (hin : s.inPort = bytesIn bs ++ rest) (hlen : bs.length < 1036)
    (hpass : Passes f (s.br.made bs)) : runOn (startHdrLoad s) = runOn (s.loading f bs rest) := by
  have loop : ∀ cs ds : List Byte, (cs ++ ds).length < 1036 → Passes f (s.br.made (cs ++ ds)) →
      runOn (s.loading f cs (bytesIn ds ++ rest)) = runOn (s.loading f (cs ++ ds) rest) := by
    intro cs ds hlen hpass
    induction ds generalizing cs with
    | nil => simp [bytesIn]
    | cons b ds ih =>
      rw [List.append_cons] at hlen hpass ⊢
      have hlen' : (cs ++ [b]).length < 1036 := by simp at hlen ⊢; omega
      have hpass' : Passes f (s.br.made (cs ++ [b])) := by
        rw [made_append] at hpass
        exact hpass.left (by simpa using hlen')
      exact (runOn_move (loading_byte (bytesIn ds ++ rest) hpass' (by simpa using hlen'))).trans (ih _ hlen hpass)
  have hstart : startHdrLoad s = s.loading f [] s.inPort := by
    unfold startHdrLoad State.loading
    rw [show (([] : List Byte).length - 8) / 4 = 0 from rfl, loaded_zero]
    rfl
  rw [hstart, hin]
  exact loop [] bs hlen hpass

/-- The groups of a segment cut before one of them. -/
theorem made_eq_append_cons {br : BitReader} {p tail : List Byte} {g : Byte} (h : br.made bs = p ++ g :: tail) :
    ∃ cs c ds, bs = cs ++ c :: ds ∧ br.made cs = p ∧ ((br.past cs).readGroup8 c).1 = g := by
  induction p generalizing br bs with
  | nil =>
    cases bs with
    | nil => simp at h
    | cons c ds =>
      rw [made_cons] at h
      exact ⟨[], c, ds, rfl, rfl, (List.cons.inj h).1⟩
  | cons x p ih =>
    cases bs with
    | nil => simp at h
    | cons c ds =>
      rw [made_cons] at h
      obtain ⟨hx, htail⟩ := List.cons.inj h
      obtain ⟨cs, c', ds', rfl, hmade, hg⟩ := ih htail
      exact ⟨c :: cs, c', ds', rfl, by rw [made_cons, hx, hmade], by rw [past_cons, hg]⟩

/-- A byte with a bad verdict, behind a beginning that passes, raises its error; the bytes behind it are still in the
port (R197, R199). -/
theorem runOn_startHdrLoad_bad {ds : List Byte} {e : ErrCode} {info : Word}
    (hin : s.inPort = bytesIn (bs ++ b :: ds) ++ rest) (hlen : bs.length < 1036) (hpass : Passes f (s.br.made bs))
    (hv : headerVerdict bs.length (((s.br.past bs).readGroup8 b).1 :: (s.br.made bs).reverse)
      (entrySum f ((bs.length - 8) / 4)) = .bad e info) :
    runOn (startHdrLoad s) = runOn (({ s.loading f bs (bytesIn ds ++ rest) with
      br := ((s.br.past bs).readGroup8 b).2 }.clearFreq).raise e info false) := by
  have hin' : s.inPort = bytesIn bs ++ .byte b :: (bytesIn ds ++ rest) := by simp [hin, bytesIn]
  have hv' : headerVerdict (s.br.made bs).reverse.length
      (((s.br.past bs).readGroup8 b).1 :: (s.br.made bs).reverse) (entrySum f ((bs.length - 8) / 4)) = .bad e info := by
    simpa using hv
  rw [runOn_startHdrLoad hin' hlen hpass, runOn_move (coreMove_loading_byte f bs b _ s),
    hdrLoadToken_bad (s := s.loading f bs (bytesIn ds ++ rest)) hv']
  rfl

theorem exec_hdrLoad (hpace : s.pace = none) : exec .hdrLoad s = .next (runOn (startHdrLoad s)) := by
  rw [exec_eq, start, launch_eager (s := startHdrLoad s) hpace]

/-! A legal header is loaded (R198). -/

theorem exec_hdrLoad_legal (hpace : s.pace = none) (hlen : bs.length = 1036)
    (hin : s.inPort = bytesIn bs ++ rest) (hpass : Passes f (s.br.made bs)) :
    exec .hdrLoad s = .next { s.finished with
      treeValid := false, codesValid := false, freq := f, br := s.br.past bs, inPort := rest } := by
  cases bs using List.reverseRecOn with
  | nil => simp at hlen
  | append_singleton cs b =>
    have hcs : cs.length = 1035 := by simpa using hlen
    have hcur : (cs.length - 8) / 4 = (256 : Symbol).val := by rw [hcs]; rfl
    have hin' : s.inPort = bytesIn cs ++ .byte b :: rest := by simp [hin, bytesIn]
    rw [made_concat] at hpass
    have hv := headerVerdict_entry_of_passes (k := 256) hpass (by simpa using hcs)
    rw [← List.length_reverse] at hv
    have hfreq : (s.loading f cs rest).freq.setIfInBounds (256 : Symbol).val f[(256 : Symbol)] = f := by
      rw [State.loading_freq, hcur]
      exact (loaded_succ s.freq f 256).trans (loaded_all s.freq f)
    rw [exec_hdrLoad hpace, runOn_startHdrLoad hin' (by omega) (hpass.left (by simp [hcs])),
      runOn_move (coreMove_loading_byte f cs b rest s), hcur,
      hdrLoadToken_last (s := s.loading f cs rest) hv (by simp [Config.hdrLen, hcs]), runOn_succeed_nil, past_concat,
      hfreq, State.loading_br]
    generalize ((s.br.past cs).readGroup8 b).2 = br
    rfl

end Loop

/-- Settles O27: the header of a legal table passes. -/
theorem hdrLoadLoadsTable : Obligations.HdrLoadLoadsTable := by
  unfold Obligations.HdrLoadLoadsTable
  intro s f bs rest hpace hwf hlegal hlen hin hg
  rw [groups_inputBits] at hg
  refine ⟨s.br.past bs, exec_hdrLoad_legal hpace hlen hin (hg ▸ passes_of_legal hlegal), past_n .., ?_⟩
  rw [past_bits, hlen]

/-! The header errors (R197, R199). -/

/-- HDR_LOAD refused the segment: FREQ and both flags are cleared, the segment is consumed and the reader emptied. -/
def State.refused (e : ErrCode) (info : Word) (rest : List InToken) (s : State) : State :=
  { s with
    treeValid := false, codesValid := false, freq := zeroFreq, br := ⟨0, 0⟩, inPort := rest }.failed e info

/-- The core runs freely on s, whose input begins with the segment of the bytes `bs` and the terminator `tok`. -/
structure AtSegment (s : State) (bs : List Byte) (tok : InToken) (rest : List InToken) : Prop where
  pace : s.pace = none
  notEnded : s.segEnded = false
  inPort : s.inPort = bytesIn bs ++ tok :: rest
  ends : tok.terminates = true

/-- The byte that completes entry k of a header. -/
theorem take_headerBytes_entry (f : FreqTable) (k : Symbol) : ∃ b,
    (headerBytes f).take (12 + 4 * k.val) = (headerBytes f).take (11 + 4 * k.val) ++ [b] ∧
    lastFour (b :: ((headerBytes f).take (11 + 4 * k.val)).reverse) = f[k] := by
  have hlt : 11 + 4 * k.val < (headerBytes f).length := by rw [length_headerBytes]; omega
  have hcut := List.take_succ_eq_append_getElem hlt
  rw [show 11 + 4 * k.val + 1 = 12 + 4 * k.val by omega] at hcut
  refine ⟨_, hcut, ?_⟩
  rw [← lastFour_take_entry k, hcut, List.reverse_concat]

section Errors

variable {f : FreqTable} {s : State} {bs p tail : List Byte} {tok : InToken} {rest : List InToken} {b : Byte}
  {e : ErrCode} {info : Word}

/-- A byte with a bad verdict, behind a beginning that passes, ends HDR_LOAD in its error, and the rest of the segment is
drained. -/
theorem AtSegment.bad (hseg : AtSegment s bs tok rest) (hmade : s.br.made bs = p ++ b :: tail) (hpass : Passes f p)
    (hlen : p.length < 1036)
    (hv : headerVerdict p.length (b :: p.reverse) (entrySum f ((p.length - 8) / 4)) = .bad e info)
    (he : e.stream = true) : exec .hdrLoad s = .next (s.refused e info rest) := by
  obtain ⟨cs, c, ds, rfl, rfl, rfl⟩ := made_eq_append_cons hmade
  rw [length_made] at hlen hv
  rw [exec_hdrLoad hseg.pace, runOn_startHdrLoad_bad hseg.inPort hlen hpass hv,
    runOn_raise_drain ds info tok rest _ he _ _ hseg.ends]
  · generalize ((s.br.past cs).readGroup8 c).2 = br
    rfl
  · exact hseg.notEnded
  · rfl

/-- The same for the byte that completes entry k. -/
theorem AtSegment.badEntry (hseg : AtSegment s bs tok rest) (k : Symbol)
    (hmade : s.br.made bs = (headerBytes f).take (12 + 4 * k.val) ++ tail) (hsum : entrySum f k.val ≤ Config.cntMax)
    (hv : entryVerdict k.val f[k] (entrySum f k.val) = .bad e info) (he : e.stream = true) :
    exec .hdrLoad s = .next (s.refused e info rest) := by
  obtain ⟨b, hcut, hfour⟩ := take_headerBytes_entry f k
  have hlen : ((headerBytes f).take (11 + 4 * k.val)).length = 11 + 4 * k.val := by simp; omega
  have hcur : (11 + 4 * k.val - 8) / 4 = k.val := by omega
  rw [hcut, List.append_assoc] at hmade
  refine hseg.bad hmade (passes_take (by omega) (by rwa [hcur]) (by omega)) (by omega) ?_ he
  rw [hlen, hcur, headerVerdict_entry, hfour, hv]

/-- The terminator, behind a beginning that passes and is no whole header (R197, R318). -/
theorem AtSegment.cut (hseg : AtSegment s bs tok rest) (hpass : Passes f (s.br.made bs)) (hlen : bs.length < 1036) :
    (tok = .eoi → exec .hdrLoad s = .next (s.refused .hdrTrunc (BitVec.ofNat 32 bs.length) rest)) ∧
    (tok = .ioerr → exec .hdrLoad s = .next (s.refused .io 0 rest)) := by
  rw [exec_hdrLoad hseg.pace, runOn_startHdrLoad hseg.inPort hlen hpass]
  constructor
  · rintro rfl
    rw [runOn_move (coreMove_loading_end f bs rest s rfl), hdrLoadToken, raise_of_segEnded _ _ rfl rfl,
      runOn_abandon _ _ _ _ (by simp), List.length_reverse, length_made]
    rfl
  · rintro rfl
    rw [runOn_move (coreMove_loading_end f bs rest s rfl), hdrLoadToken, raise_of_segEnded _ _ rfl rfl,
      runOn_abandon _ _ _ _ (by simp)]
    rfl

end Errors

/-- Settles O29: a beginning that passes, then the byte that ends the bad field, or the terminator. -/
theorem hdrLoadFindsBadHeader : Obligations.HdrLoadFindsBadHeader := by
  unfold Obligations.HdrLoadFindsBadHeader
  intro s f bs tok rest hpace hwf hs hin htok
  rw [groups_inputBits]
  have hseg : AtSegment s bs tok rest := ⟨hpace, hs, hin, terminates_of_eq htok⟩
  refine ⟨?_, ?_, ?_, ?_, ?_, ?_, ?_⟩
  · rintro i c hi rfl rfl hbytes hsum
    have hcut := hseg.cut ⟨hbytes, hsum, fun h => absurd h (Nat.ne_of_lt hi)⟩ (length_made s.br bs ▸ hi)
    rw [length_made]
    exact hcut
  · intro x y z b tail hg hne
    have hbad : lastFour [b, z, y, x] ≠ 0x48554646#32 := by
      intro h
      exact hne (by rw [← bigEndian_lastFour x y z b [], h]; rfl)
    exact hseg.bad (f := f) (p := [x, y, z]) hg (passes_of_fixed (by simp) rfl) (by simp)
      ((headerVerdict_magic _ _).trans (if_pos hbad)) rfl
  · intro v tail hg hne
    exact hseg.bad (f := f) (p := headerFixed.take 4) hg (passes_of_fixed (by decide) rfl) (by decide)
      ((headerVerdict_version _ _).trans (if_pos hne)) rfl
  · intro v tail hg hne
    exact hseg.bad (f := f) (p := headerFixed.take 5) hg (passes_of_fixed (by decide) rfl) (by decide)
      ((headerVerdict_width _ _).trans (if_pos hne)) rfl
  · intro u v tail hg hne
    have hbad : lastTwo (v :: u :: (headerFixed.take 6).reverse) ≠ 257 := by
      intro h
      obtain ⟨rfl, rfl⟩ := append_eq_257 h
      exact hne rfl
    have hlen : (headerFixed.take 6 ++ [u]).length = 7 := rfl
    exact hseg.bad (f := f) (p := headerFixed.take 6 ++ [u]) hg (passes_of_fixed (by omega) rfl) (by omega)
      ((headerVerdict_count _ _).trans (if_pos hbad)) rfl
  · intro tail hg hsum hne
    have hwhole : (headerBytes f).take (12 + 4 * (256 : Symbol).val) = headerBytes f :=
      List.take_of_length_le (by simp)
    exact hseg.badEntry 256 (hg.trans (congrArg (· ++ tail) hwhole.symm)) hsum (entryVerdict_eos rfl hne) rfl
  · intro k tail hk hg heos hsum hover
    have hk' : k < 257 := by omega
    have hover' : entrySum f k + f[k].toNat > Config.cntMax :=
      (show Config.cntMax < entrySum f (k + 1) from hover).trans_eq (entrySum_succ f ⟨k, hk'⟩)
    have heos' : k = 256 → f[k] = 1 := by
      rintro rfl
      exact heos rfl
    exact hseg.badEntry ⟨k, hk'⟩ hg hsum (entryVerdict_sum heos' hover') rfl

/-! Only a header is accepted (R198). -/

/-- The running command is in its error epilogue, or has ended with the error. -/
def State.Failing (t : State) : Prop :=
  (t.busy = true ∧ ∃ e info a, t.activity = .errDrain e info a ∨ t.activity = .finish (some (e, info))) ∨
  (t.activity = .idle ∧ t.err = true)

theorem raise_failing (e : ErrCode) (info : Word) (a : Bool) {s : State} (hb : s.busy = true) :
    (s.raise e info a).Failing := by
  refine .inl ⟨by simp [hb], e, info, a, ?_⟩
  unfold State.raise
  split
  · split
    · exact .inr rfl
    · exact .inl rfl
  · exact .inr rfl

/-- No move leaves the epilogue but its end. -/
theorem coreMove_failing (s t : State) (hs : s.Failing) (h : coreMove s = some t) : t.Failing := by
  rcases hs with ⟨hb, e, info, a, ha⟩ | ⟨ha, herr⟩
  · cases coreMove_move h with
    | emit tok rest hp hroom => exact .inl ⟨hb, e, info, a, ha⟩
    | complete v hp hv =>
      obtain rfl : v = some (e, info) := by simpa [hv] using ha
      exact .inr ⟨rfl, rfl⟩
    | leaf cur sym c hp hd hn => simp [hd] at ha
    | bit cur c l r hp hd hn hbit => simp [hd] at ha
    | token tok rest act hp ht hin =>
      cases ht with
      | errDrain e' info' a' hd =>
        unfold drainToken
        split
        · exact .inl ⟨hb, e', info', a', .inr rfl⟩
        · exact .inl ⟨hb, e, info, a, ha⟩
      | _ => simp_all
  · cases coreMove_move h with
    | emit tok rest hp hroom => exact .inr ⟨ha, herr⟩
    | token tok rest act hp ht hin => exact absurd ha ht.running
    | _ => simp_all

theorem runOn_raise_fails (e : ErrCode) (info : Word) (a : Bool) {s : State} (hb : s.busy = true)
    (hend : (runOn (s.raise e info a)).busy = false) : (runOn (s.raise e info a)).err = true := by
  have hfail : (runOn (s.raise e info a)).Failing := coreRun_keeps coreMove_failing _ _ (raise_failing e info a hb)
  rcases hfail with ⟨hbusy, -⟩ | ⟨-, herr⟩
  · simp [hbusy] at hend
  · exact herr

/-- Four bytes are an entry: bytes in fours are the entries of a table. -/
theorem exists_entries (n : Nat) (bs : List Byte) (h : bs.length = 4 * n) :
    ∃ ws : List Word, ws.length = n ∧ ws.flatMap bigEndian = bs := by
  induction n generalizing bs with
  | zero => exact ⟨[], rfl, (List.eq_nil_of_length_eq_zero (by omega)).symm⟩
  | succ n ih =>
    match bs, h with
    | x :: y :: z :: w :: bs, h =>
      obtain ⟨ws, hlen, hws⟩ := ih bs (by simp at h; omega)
      exact ⟨lastFour [w, z, y, x] :: ws, by simp [hlen], by rw [List.flatMap_cons, bigEndian_lastFour, hws]; rfl⟩

theorem exists_table (g : List Byte) (h : g.length = 1036) : ∃ f : FreqTable, g.drop 8 = (headerBytes f).drop 8 := by
  obtain ⟨ws, hlen, hws⟩ := exists_entries 257 (g.drop 8) (by simp [h])
  exact ⟨⟨ws.toArray, by simp [hlen]⟩, hws.symm⟩

section Accepted

variable {f : FreqTable} {s : State} {bs : List Byte} {b : Byte}

/-- If the bytes behind the fixed part are f's entries, a beginning that passes goes on as f's header. -/
theorem made_concat_eq_take {cs ds : List Byte} (hbs : bs = cs ++ [b] ++ ds)
    (hentries : (s.br.made bs).drop 8 = (headerBytes f).drop 8) (hpass : Passes f (s.br.made cs))
    (h8 : 8 ≤ (s.br.made cs).length) : s.br.made (cs ++ [b]) = (headerBytes f).take ((s.br.made cs).length + 1) := by
  have hmade : s.br.made bs = s.br.made cs ++ ((s.br.past cs).made [b] ++ (s.br.past (cs ++ [b])).made ds) := by
    rw [hbs, made_append, made_append, List.append_assoc]
  have hfixed : (s.br.made bs).take 8 = (headerBytes f).take 8 := by
    rw [hmade, List.take_append_of_le_length h8, hpass.eq_take (checkedLen_of_ge h8), List.take_take,
      Nat.min_eq_left h8]
  have hall : s.br.made bs = headerBytes f := by
    rw [← List.take_append_drop 8 (s.br.made bs), hfixed, hentries, List.take_append_drop]
  rw [← hall, hbs, made_append _ (cs ++ [b]), List.take_left' (by simp)]

/-- When HDR_LOAD ends without an error every beginning of its bytes has passed, since a bad verdict leaves it running
or in error. -/
theorem passes_of_accepted {rest : List InToken} (hbusy : s.busy = true) (hlen : bs.length = 1036)
    (hin : s.inPort = bytesIn bs ++ rest) (hentries : (s.br.made bs).drop 8 = (headerBytes f).drop 8)
    (hend : (runOn (startHdrLoad s)).busy = false) (hok : (runOn (startHdrLoad s)).err = false)
    (cs ds : List Byte) (hbs : bs = cs ++ ds) : Passes f (s.br.made cs) := by
  induction cs using List.reverseRecOn generalizing ds with
  | nil => exact passes_of_fixed (by simp) rfl
  | append_singleton cs b ih =>
    have hpass := ih (b :: ds) (by simpa using hbs)
    have hcs : cs.length < 1036 := by rw [← hlen, hbs]; simp
    have hnext := made_concat_eq_take hbs hentries hpass
    rw [made_concat] at hnext ⊢
    refine passes_of_verdict hpass (by simpa using hcs) hnext fun e info hv => ?_
    rw [length_made] at hv
    rw [runOn_startHdrLoad_bad (rest := rest) (ds := ds) (by simpa [hbs] using hin) hcs hpass hv] at hend hok
    exact Bool.false_ne_true (hok.symm.trans (runOn_raise_fails e info false (by exact hbusy) hend))

end Accepted

/-- Settles O28: the bytes behind the fixed part are some table's entries, and all of it has passed. -/
theorem hdrLoadAcceptsOnlyHeaders : Obligations.HdrLoadAcceptsOnlyHeaders := by
  unfold Obligations.HdrLoadAcceptsOnlyHeaders
  intro s t bs rest hpace hwf hbusy herr hlen hin hexec hend hok
  rw [groups_inputBits]
  obtain ⟨f, hentries⟩ := exists_table (s.br.made bs) (by simpa using hlen)
  have hrun : t = runOn (startHdrLoad s) := Host.Outcome.next.inj (hexec.symm.trans (exec_hdrLoad hpace))
  have hpass : Passes f (s.br.made bs) :=
    passes_of_accepted hbusy hlen hin hentries (hrun ▸ hend) (hrun ▸ hok) bs [] (by simp)
  obtain rfl : _ = t := Host.Outcome.next.inj ((exec_hdrLoad_legal hpace hlen hin hpass).symm.trans hexec)
  exact hpass.legal (by simpa using hlen)

end Sys2Proof.Machine
end

section
/-! PROOF. The priority queue (42_tree.md R223): the statement QueueGivesLeastKey (O32).

The key order is transitive and of two items one comes first, so the lesser of two, along the queue, is the least of all;
what is kept is the queue without it. -/
namespace Sys2Proof.Machine

/-- The key order of R223, spelled out. -/
theorem before_iff {a b : QItem} :
    a.before b = true ↔ a.count < b.count ∨ (a.count = b.count ∧ a.idx ≤ b.idx) := by
  simp [QItem.before]

theorem before_refl (a : QItem) : a.before a = true := before_iff.mpr (.inr ⟨rfl, le_rfl⟩)

theorem before_trans {a b c : QItem} (hab : a.before b = true) (hbc : b.before c = true) : a.before c = true := by
  rw [before_iff] at *
  omega

theorem before_of_not_before {a b : QItem} (h : ¬ a.before b = true) : b.before a = true := by
  rw [before_iff] at *
  omega

theorem leastOf_mem (a : QItem) (q : List QItem) : leastOf a q ∈ a :: q := by
  induction q generalizing a with
  | nil => exact List.mem_singleton_self a
  | cons b q ih =>
    rw [leastOf]
    split
    · exact List.mem_cons.mpr ((List.mem_cons.mp (ih a)).imp_right (List.mem_cons_of_mem b))
    · exact List.mem_cons_of_mem a (ih b)

theorem leastOf_before (a : QItem) (q : List QItem) : ∀ b ∈ a :: q, (leastOf a q).before b = true := by
  induction q generalizing a with
  | nil => simp [leastOf, before_refl]
  | cons b q ih =>
    rw [leastOf]
    split
    next hab =>
      obtain ⟨ha, hq⟩ := List.forall_mem_cons.mp (ih a)
      exact List.forall_mem_cons.mpr ⟨ha, List.forall_mem_cons.mpr ⟨before_trans ha hab, hq⟩⟩
    next hab =>
      obtain ⟨hb, -⟩ := List.forall_mem_cons.mp (ih b)
      exact List.forall_mem_cons.mpr ⟨before_trans hb (before_of_not_before hab), ih b⟩

/-- What the queue hands out, and what it keeps. -/
theorem popLeast_some {q q' : List QItem} {a : QItem} (h : popLeast q = some (a, q')) :
    q.Perm (a :: q') ∧ ∀ b ∈ q, a.before b = true := by
  cases q with
  | nil => exact absurd h (by simp [popLeast])
  | cons c q =>
    obtain ⟨rfl, rfl⟩ : leastOf c q = a ∧ (c :: q).erase (leastOf c q) = q' := by simpa [popLeast] using h
    exact ⟨List.perm_cons_erase (leastOf_mem c q), leastOf_before c q⟩

theorem exists_popLeast {q : List QItem} (hq : q ≠ []) : ∃ a q', popLeast q = some (a, q') := by
  cases q with
  | nil => exact absurd rfl hq
  | cons a q => exact ⟨_, _, rfl⟩

/-- Settles O32: the least of two keys, along the queue. -/
theorem queueGivesLeastKey : Obligations.QueueGivesLeastKey := by
  unfold Obligations.QueueGivesLeastKey
  refine fun q => ⟨exists_popLeast, fun a q' h => ?_⟩
  obtain ⟨hperm, hleast⟩ := popLeast_some h
  exact ⟨hperm, fun b hb => before_iff.mp (hleast b hb)⟩

end Sys2Proof.Machine
end

section
/-! PROOF. NODE_RD (42_tree.md R228; 60_exceptions.md R314): the statement NodeRdReadsNode (O34). -/
namespace Sys2Proof.Machine

/-- An index operand below NNODE names its node (R126). -/
theorem nodeOf_eq_some {idx nnode : BitVec 10} {i : NodeIdx} (hi : i.val = idx.toNat) (h : idx.toNat < nnode.toNat) :
    nodeOf idx nnode = some i := by
  have := i.isLt
  rw [nodeOf, dif_pos ⟨h, by omega⟩]
  exact congrArg some (Fin.ext hi.symm)

theorem nodeOf_eq_none {idx nnode : BitVec 10} (h : nnode.toNat ≤ idx.toNat) : nodeOf idx nnode = none :=
  dif_neg fun hlt => absurd hlt.1 (by omega)

/-- The three fields of an internal node's word do not overlap, so they add up (R228). -/
theorem nodeShape_internal (c : Word) (l r : NodeIdx) :
    nodeShape (.internal c l r) = BitVec.ofNat 32 (2 ^ 31 + 2 ^ 20 * l.val + r.val) := by
  have hl := l.isLt
  have hr := r.isLt
  have hleft : 2 ^ 31 ||| 2 ^ 20 * l.val = 2 ^ 31 + 2 ^ 20 * l.val :=
    (Nat.two_pow_add_eq_or_of_lt (i := 31) (by omega) 1).symm
  have hright : 2 ^ 20 * (2 ^ 11 + l.val) ||| r.val = 2 ^ 20 * (2 ^ 11 + l.val) + r.val :=
    (Nat.two_pow_add_eq_or_of_lt (i := 20) (by omega) _).symm
  have hword : 2 ^ 31 ||| 2 ^ 20 * l.val ||| r.val = 2 ^ 31 + 2 ^ 20 * l.val + r.val := by
    rw [hleft, show 2 ^ 31 + 2 ^ 20 * l.val = 2 ^ 20 * (2 ^ 11 + l.val) by omega, hright]
  have hshift : BitVec.ofNat 32 l.val <<< 20 = BitVec.ofNat 32 (2 ^ 20 * l.val) :=
    BitVec.eq_of_toNat_eq (by simp [Nat.shiftLeft_eq, Nat.mul_comm])
  rw [nodeShape, hshift, ← hword, BitVec.ofNat_or, BitVec.ofNat_or]
  rfl

section NodeRd

variable {s : State} {idx : BitVec 10} {sel : BitVec 4}

theorem startNodeRd_noTree (h : s.treeValid = false) : startNodeRd idx sel s = s.raise .noTree 0 false :=
  if_neg (by simp [h])

theorem startNodeRd_range (h : s.treeValid = true) (hidx : s.nnode.toNat ≤ idx.toNat) :
    startNodeRd idx sel s = s.raise .range (BitVec.ofNat 32 idx.toNat) false := by
  rw [startNodeRd, if_pos h, nodeOf_eq_none hidx, BitVec.ofNat_toNat]

theorem startNodeRd_node {i : NodeIdx} (h : s.treeValid = true) (hi : i.val = idx.toNat)
    (hidx : idx.toNat < s.nnode.toNat) : startNodeRd idx sel s =
      { s with result := if sel = 0 then nodeCount s.node[i] else nodeShape s.node[i] }.succeed [] := by
  rw [startNodeRd, if_pos h, nodeOf_eq_some hi hidx]

theorem start_nodeRd (h : sel.toNat ≤ 1) : start (.nodeRd idx sel) s = startNodeRd idx sel s := if_pos h

/-- NODE_RD with its operands in range completes with the count or the shape of its node. -/
theorem exec_nodeRd_node {i : NodeIdx} (hpace : s.pace = none) (h : s.treeValid = true) (hi : i.val = idx.toNat)
    (hidx : idx.toNat < s.nnode.toNat) (hsel : sel.toNat ≤ 1) : exec (.nodeRd idx sel) s = .next { s.finished with
      result := if sel = 0 then nodeCount s.node[i] else nodeShape s.node[i] } :=
  exec_of_start_succeed (u := { s with result := if sel = 0 then nodeCount s.node[i] else nodeShape s.node[i] }) hpace
    ((start_nodeRd hsel).trans (startNodeRd_node h hi hidx))

end NodeRd

/-- Settles O34: R314's order is the order of the tests; a leaf's word is its symbol, an internal node's its three
fields. -/
theorem nodeRdReadsNode : Obligations.NodeRdReadsNode := by
  unfold Obligations.NodeRdReadsNode
  intro s idx sel hpace _
  refine ⟨fun hsel => exec_of_start_raise hpace (if_neg (by omega)) rfl,
    fun hsel htree => exec_of_start_raise hpace ((start_nodeRd hsel).trans (startNodeRd_noTree htree)) rfl,
    fun hsel htree hidx => exec_of_start_raise hpace ((start_nodeRd hsel).trans (startNodeRd_range htree hidx)) rfl,
    fun htree i hi hidx => ?_⟩
  have hcount := exec_nodeRd_node (sel := 0) hpace htree hi hidx (by decide)
  have hshape := exec_nodeRd_node (sel := 1) hpace htree hi hidx (by decide)
  refine ⟨fun sym c hnode => ?_, fun c l r hnode => ?_⟩
  · rw [hnode] at hcount hshape
    exact ⟨hcount, hshape⟩
  · rw [hnode] at hcount hshape
    exact ⟨hcount, nodeShape_internal c l r ▸ hshape⟩

end Sys2Proof.Machine
end

section
/-! PROOF. BUILD's checks (42_tree.md R221, R227): the statement BuildChecksTable (O31).

The running sum grows with every entry, so it exceeds CNT_MAX somewhere exactly when the whole sum does
(`firstOverflow_eq_none`), and the entry found is the first (`firstOverflow_eq_some`). -/
namespace Sys2Proof.Machine

/-- No running sum exceeds CNT_MAX exactly when the whole does not. -/
theorem firstOverflow_eq_none {sum : Nat} (k : Nat) (cs : List Word) (h : sum ≤ Config.cntMax) :
    firstOverflow sum k cs = none ↔ sum + (cs.map BitVec.toNat).sum ≤ Config.cntMax := by
  induction cs generalizing sum k with
  | nil => simpa [firstOverflow] using h
  | cons c cs ih =>
    rw [firstOverflow, List.map_cons, List.sum_cons, ← Nat.add_assoc]
    split
    next hover => simp; omega
    next hover => exact ih (k + 1) (by omega)

/-- The running sum exceeds CNT_MAX at the entry found, and not before. -/
theorem firstOverflow_eq_some {sum k i : Nat} {cs : List Word} (h : sum ≤ Config.cntMax)
    (hi : firstOverflow sum k cs = some i) : ∃ j < cs.length, i = k + j ∧
      sum + ((cs.take j).map BitVec.toNat).sum ≤ Config.cntMax ∧
      Config.cntMax < sum + ((cs.take (j + 1)).map BitVec.toNat).sum := by
  induction cs generalizing sum k with
  | nil => exact absurd hi (by simp [firstOverflow])
  | cons c cs ih =>
    rw [firstOverflow] at hi
    split at hi
    next hover => exact ⟨0, by simp, by simpa using hi.symm, by simpa using h, by simpa using hover⟩
    next hover =>
      obtain ⟨j, hj, rfl, hle, hgt⟩ := ih (by omega) hi
      exact ⟨j + 1, by simpa using hj, by omega, by simpa [← Nat.add_assoc] using hle,
        by simpa [← Nat.add_assoc] using hgt⟩

section Checks

variable {f : FreqTable}

theorem all_zero_iff : f.toList.all (· == 0) = true ↔ ∀ k : Symbol, f[k] = 0 := by
  simp [Fin.forall_iff]

theorem buildCheck_zeroTable (h : ∀ k : Symbol, f[k] = 0) : buildCheck f = some (.zeroTable, 0) :=
  if_pos (all_zero_iff.mpr h)

theorem buildCheck_eosCount (h : ∃ k : Symbol, f[k] ≠ 0) (heos : f[256] ≠ 1) :
    buildCheck f = some (.eosCount, f[256]) := by
  rw [buildCheck, if_neg (fun hall => h.elim fun k hk => hk (all_zero_iff.mp hall k)), if_pos heos]

/-- With one EOS counted, the sum decides (R221). -/
theorem buildCheck_of_eos (heos : f[256] = 1) :
    buildCheck f = (firstOverflow 0 0 f.toList).map fun k => (.sumOvf, BitVec.ofNat 32 k) := by
  have hzero : ¬ f.toList.all (· == 0) = true := fun h => by
    have h256 : f[256] = 0 := all_zero_iff.mp h 256
    exact absurd (heos.symm.trans h256) (by decide)
  rw [buildCheck, if_neg hzero, if_neg (not_not.mpr heos)]
  cases firstOverflow 0 0 f.toList <;> rfl

/-- BUILD accepts a legal table (R221). -/
theorem buildCheck_legal (h : LegalTable f) : buildCheck f = none := by
  obtain ⟨heos, hsum⟩ := h
  rw [buildCheck_of_eos heos, (firstOverflow_eq_none 0 _ (Nat.zero_le _)).mpr (by simpa [tableSum] using hsum)]
  rfl

theorem buildCheck_sumOvf (heos : f[256] = 1) (hsum : Config.cntMax < tableSum f) :
    ∃ k ≤ 256, buildCheck f = some (.sumOvf, BitVec.ofNat 32 k) ∧
      ((f.toList.take k).map BitVec.toNat).sum ≤ Config.cntMax ∧
      Config.cntMax < ((f.toList.take (k + 1)).map BitVec.toNat).sum := by
  have hne : firstOverflow 0 0 f.toList ≠ none := fun h => by
    have hle := (firstOverflow_eq_none 0 _ (Nat.zero_le _)).mp h
    rw [Nat.zero_add] at hle
    exact absurd hsum (Nat.not_lt.mpr hle)
  obtain ⟨k, hk⟩ := Option.ne_none_iff_exists'.mp hne
  obtain ⟨j, hj, rfl, hle, hgt⟩ := firstOverflow_eq_some (Nat.zero_le _) hk
  rw [Nat.zero_add] at hk hle hgt
  exact ⟨j, by simpa [Nat.lt_succ_iff] using hj, by rw [buildCheck_of_eos heos, hk]; rfl, hle, hgt⟩

end Checks

/-- A command that fails before the stream phase, once its start has made `u` of the state, changes nothing else in it. -/
theorem exec_of_start_raise_after {i : Instr} {s u : State} {e : ErrCode} {info : Word} {a : Bool} (hpace : u.pace = none)
    (hstart : start i s = u.raise e info a) (he : e.stream = false) : exec i s = .next (u.failed e info) := by
  rw [exec_eq, hstart, launch_eager ((State.raise_pace ..).trans hpace), runOn_raise e info a u he]

/-- A failed check leaves no tree (R227). -/
theorem exec_build_failed {s : State} {e : ErrCode} {info : Word} (hpace : s.pace = none)
    (h : buildCheck s.freq = some (e, info)) : exec .build s = .next ({ s with
      treeValid := false, codesValid := false, nleaf := 0, nnode := 0, root := 0 }.failed e info) := by
  have hstart : start .build s = { s.invalidate with nleaf := 0, nnode := 0, root := 0 }.raise e info false := by
    rw [start, startBuild, h]
  exact exec_of_start_raise_after hpace hstart (buildCheck_stream h)

/-- Settles O31: each check, when those before it have passed. -/
theorem buildChecksTable : Obligations.BuildChecksTable := by
  unfold Obligations.BuildChecksTable
  intro s hpace bad
  refine ⟨fun h => exec_build_failed hpace (buildCheck_zeroTable h),
    fun h heos => exec_build_failed hpace (buildCheck_eosCount h heos), fun heos hsum => ?_⟩
  obtain ⟨k, hk, hcheck, hle, hgt⟩ := buildCheck_sumOvf heos hsum
  exact ⟨k, hk, exec_build_failed hpace hcheck, hle, hgt⟩

end Sys2Proof.Machine
end

section
/-! PROOF. BUILD's tree (42_tree.md R220, R222-R226, R229): the statements TreeShape (O33) and BuildMakesTree (O30).

`Merges f nodes q` says that the nodes and the queue come from the table's leaves by merges of the two least keys; the merge
loop makes such a pair, with one item left (`treeOf_merges`). Each property of the tree is one induction on the merges. The
one they turn on is `Merges.mem_queue_iff`: the queue holds exactly the nodes without a parent. So a merge chooses among
these, no node gets a second parent, and when one item is left every other node has one. -/
namespace Sys2Proof.Machine

/-! The leaves and the first queue (R220, R222). -/

theorem leavesOf_eq (f : FreqTable) :
    leavesOf f = ((List.finRange 257).filter fun k => f[k] ≠ 0).map fun k => .leaf k f[k] := by
  rw [← List.filterMap_eq_map, List.filterMap_filter]
  exact List.filterMap_congr fun k _ => by simp

theorem length_leavesOf (f : FreqTable) :
    (leavesOf f).length = ((List.finRange 257).filter fun k => f[k] ≠ 0).length := by
  rw [leavesOf_eq, List.length_map]

theorem length_leavesOf_le (f : FreqTable) : (leavesOf f).length ≤ 257 := by
  rw [length_leavesOf]
  exact (List.length_filter_le ..).trans_eq List.length_finRange

/-- EOS is a leaf (R229). -/
theorem length_leavesOf_pos {f : FreqTable} (h : LegalTable f) : 1 ≤ (leavesOf f).length := by
  have heos : f[(256 : Symbol)] ≠ 0 := fun h0 => absurd (h.1.symm.trans h0) (by decide)
  rw [length_leavesOf]
  exact List.length_pos_of_mem (List.mem_filter.mpr ⟨List.mem_finRange 256, by simpa using heos⟩)

theorem leavesOf_not_internal {f : FreqTable} {i : Nat} {c : Word} {l r : NodeIdx} :
    (leavesOf f)[i]? ≠ some (.internal c l r) := fun h => by
  have hmem := List.mem_of_getElem? h
  simp [leavesOf_eq] at hmem

/-- The leaves' counts add up to the table's sum: the others are 0. -/
theorem sum_leavesOf (f : FreqTable) : ((leavesOf f).map fun z => (nodeCount z).toNat).sum = tableSum f := by
  have htable : f.toList = (List.finRange 257).map fun k => f[k] :=
    List.ext_getElem (by simp) fun i _ _ => by simp
  rw [tableSum, htable, leavesOf_eq, List.map_map, List.map_map]
  induction List.finRange 257 with
  | nil => rfl
  | cons k ks ih =>
    by_cases hk : f[k] = 0
    · rw [List.filter_cons_of_neg (by simpa using hk), ih, List.map_cons, List.sum_cons, Function.comp_apply, hk]
      exact (Nat.zero_add _).symm
    · rw [List.filter_cons_of_pos (by simpa using hk), List.map_cons, List.sum_cons, ih]
      rfl

theorem mem_firstQueue {leaves : List Node} {x : QItem} :
    x ∈ firstQueue leaves ↔ ∃ z, leaves[x.idx]? = some z ∧ x.count = (nodeCount z).toNat := by
  simp only [firstQueue, List.mem_map, Prod.exists, List.mem_zipIdx_iff_getElem?]
  constructor
  · rintro ⟨z, i, hz, rfl⟩
    exact ⟨z, hz, rfl⟩
  · rintro ⟨z, hz, hcount⟩
    exact ⟨z, x.idx, hz, by rw [← hcount]⟩

@[simp] theorem length_firstQueue (leaves : List Node) : (firstQueue leaves).length = leaves.length := by
  simp [firstQueue]

theorem firstQueue_idx (leaves : List Node) : (firstQueue leaves).map (·.idx) = List.range leaves.length := by
  rw [List.range_eq_range', ← List.zipIdx_map_snd 0 leaves, firstQueue, List.map_map]
  rfl

theorem firstQueue_count (leaves : List Node) :
    (firstQueue leaves).map (·.count) = leaves.map fun z => (nodeCount z).toNat := by
  conv_rhs => rw [← List.zipIdx_map_fst 0 leaves, List.map_map]
  rw [firstQueue, List.map_map]
  rfl

/-! The merges (R224). -/

/-- The node that joins the two items removed (R224). -/
def joined (a b : QItem) : Node :=
  .internal (BitVec.ofNat 32 (a.count + b.count)) (Fin.ofNat 513 a.idx) (Fin.ofNat 513 b.idx)

/-- What the merges can make of a table's leaves: the nodes, and the queue of those still to be joined. A merge joins
the two items with the least keys and puts the new node's item in their place (R223, R224). -/
inductive Merges (f : FreqTable) : List Node → List QItem → Prop where
  | leaves : Merges f (leavesOf f) (firstQueue (leavesOf f))
  | merge {nodes : List Node} {q rest : List QItem} {a b : QItem} (made : Merges f nodes q)
      (popped : q.Perm (a :: b :: rest)) (least : ∀ x ∈ b :: rest, a.before x = true)
      (next : ∀ x ∈ rest, b.before x = true) :
      Merges f (nodes ++ [joined a b]) (rest ++ [⟨a.count + b.count, nodes.length⟩])

theorem mergeLoop_singleton (fuel : Nat) (nodes : List Node) (x : QItem) :
    mergeLoop fuel nodes [x] = (nodes, [x]) := by
  cases fuel <;> simp [mergeLoop, popLeast, leastOf]

/-- One turn of the merge loop. -/
theorem mergeLoop_succ {q : List QItem} (hq : 2 ≤ q.length) : ∃ (a b : QItem) (rest : List QItem),
    q.Perm (a :: b :: rest) ∧ (∀ x ∈ b :: rest, a.before x = true) ∧ (∀ x ∈ rest, b.before x = true) ∧
    ∀ (fuel : Nat) (nodes : List Node), mergeLoop (fuel + 1) nodes q =
      mergeLoop fuel (nodes ++ [joined a b]) (rest ++ [⟨a.count + b.count, nodes.length⟩]) := by
  obtain ⟨a, q1, ha⟩ := exists_popLeast (q := q) (List.ne_nil_of_length_pos (by omega))
  obtain ⟨hperm, hleast⟩ := popLeast_some ha
  have hlen := hperm.length_eq
  rw [List.length_cons] at hlen
  obtain ⟨b, rest, hb⟩ := exists_popLeast (q := q1) (List.ne_nil_of_length_pos (by omega))
  obtain ⟨hperm1, hleast1⟩ := popLeast_some hb
  have hpopped : q.Perm (a :: b :: rest) := hperm.trans (hperm1.cons a)
  refine ⟨a, b, rest, hpopped, fun x hx => hleast x (hpopped.mem_iff.mpr (List.mem_cons_of_mem a hx)),
    fun x hx => hleast1 x (hperm1.mem_iff.mpr (List.mem_cons_of_mem b hx)), fun fuel nodes => ?_⟩
  simp only [mergeLoop, ha, hb, joined]

/-- With a turn for each item but one, the loop ends with a single item (R225). -/
theorem mergeLoop_merges {f : FreqTable} (fuel : Nat) {nodes : List Node} {q : List QItem} (h : Merges f nodes q)
    (hpos : 1 ≤ q.length) (hfuel : q.length ≤ fuel + 1) :
    ∃ nodes' x, mergeLoop fuel nodes q = (nodes', [x]) ∧ Merges f nodes' [x] := by
  induction fuel generalizing nodes q with
  | zero =>
    obtain ⟨x, rfl⟩ := List.length_eq_one_iff.mp (Nat.le_antisymm hfuel hpos)
    exact ⟨nodes, x, rfl, h⟩
  | succ fuel ih =>
    rcases hpos.eq_or_lt with hone | htwo
    · obtain ⟨x, rfl⟩ := List.length_eq_one_iff.mp hone.symm
      exact ⟨nodes, x, mergeLoop_singleton (fuel + 1) nodes x, h⟩
    · obtain ⟨a, b, rest, popped, least, next, hloop⟩ := mergeLoop_succ htwo
      have hlen : q.length = rest.length + 2 := popped.length_eq
      rw [hloop]
      exact ih (h.merge popped least next) (by simp) (by simp; omega)

/-- The tree of a legal table is made by merges, down to one item, the root's. -/
theorem treeOf_merges {f : FreqTable} (h : LegalTable f) :
    ∃ x, Merges f (treeOf f).nodes [x] ∧ (treeOf f).root = x.idx := by
  obtain ⟨nodes, x, hloop, hmade⟩ := mergeLoop_merges (leavesOf f).length (Merges.leaves (f := f))
    (by simpa using length_leavesOf_pos h) (by simp)
  have htree : treeOf f = ⟨nodes, (leavesOf f).length, x.idx⟩ := by
    rw [treeOf, hloop]
    rfl
  rw [htree]
  exact ⟨x, hmade, rfl⟩

/-! What the merges keep (R226, R229). -/

theorem getElem?_concat_eq_some {α : Type} {l : List α} {x y : α} {i : Nat} :
    (l ++ [x])[i]? = some y ↔ l[i]? = some y ∨ (i = l.length ∧ x = y) := by
  rcases Nat.lt_trichotomy i l.length with hi | rfl | hi
  · simp [List.getElem?_append_left hi, hi.ne]
  · simp
  · have hlen : (l ++ [x]).length ≤ i := by simpa using hi
    simp [List.getElem?_eq_none hlen, List.getElem?_eq_none hi.le, hi.ne']

theorem getElem?_append_of_some {α : Type} {l : List α} {y : α} {i : Nat} (h : l[i]? = some y) (l' : List α) :
    (l ++ l')[i]? = some y := by
  rwa [List.getElem?_append_left (List.getElem?_eq_some_iff.mp h).1]

/-- Node i is internal, and j is one of its children. -/
def IsChild (nodes : List Node) (i j : Nat) : Prop :=
  ∃ (c : Word) (l r : NodeIdx), nodes[i]? = some (.internal c l r) ∧ (l.val = j ∨ r.val = j)

section Merges

variable {f : FreqTable} {nodes : List Node} {q : List QItem}

/-- Each merge makes one node and shortens the queue by one (R226). -/
theorem Merges.length_add (h : Merges f nodes q) : nodes.length + q.length = 2 * (leavesOf f).length := by
  induction h with
  | leaves => simp; omega
  | merge _ popped _ _ ih =>
    have := popped.length_eq
    simp at this ⊢
    omega

theorem Merges.leaves_prefix (h : Merges f nodes q) : leavesOf f <+: nodes := by
  induction h with
  | leaves => exact List.prefix_rfl
  | merge _ _ _ _ ih => exact ih.trans (List.prefix_append ..)

theorem Merges.idx_lt (h : Merges f nodes q) : ∀ x ∈ q, x.idx < nodes.length := by
  induction h with
  | leaves =>
    intro x hx
    obtain ⟨z, hz, -⟩ := mem_firstQueue.mp hx
    exact (List.getElem?_eq_some_iff.mp hz).1
  | @merge nodes q rest a b _ popped _ _ ih =>
    intro x hx
    rw [List.length_append]
    rcases List.mem_append.mp hx with hx | hx
    · exact Nat.lt_add_right 1 (ih x (popped.mem_iff.mpr (by simp [hx])))
    · rw [List.mem_singleton.mp hx]
      exact Nat.lt_succ_self _

/-- No index stands twice in the queue. -/
theorem Merges.nodup (h : Merges f nodes q) : (q.map (·.idx)).Nodup := by
  induction h with
  | leaves => simp [firstQueue_idx, List.nodup_range]
  | @merge nodes q rest a b made popped _ _ ih =>
    have hrest : (rest.map (·.idx)).Nodup := by
      have := (popped.map (·.idx)).nodup_iff.mp ih
      simp only [List.map_cons, List.nodup_cons] at this
      exact this.2.2
    have hnew : nodes.length ∉ rest.map (·.idx) := fun hmem => by
      obtain ⟨x, hx, hidx⟩ := List.mem_map.mp hmem
      exact absurd (made.idx_lt x (popped.mem_iff.mpr (by simp [hx]))) (by omega)
    rw [List.map_append, List.map_singleton, (List.perm_append_singleton ..).nodup_iff]
    exact List.nodup_cons.mpr ⟨hnew, hrest⟩

/-- The counts in the queue always add up to the table's sum (R229). -/
theorem Merges.sum_count (h : Merges f nodes q) : (q.map (·.count)).sum = tableSum f := by
  induction h with
  | leaves => rw [firstQueue_count, sum_leavesOf]
  | merge _ popped _ _ ih =>
    rw [← ih, (popped.map (·.count)).sum_eq]
    simp only [List.map_append, List.sum_append, List.map_cons, List.map_nil, List.sum_cons, List.sum_nil]
    omega

/-- What is not removed stays in the queue. -/
theorem mem_rest_of_idx_ne {rest : List QItem} {a b x : QItem} (popped : q.Perm (a :: b :: rest)) (hx : x ∈ q)
    (ha : a.idx ≠ x.idx) (hb : b.idx ≠ x.idx) : x ∈ rest := by
  rcases List.mem_cons.mp (popped.mem_iff.mp hx) with rfl | hx
  · exact absurd rfl ha
  · exact (List.mem_cons.mp hx).resolve_left fun e => hb (e ▸ rfl)

section OneMerge

variable {rest : List QItem} {a b : QItem} (h : Merges f nodes q) (popped : q.Perm (a :: b :: rest))
include h popped

theorem Merges.popped_lt : a.idx < nodes.length ∧ b.idx < nodes.length :=
  ⟨h.idx_lt a (popped.mem_iff.mpr (by simp)), h.idx_lt b (popped.mem_iff.mpr (by simp))⟩

/-- The items' indices are stored as they are: there is room for them (R226). -/
theorem Merges.popped_val : (Fin.ofNat 513 a.idx).val = a.idx ∧ (Fin.ofNat 513 b.idx).val = b.idx := by
  have hlt := h.popped_lt popped
  have hlen := h.length_add
  rw [popped.length_eq] at hlen
  simp only [List.length_cons] at hlen
  have hleaves := length_leavesOf_le f
  exact ⟨Nat.mod_eq_of_lt (by omega), Nat.mod_eq_of_lt (by omega)⟩

theorem Merges.popped_ne : a.idx ≠ b.idx ∧ ∀ x ∈ rest, a.idx ≠ x.idx ∧ b.idx ≠ x.idx := by
  have hnodup := (popped.map (·.idx)).nodup_iff.mp h.nodup
  simp only [List.map_cons, List.nodup_cons, List.mem_cons, List.mem_map, not_or, not_exists, not_and] at hnodup
  obtain ⟨⟨hab, ha⟩, hb, -⟩ := hnodup
  exact ⟨hab, fun x hx => ⟨fun e => ha x hx e.symm, fun e => hb x hx e.symm⟩⟩

/-- A merge makes the two items removed the children of the new node, and no other node a child. -/
theorem Merges.isChild_merge {i j : Nat} : IsChild (nodes ++ [joined a b]) i j ↔
    IsChild nodes i j ∨ (i = nodes.length ∧ (a.idx = j ∨ b.idx = j)) := by
  obtain ⟨hl, hr⟩ := h.popped_val popped
  simp only [IsChild, getElem?_concat_eq_some]
  constructor
  · rintro ⟨c, l, r, hi | ⟨rfl, hi⟩, hj⟩
    · exact .inl ⟨c, l, r, hi, hj⟩
    · obtain ⟨-, rfl, rfl⟩ := Node.internal.inj hi
      exact .inr ⟨rfl, by rwa [hl, hr] at hj⟩
  · rintro (⟨c, l, r, hi, hj⟩ | ⟨rfl, hj⟩)
    · exact ⟨c, l, r, .inl hi, hj⟩
    · exact ⟨_, _, _, .inr ⟨rfl, rfl⟩, by rwa [hl, hr]⟩

/-- The new node's count is exact (R224). -/
theorem Merges.count_joined (hf : LegalTable f) : (nodeCount (joined a b)).toNat = a.count + b.count := by
  have hsum := h.sum_count
  rw [(popped.map (·.count)).sum_eq] at hsum
  simp only [List.map_cons, List.sum_cons] at hsum
  have hle := hf.2
  simp only [Config.cntMax] at hle
  simp only [joined, nodeCount, BitVec.toNat_ofNat]
  omega

end OneMerge

/-- A queue's item holds the count of its node (R223). -/
theorem Merges.count_eq (hf : LegalTable f) (h : Merges f nodes q) :
    ∀ x ∈ q, ∃ z, nodes[x.idx]? = some z ∧ x.count = (nodeCount z).toNat := by
  induction h with
  | leaves => exact fun x hx => mem_firstQueue.mp hx
  | @merge nodes q rest a b made popped _ _ ih =>
    intro x hx
    rcases List.mem_append.mp hx with hx | hx
    · obtain ⟨z, hz, hcount⟩ := ih x (popped.mem_iff.mpr (by simp [hx]))
      exact ⟨z, getElem?_append_of_some hz _, hcount⟩
    · rw [List.mem_singleton.mp hx]
      exact ⟨joined a b, List.getElem?_concat_length, (made.count_joined popped hf).symm⟩

/-- Children are made before their parent. -/
theorem Merges.child_lt (h : Merges f nodes q) {i j : Nat} (hc : IsChild nodes i j) : j < i ∧ i < nodes.length := by
  induction h with
  | leaves =>
    obtain ⟨c, l, r, hi, -⟩ := hc
    exact absurd hi leavesOf_not_internal
  | @merge nodes q rest a b made popped _ _ ih =>
    obtain ⟨ha, hb⟩ := made.popped_lt popped
    rw [List.length_append, List.length_singleton]
    rcases (made.isChild_merge popped).mp hc with hc | ⟨rfl, rfl | rfl⟩
    · have := ih hc
      omega
    · omega
    · omega

/-- The queue holds exactly the nodes that have no parent yet (R223, R224). -/
theorem Merges.mem_queue_iff (h : Merges f nodes q) {j : Nat} (hj : j < nodes.length) :
    (∃ x ∈ q, x.idx = j) ↔ ∀ i, ¬ IsChild nodes i j := by
  induction h with
  | leaves =>
    refine iff_of_true ⟨⟨(nodeCount (leavesOf f)[j]).toNat, j⟩, ?_, rfl⟩ ?_
    · exact mem_firstQueue.mpr ⟨_, List.getElem?_eq_getElem hj, rfl⟩
    · rintro i ⟨c, l, r, hi, -⟩
      exact leavesOf_not_internal hi
  | @merge nodes q rest a b made popped _ _ ih =>
    obtain ⟨ha, hb⟩ := made.popped_lt popped
    obtain ⟨-, hne⟩ := made.popped_ne popped
    simp only [made.isChild_merge popped]
    rw [List.length_append, List.length_singleton, Nat.lt_succ_iff] at hj
    rcases hj.lt_or_eq with hj | rfl
    · rw [forall_congr' fun i => not_or, forall_and, ← ih hj]
      constructor
      · rintro ⟨x, hx, rfl⟩
        have hx : x ∈ rest := (List.mem_append.mp hx).resolve_right fun hx => by
          rw [List.mem_singleton.mp hx] at hj
          exact absurd hj (lt_irrefl _)
        exact ⟨⟨x, popped.mem_iff.mpr (by simp [hx]), rfl⟩, fun i hi => hi.2.elim (hne x hx).1 (hne x hx).2⟩
      · rintro ⟨⟨x, hx, rfl⟩, hnew⟩
        obtain ⟨hxa, hxb⟩ := not_or.mp fun hab => hnew nodes.length ⟨rfl, hab⟩
        exact ⟨x, List.mem_append_left _ (mem_rest_of_idx_ne popped hx hxa hxb), rfl⟩
    · refine iff_of_true ⟨_, List.mem_append_right _ (List.mem_singleton_self _), rfl⟩ fun i hi => ?_
      rcases hi with hi | ⟨-, hi | hi⟩
      · have := made.child_lt hi
        omega
      · omega
      · omega

/-- No node has two parents (R229). -/
theorem Merges.parent_unique (h : Merges f nodes q) {i i' j : Nat} (hi : IsChild nodes i j) (hi' : IsChild nodes i' j) :
    i = i' := by
  induction h with
  | leaves =>
    obtain ⟨c, l, r, hi, -⟩ := hi
    exact absurd hi leavesOf_not_internal
  | @merge nodes q rest a b made popped _ _ ih =>
    obtain ⟨ha, hb⟩ := made.popped_lt popped
    have hfree : ∀ i, (a.idx = j ∨ b.idx = j) → ¬ IsChild nodes i j := by
      rintro i (rfl | rfl)
      · exact (made.mem_queue_iff ha).mp ⟨a, popped.mem_iff.mpr (by simp), rfl⟩ i
      · exact (made.mem_queue_iff hb).mp ⟨b, popped.mem_iff.mpr (by simp), rfl⟩ i
    rcases (made.isChild_merge popped).mp hi with hi | ⟨rfl, hab⟩ <;>
      rcases (made.isChild_merge popped).mp hi' with hi' | ⟨rfl, hab'⟩
    · exact ih hi hi'
    · exact absurd hi (hfree i hab')
    · exact absurd hi' (hfree i' hab)
    · rfl

/-! Each merge joins the two least keys (R223, R224). -/

/-- Node j, holding x, has a lesser key than node k, holding y (R223). -/
def KeyLt (x : Node) (j : Nat) (y : Node) (k : Nat) : Prop :=
  (nodeCount x).toNat < (nodeCount y).toNat ∨ (nodeCount x = nodeCount y ∧ j < k)

theorem keyLt_of_before {a b : QItem} {x y : Node} (h : a.before b = true) (hne : a.idx ≠ b.idx)
    (hx : a.count = (nodeCount x).toNat) (hy : b.count = (nodeCount y).toNat) : KeyLt x a.idx y b.idx := by
  rw [before_iff, hx, hy] at h
  exact h.imp_right fun ⟨hcount, hidx⟩ => ⟨BitVec.eq_of_toNat_eq hcount, by omega⟩

/-- Node i joins nodes l and r, holding x and y: the two least keys, the least first, among the nodes before i that no node
before i has for a child. -/
structure Joins (nodes : List Node) (i : Nat) (c : Word) (l r : NodeIdx) (x y : Node) : Prop where
  node : nodes[i]? = some (.internal c l r)
  left_lt : l.val < i
  right_lt : r.val < i
  ne : l ≠ r
  left : nodes[l.val]? = some x
  right : nodes[r.val]? = some y
  count : c.toNat = (nodeCount x).toNat + (nodeCount y).toNat
  order : KeyLt x l.val y r.val
  least : ∀ (j : Nat) (z : Node), j < i → nodes[j]? = some z → j ≠ l.val → j ≠ r.val →
    (∀ m < i, ¬ IsChild nodes m j) → KeyLt y r.val z j

/-- More nodes behind it change nothing of a merge. -/
theorem Joins.append {i : Nat} {c : Word} {l r : NodeIdx} {x y : Node} (h : Joins nodes i c l r x y) (tail : List Node) :
    Joins (nodes ++ tail) i c l r x y where
  node := getElem?_append_of_some h.node tail
  left_lt := h.left_lt
  right_lt := h.right_lt
  ne := h.ne
  left := getElem?_append_of_some h.left tail
  right := getElem?_append_of_some h.right tail
  count := h.count
  order := h.order
  least j z hj hz hl hr hfree := by
    have hi := (List.getElem?_eq_some_iff.mp h.node).1
    rw [List.getElem?_append_left (by omega)] at hz
    refine h.least j z hj hz hl hr fun m hm => ?_
    rintro ⟨c', l', r', hm', hchild⟩
    exact hfree m hm ⟨c', l', r', getElem?_append_of_some hm' tail, hchild⟩

/-- The node a merge makes joins the two items removed. -/
theorem Merges.joins_new {rest : List QItem} {a b : QItem} (hf : LegalTable f) (h : Merges f nodes q)
    (popped : q.Perm (a :: b :: rest)) (least : ∀ x ∈ b :: rest, a.before x = true)
    (next : ∀ x ∈ rest, b.before x = true) :
    ∃ c l r x y, Joins (nodes ++ [joined a b]) nodes.length c l r x y := by
  obtain ⟨ha, hb⟩ := h.popped_lt popped
  obtain ⟨hab, hne⟩ := h.popped_ne popped
  obtain ⟨x, hx, hcx⟩ := h.count_eq hf a (popped.mem_iff.mpr (by simp))
  obtain ⟨y, hy, hcy⟩ := h.count_eq hf b (popped.mem_iff.mpr (by simp))
  obtain ⟨hl, hr⟩ := h.popped_val popped
  refine ⟨_, _, _, x, y, List.getElem?_concat_length, ?_, ?_, ?_, ?_, ?_, ?_, ?_, ?_⟩
  · rwa [hl]
  · rwa [hr]
  · rwa [Ne, Fin.ext_iff, hl, hr]
  · rw [hl]
    exact getElem?_append_of_some hx _
  · rw [hr]
    exact getElem?_append_of_some hy _
  · rw [← hcx, ← hcy]
    exact h.count_joined popped hf
  · rw [hl, hr]
    exact keyLt_of_before (least b List.mem_cons_self) hab hcx hcy
  · rw [hl, hr]
    intro j z hj hz hja hjb hfree
    rw [List.getElem?_append_left hj] at hz
    obtain ⟨w, hw, rfl⟩ := (h.mem_queue_iff hj).mpr fun m hm =>
      hfree m (h.child_lt hm).2 ((h.isChild_merge popped).mpr (.inl hm))
    obtain ⟨z', hz', hcz⟩ := h.count_eq hf w hw
    obtain rfl : z' = z := Option.some.inj (hz'.symm.trans hz)
    have hrest := mem_rest_of_idx_ne popped hw hja.symm hjb.symm
    exact keyLt_of_before (next w hrest) (hne w hrest).2 hcy hcz

/-- Every node behind the leaves joins the two least keys of its time. -/
theorem Merges.joins (hf : LegalTable f) (h : Merges f nodes q) {i : Nat} (hi : (leavesOf f).length ≤ i)
    (hlt : i < nodes.length) : ∃ c l r x y, Joins nodes i c l r x y := by
  induction h with
  | leaves => omega
  | @merge nodes q rest a b made popped least next ih =>
    rw [List.length_append, List.length_singleton, Nat.lt_succ_iff] at hlt
    rcases hlt.lt_or_eq with hlt | rfl
    · obtain ⟨c, l, r, x, y, hjoins⟩ := ih hlt
      exact ⟨c, l, r, x, y, hjoins.append _⟩
    · exact made.joins_new hf popped least next

/-! The whole tree: one item is left. -/

variable {x : QItem}

theorem Merges.length_nodes (h : Merges f nodes [x]) : nodes.length = 2 * (leavesOf f).length - 1 := by
  have := h.length_add
  rw [List.length_singleton] at this
  omega

/-- The last node made is the one without a parent (R226). -/
theorem Merges.root_idx (h : Merges f nodes [x]) : x.idx = nodes.length - 1 := by
  have hlt := h.idx_lt x (List.mem_singleton_self x)
  obtain ⟨y, hy, hidx⟩ := (h.mem_queue_iff (j := nodes.length - 1) (by omega)).mpr fun i hi => by
    have := h.child_lt hi
    omega
  rw [← hidx, List.mem_singleton.mp hy]

theorem Merges.existsUnique_parent (h : Merges f nodes [x]) {j : Nat} (hj : j < nodes.length - 1) :
    ∃! i, IsChild nodes i j := by
  have hroot := h.root_idx
  have hqueue : ¬ ∃ y ∈ [x], y.idx = j := by
    simp
    omega
  rw [h.mem_queue_iff (by omega)] at hqueue
  push Not at hqueue
  obtain ⟨i, hi⟩ := hqueue
  exact ⟨i, hi, fun i' hi' => h.parent_unique hi' hi⟩

/-- The root's count is the table's sum (R229). -/
theorem Merges.root_count (hf : LegalTable f) (h : Merges f nodes [x]) :
    ∃ z, nodes[x.idx]? = some z ∧ (nodeCount z).toNat = tableSum f := by
  obtain ⟨z, hz, hcount⟩ := h.count_eq hf x (List.mem_singleton_self x)
  refine ⟨z, hz, ?_⟩
  rw [← hcount, ← h.sum_count]
  simp

end Merges

/-- Settles O33: the tree is made by merges (`treeOf_merges`), and each part is something that they keep. -/
theorem treeShape : Obligations.TreeShape := by
  unfold Obligations.TreeShape
  intro f hf
  dsimp only
  obtain ⟨x, hmade, hroot⟩ := treeOf_merges hf
  have hlen : (treeOf f).nodes.length = 2 * (treeOf f).nleaf - 1 := hmade.length_nodes
  have hidx : (treeOf f).root = 2 * (treeOf f).nleaf - 2 := by
    rw [hroot, hmade.root_idx, hlen]
    rfl
  refine ⟨length_leavesOf_pos hf, length_leavesOf_le f, hlen, hidx, ?_, fun i hi hlt => ?_, fun j hj => ?_, ?_⟩
  · rw [← leavesOf_eq]
    exact (List.prefix_iff_eq_take.mp hmade.leaves_prefix).symm
  · obtain ⟨c, l, r, y, z, h⟩ := hmade.joins hf hi (by omega)
    refine ⟨c, l, r, y, z, h.node, h.left_lt, h.right_lt, h.ne, h.left, h.right, h.count, h.order,
      fun j w hj hw hjl hjr hfree => h.least j w hj hw hjl hjr fun m hm => ?_⟩
    rintro ⟨c', l', r', hnode, hchild⟩
    obtain ⟨hl', hr'⟩ := hfree m c' l' r' hm hnode
    exact hchild.elim hl' hr'
  · exact hmade.existsUnique_parent (by omega)
  · rw [hroot]
    exact hmade.root_count hf

/-- The state with the tree of its table in NODE, and the registers and flags that say so (R225). -/
def State.built (s : State) : State :=
  { s with
    treeValid := true, codesValid := false, node := writeNodes s.node (treeOf s.freq).nodes
    nleaf := BitVec.ofNat 9 (treeOf s.freq).nleaf, nnode := BitVec.ofNat 10 (treeOf s.freq).nodes.length
    root := Fin.ofNat 513 (treeOf s.freq).root }

/-- BUILD over a legal table completes with its tree (R225). -/
theorem exec_build_legal {s : State} (hpace : s.pace = none) (hf : LegalTable s.freq) :
    exec .build s = .next s.built.finished := by
  have hstart : start .build s = s.built.succeed [] := by
    rw [start, startBuild, buildCheck_legal hf]
    rfl
  exact exec_of_start_succeed (u := s.built) hpace hstart

/-- Settles O30: the checks pass (`buildCheck_legal`), and the tree that is written has the shape of O33. -/
theorem buildMakesTree : Obligations.BuildMakesTree := by
  unfold Obligations.BuildMakesTree
  intro s hpace hf
  obtain ⟨-, hle, hlen, hroot, -⟩ := treeShape s.freq hf
  have hnleaf : (treeOf s.freq).nleaf = ((List.finRange 257).filter fun k => s.freq[k] ≠ 0).length :=
    length_leavesOf s.freq
  refine ⟨writeNodes s.node (treeOf s.freq).nodes, (treeOf s.freq).nleaf, Fin.ofNat 513 (treeOf s.freq).root, ?_, hnleaf,
    ?_, hlen, fun i => ⟨fun hi => writeNodes_new _ _ i (by omega), fun hi => writeNodes_old _ _ i (by omega)⟩⟩
  · rw [← hlen]
    exact exec_build_legal hpace hf
  · rw [← hroot]
    exact Nat.mod_eq_of_lt (by omega)

end Sys2Proof.Machine
end

section
/-! PROOF. CODE_RD (43_codes.md R253; 60_exceptions.md R314): the statement CodeRdReadsEntry (O38). -/
namespace Sys2Proof.Machine

/-- The valid bit stands above the length field, so the two add up (R253). -/
theorem codeHead_eq {p : Code} (h : p.length ≤ 256) : codeHead p = BitVec.ofNat 32 (2 ^ 31 + p.length) := by
  have hword : 2 ^ 31 + p.length = 2 ^ 31 ||| p.length := Nat.two_pow_add_eq_or_of_lt (i := 31) (by omega) 1
  rw [codeHead, hword, BitVec.ofNat_or]
  rfl

/-- A bit of an OR over a list is set when it is set in some item. -/
theorem getLsbD_foldl_or (f : Nat → Word) (js : List Nat) (acc : Word) (k : Nat) :
    (js.foldl (fun acc j => acc ||| f j) acc).getLsbD k = (acc.getLsbD k || js.any fun j => (f j).getLsbD k) := by
  induction js generalizing acc with
  | nil => simp
  | cons j js ih => rw [List.foldl_cons, ih, BitVec.getLsbD_or, List.any_cons, Bool.or_assoc]

/-- Bit 31 - j of word w is code bit 32w + j: no other code bit is put there (R253). -/
theorem getLsbD_codeWord (p : Code) (w : Nat) {j : Nat} (hj : j < 32) :
    (codeWord p w).getLsbD (31 - j) = p.getD (32 * w + j) false := by
  have hplace (b : Bool) {i : Nat} (hi : i < 32) : (bitAt b (31 - i)).getLsbD (31 - j) = (decide (i = j) && b) := by
    rw [getLsbD_bitAt, decide_eq_decide.mpr (by omega : 31 - j = 31 - i ∧ 31 - j < 32 ↔ i = j)]
  have hzero : (0 : Word).getLsbD (31 - j) = false := BitVec.getLsbD_zero
  rw [codeWord, getLsbD_foldl_or, hzero, Bool.false_or, Bool.eq_iff_iff, List.any_eq_true]
  constructor
  · rintro ⟨i, hi, hbit⟩
    rw [hplace _ (List.mem_range.mp hi), Bool.and_eq_true, decide_eq_true_iff] at hbit
    exact hbit.1 ▸ hbit.2
  · intro hbit
    exact ⟨j, List.mem_range.mpr hj, by rw [hplace _ hj, hbit, decide_eq_true rfl, Bool.and_self]⟩

section CodeRd

variable {s : State} {idx : BitVec 10} {sel : BitVec 4}

theorem startCodeRd_noCodes (h : s.codesValid = false) : startCodeRd idx sel s = s.raise .noCodes 0 false :=
  if_neg (by simp [h])

theorem startCodeRd_range (h : s.codesValid = true) (hidx : 256 < idx.toNat) :
    startCodeRd idx sel s = s.raise .range (BitVec.ofNat 32 idx.toNat) false := by
  rw [startCodeRd, if_pos h, symbolOf_eq_none.mpr hidx, BitVec.ofNat_toNat]

theorem startCodeRd_entry {k : Symbol} (h : s.codesValid = true) (hk : k.val = idx.toNat) :
    startCodeRd idx sel s = { s with result := codeResult s.code[k] sel }.succeed [] := by
  rw [startCodeRd, if_pos h, symbolOf_eq_some.mpr hk]

theorem start_codeRd (h : sel.toNat ≤ 8) : start (.codeRd idx sel) s = startCodeRd idx sel s := if_pos h

end CodeRd

/-- Settles O38: R314's order is the order of the tests; the entry's word is its head or one of its eight code words. -/
theorem codeRdReadsEntry : Obligations.CodeRdReadsEntry := by
  unfold Obligations.CodeRdReadsEntry
  intro s idx sel hpace
  refine ⟨fun hsel => exec_of_start_raise hpace (if_neg (by omega)) rfl,
    fun hsel hcodes => exec_of_start_raise hpace ((start_codeRd hsel).trans (startCodeRd_noCodes hcodes)) rfl,
    fun hsel hcodes hidx => exec_of_start_raise hpace ((start_codeRd hsel).trans (startCodeRd_range hcodes hidx)) rfl,
    fun hsel hcodes k hk =>
      ⟨codeResult s.code[k] sel, ?_, fun hnone => ?_, fun p hp hlen => ⟨fun h0 => ?_, fun h0 => ?_⟩⟩⟩
  · exact exec_of_start_succeed (u := { s with result := codeResult s.code[k] sel }) hpace
      ((start_codeRd hsel).trans (startCodeRd_entry hcodes hk))
  · rw [hnone, codeResult]
  · rw [hp, codeResult, if_pos h0, codeHead_eq hlen]
  · rw [hp, codeResult, if_neg h0]
    exact fun j hj => getLsbD_codeWord p _ hj

end Sys2Proof.Machine
end

section
/-! PROOF. The codes (43_codes.md R250, R251, R254, R255, R257): the statements GencodesRecordsPaths (O35), CodesPrefixFree
(O36) and CodesComplete (O37).

GENCODES' walk records the paths it finds and no others, whatever NODE holds (`walkCodes_eq_some`, `walkCodes_ne_none`). On
BUILD's tree a child's index is less than its parent's and a node below NLEAF is a leaf, so a path from node i has at most
i + 1 - NLEAF steps and the walk is deep enough (`TreeOk.follow_le`); and each node but the root has one parent, so exactly
one path from the root leads to it (`TreeOk.follow_inj`, `TreeOk.exists_follow`). -/
namespace Sys2Proof.Machine

/-! Paths (R250). -/

/-- The path p leads from node i to a leaf of sym (R250). -/
def LeadsTo (node : NodeTable) (i : NodeIdx) (p : Code) (sym : Symbol) : Prop :=
  ∃ j c, follow node i p = some j ∧ node[j] = .leaf sym c

section Paths

variable {node : NodeTable} {i j : NodeIdx} {p q : Code} {b : Bool} {sym : Symbol}

/-- A step goes through an internal node, to the child its bit selects. -/
theorem follow_cons_eq_some : follow node i (b :: p) = some j ↔
    ∃ c l r, node[i] = .internal c l r ∧ follow node (if b then r else l) p = some j := by
  rw [follow]
  cases node[i] with
  | leaf sym c => simp
  | internal c l r => simp

theorem follow_append (node : NodeTable) (i : NodeIdx) (p q : Code) :
    follow node i (p ++ q) = (follow node i p).bind fun j => follow node j q := by
  induction p generalizing i with
  | nil => rfl
  | cons b p ih =>
    rw [List.cons_append, follow, follow]
    cases node[i] with
    | leaf sym c => rfl
    | internal c l r => exact ih _

/-- The last step of a path. -/
theorem follow_concat_eq_some : follow node i (p ++ [b]) = some j ↔
    ∃ k c l r, follow node i p = some k ∧ node[k] = .internal c l r ∧ (if b then r else l) = j := by
  have hstep (k : NodeIdx) : follow node k [b] = some j ↔
      ∃ c l r, node[k] = .internal c l r ∧ (if b then r else l) = j :=
    follow_cons_eq_some.trans (by simp only [follow, Option.some.injEq])
  simp only [follow_append, Option.bind_eq_some_iff, hstep, exists_and_left]

/-- No step leaves a leaf. -/
theorem eq_nil_of_follow_leaf {c : Word} (hleaf : node[i] = .leaf sym c) (h : follow node i p = some j) : p = [] := by
  cases p with
  | nil => rfl
  | cons b p =>
    obtain ⟨c', l, r, hi, -⟩ := follow_cons_eq_some.mp h
    exact absurd (hleaf.symm.trans hi) nofun

theorem leadsTo_nil : LeadsTo node i [] sym ↔ ∃ c, node[i] = .leaf sym c := by
  simp [LeadsTo, follow]

theorem leadsTo_cons : LeadsTo node i (b :: p) sym ↔
    ∃ c l r, node[i] = .internal c l r ∧ LeadsTo node (if b then r else l) p sym := by
  simp only [LeadsTo, follow_cons_eq_some]
  tauto

/-- A path to a leaf begins no path to another: no step leaves the leaf (R255). -/
theorem LeadsTo.eq_of_prefix {a : Symbol} (ha : LeadsTo node i p a) (hb : LeadsTo node i q sym) (hpq : p <+: q) :
    a = sym := by
  obtain ⟨j, c, hj, hleaf⟩ := ha
  obtain ⟨k, c', hk, hleaf'⟩ := hb
  obtain ⟨tail, rfl⟩ := hpq
  rw [follow_append, hj, Option.bind_some] at hk
  obtain rfl := eq_nil_of_follow_leaf hleaf hk
  obtain rfl : j = k := Option.some.inj hk
  exact (Node.leaf.inj (hleaf.symm.trans hleaf')).1

end Paths

/-! GENCODES' walk (R251). -/

section Walk

variable {node : NodeTable} {sym : Symbol}

theorem walkCodes_leaf {i : NodeIdx} {a : Symbol} {c : Word} (d : Nat) (p : Code) (t : CodeTable)
    (h : node[i] = .leaf a c) : walkCodes node (d + 1) i p t = t.set a (some p) := by
  rw [walkCodes, h]

theorem walkCodes_internal {i l r : NodeIdx} {c : Word} (d : Nat) (p : Code) (t : CodeTable)
    (h : node[i] = .internal c l r) : walkCodes node (d + 1) i p t =
      walkCodes node d r (p ++ [true]) (walkCodes node d l (p ++ [false]) t) := by
  rw [walkCodes, h]

/-- An entry after a symbol's code is recorded. -/
theorem set_get (t : CodeTable) (a k : Symbol) (e : Option Code) : (t.set a e)[k] = if a = k then e else t[k] := by
  simp [Vector.getElem_set, Fin.ext_iff]

/-- What the walk records is the path to a leaf of the symbol. -/
theorem walkCodes_eq_some {d : Nat} {i : NodeIdx} {p q : Code} {t : CodeTable}
    (h : (walkCodes node d i p t)[sym] = some q) : t[sym] = some q ∨ ∃ p', q = p ++ p' ∧ LeadsTo node i p' sym := by
  induction d generalizing i p t with
  | zero => exact .inl h
  | succ d ih =>
    cases hi : node[i] with
    | leaf a c =>
      rw [walkCodes_leaf d p t hi, set_get] at h
      split at h
      next ha =>
        obtain rfl := ha
        exact .inr ⟨[], by simpa using h.symm, leadsTo_nil.mpr ⟨c, hi⟩⟩
      next => exact .inl h
    | internal c l r =>
      have hstep (b : Bool) (p' : Code) (h : LeadsTo node (if b then r else l) p' sym) :
          ∃ p'', p ++ [b] ++ p' = p ++ p'' ∧ LeadsTo node i p'' sym :=
        ⟨b :: p', by simp, leadsTo_cons.mpr ⟨c, l, r, hi, h⟩⟩
      rw [walkCodes_internal d p t hi] at h
      rcases ih h with h | ⟨p', rfl, hright⟩
      · exact (ih h).imp_right fun ⟨p', hq, h⟩ => hq ▸ hstep false p' h
      · exact .inr (hstep true p' hright)

/-- No entry becomes ABSENT, and a symbol with a leaf within the walk's depth gets an entry. -/
theorem walkCodes_ne_none {d : Nat} {i : NodeIdx} {p : Code} {t : CodeTable}
    (h : t[sym] ≠ none ∨ ∃ p', p'.length < d ∧ LeadsTo node i p' sym) : (walkCodes node d i p t)[sym] ≠ none := by
  induction d generalizing i p t with
  | zero => simpa [walkCodes] using h
  | succ d ih =>
    cases hi : node[i] with
    | leaf a c =>
      rw [walkCodes_leaf d p t hi, set_get]
      split
      · exact Option.some_ne_none p
      next ha =>
        refine h.resolve_right ?_
        rintro ⟨p', -, j, c', hfollow, hleaf⟩
        obtain rfl := eq_nil_of_follow_leaf hi hfollow
        obtain rfl : i = j := Option.some.inj hfollow
        exact ha (Node.leaf.inj (hi.symm.trans hleaf)).1
    | internal c l r =>
      rw [walkCodes_internal d p t hi]
      rcases h with h | ⟨p', hlen, h⟩
      · exact ih (.inl (ih (.inl h)))
      cases p' with
      | nil =>
        obtain ⟨c', hleaf⟩ := leadsTo_nil.mp h
        exact absurd (hi.symm.trans hleaf) nofun
      | cons b p' =>
        obtain ⟨c', l', r', hi', h⟩ := leadsTo_cons.mp h
        obtain ⟨-, rfl, rfl⟩ := Node.internal.inj (hi.symm.trans hi')
        have hlen' : p'.length < d := Nat.lt_of_succ_lt_succ hlen
        cases b with
        | false => exact ih (.inl (ih (.inr ⟨p', hlen', h⟩)))
        | true => exact ih (.inr ⟨p', hlen', h⟩)

end Walk

/-! The leaves. -/

/-- A leaf is that of a symbol with a nonzero count, and holds it (R222). -/
theorem mem_leavesOf {f : FreqTable} {z : Node} : z ∈ leavesOf f ↔ ∃ k : Symbol, f[k] ≠ 0 ∧ z = .leaf k f[k] := by
  rw [leavesOf_eq, List.mem_map]
  simp only [List.mem_filter, List.mem_finRange, true_and, decide_eq_true_eq, eq_comm (a := z)]

theorem nodup_leavesOf (f : FreqTable) : (leavesOf f).Nodup := by
  rw [leavesOf_eq]
  exact ((List.nodup_finRange 257).filter _).map fun a b hab => (Node.leaf.inj hab).1

/-! BUILD's tree in NODE (R225, R226, R229). -/

/-- NLEAF is the number of leaves: there is room for it in the register (R226). -/
theorem State.TreeOk.nleaf_val {s : State} (ht : s.TreeOk) : s.nleaf.toNat = (leavesOf s.freq).length := by
  have hnleaf : (treeOf s.freq).nleaf = (leavesOf s.freq).length := rfl
  have hle := length_leavesOf_le s.freq
  obtain ⟨-, -, hval, -, -⟩ := ht
  rw [hval, BitVec.toNat_ofNat, hnleaf]
  exact Nat.mod_eq_of_lt (by omega)

section Tree

variable {s : State} {i j : NodeIdx} {p q : Code} {sym : Symbol} (ht : s.TreeOk) (hf : LegalTable s.freq)
include ht hf

theorem State.TreeOk.root_val : s.root.val = 2 * (leavesOf s.freq).length - 2 := by
  obtain ⟨-, hle, -, hroot, -⟩ := treeShape s.freq hf
  obtain ⟨-, -, -, -, hval⟩ := ht
  rw [hval, hroot]
  exact Nat.mod_eq_of_lt (by omega)

/-- Up to the root, NODE holds the nodes that BUILD's merges made, the root the last. -/
theorem State.TreeOk.merges : ∃ x, Merges s.freq (treeOf s.freq).nodes [x] ∧
    (treeOf s.freq).nodes.length = s.root.val + 1 ∧
    ∀ i : NodeIdx, i.val ≤ s.root.val → (treeOf s.freq).nodes[i.val]? = some s.node[i] := by
  obtain ⟨x, hmade, -⟩ := treeOf_merges hf
  have hpos := length_leavesOf_pos hf
  have hlen : (treeOf s.freq).nodes.length = s.root.val + 1 := by
    rw [hmade.length_nodes, ht.root_val hf]
    omega
  obtain ⟨-, hnode, -⟩ := ht
  exact ⟨x, hmade, hlen, fun i hi => hnode i (by omega)⟩

/-- Below NLEAF stand the leaves, in order. -/
theorem State.TreeOk.node_leaf (hi : i.val < (leavesOf s.freq).length) : (leavesOf s.freq)[i.val]? = some s.node[i] := by
  obtain ⟨x, hmade, hlen, hnode⟩ := ht.merges hf
  have hle := hmade.leaves_prefix.length_le
  rw [← hnode i (by omega)]
  exact (List.prefix_iff_getElem?.mp hmade.leaves_prefix _ hi ▸ List.getElem?_eq_getElem hi)

/-- From NLEAF to the root stand internal nodes, each behind its two children. -/
theorem State.TreeOk.node_internal (hi : i.val ≤ s.root.val) (hge : (leavesOf s.freq).length ≤ i.val) :
    ∃ c l r, s.node[i] = .internal c l r ∧ l.val < i.val ∧ r.val < i.val ∧ l ≠ r := by
  obtain ⟨x, hmade, hlen, hnode⟩ := ht.merges hf
  obtain ⟨c, l, r, y, z, h⟩ := hmade.joins hf hge (by omega)
  exact ⟨c, l, r, Option.some.inj ((hnode i hi).symm.trans h.node), h.left_lt, h.right_lt, h.ne⟩

/-- What is known of an internal node, from the node. -/
theorem State.TreeOk.internal_children {c : Word} {l r : NodeIdx} (hi : i.val ≤ s.root.val)
    (h : s.node[i] = .internal c l r) :
    (leavesOf s.freq).length ≤ i.val ∧ l ≠ r ∧ ∀ b : Bool, (if b then r else l).val < i.val := by
  have hge : (leavesOf s.freq).length ≤ i.val := by
    by_contra hlt
    exact leavesOf_not_internal ((ht.node_leaf hf (by omega)).trans (congrArg some h))
  obtain ⟨c', l', r', h', hl, hr, hne⟩ := ht.node_internal hf hi hge
  obtain ⟨-, rfl, rfl⟩ := Node.internal.inj (h.symm.trans h')
  refine ⟨hge, hne, fun b => ?_⟩
  cases b
  · exact hl
  · exact hr

/-- What is known of a leaf, from the node: it is one of the first, and holds its symbol's count (R222). -/
theorem State.TreeOk.freq_of_leaf {c : Word} (hi : i.val ≤ s.root.val) (h : s.node[i] = .leaf sym c) :
    i.val < (leavesOf s.freq).length ∧ s.node[i] = .leaf sym s.freq[sym] ∧ s.freq[sym] ≠ 0 := by
  have hlt : i.val < (leavesOf s.freq).length := by
    by_contra hge
    obtain ⟨c', l, r, h', -⟩ := ht.node_internal hf hi (by omega)
    exact absurd (h.symm.trans h') nofun
  obtain ⟨k, hk, hnode⟩ := mem_leavesOf.mp (List.mem_of_getElem? (ht.node_leaf hf hlt))
  obtain ⟨rfl, -⟩ := Node.leaf.inj (h.symm.trans hnode)
  exact ⟨hlt, hnode, hk⟩

/-- A symbol has no two leaves (R222). -/
theorem State.TreeOk.leaf_inj {c c' : Word} (hi : i.val ≤ s.root.val) (hj : j.val ≤ s.root.val)
    (h : s.node[i] = .leaf sym c) (h' : s.node[j] = .leaf sym c') : i = j := by
  obtain ⟨hlti, hi, -⟩ := ht.freq_of_leaf hf hi h
  obtain ⟨hltj, hj, -⟩ := ht.freq_of_leaf hf hj h'
  refine Fin.ext ((List.getElem?_inj hlti (nodup_leavesOf s.freq)).mp ?_)
  rw [ht.node_leaf hf hlti, ht.node_leaf hf hltj, hi, hj]

/-- A symbol with a nonzero count has a leaf (R222). -/
theorem State.TreeOk.exists_leaf (h : s.freq[sym] ≠ 0) :
    ∃ i : NodeIdx, i.val ≤ s.root.val ∧ ∃ c, s.node[i] = .leaf sym c := by
  obtain ⟨k, hk⟩ := List.mem_iff_getElem?.mp (mem_leavesOf.mpr ⟨sym, h, rfl⟩)
  have hlt := (List.getElem?_eq_some_iff.mp hk).1
  have hroot := ht.root_val hf
  have hle := length_leavesOf_le s.freq
  have hnode := ht.node_leaf hf (i := ⟨k, by omega⟩) hlt
  exact ⟨⟨k, by omega⟩, by simp only; omega, _, Option.some.inj (hnode.symm.trans hk)⟩

/-! The paths of the tree (R229, R254). -/

/-- Every step goes to a lesser index, and each from an internal node of its own (R254). -/
theorem State.TreeOk.follow_le (hi : i.val ≤ s.root.val) (h : follow s.node i p = some j) :
    j.val + p.length ≤ i.val ∧ p.length ≤ i.val + 1 - (leavesOf s.freq).length := by
  induction p generalizing i with
  | nil =>
    obtain rfl : i = j := Option.some.inj h
    exact ⟨le_rfl, Nat.zero_le _⟩
  | cons b p ih =>
    obtain ⟨c, l, r, hnode, h⟩ := follow_cons_eq_some.mp h
    obtain ⟨hge, -, hlt⟩ := ht.internal_children hf hi hnode
    have hlt := hlt b
    obtain ⟨hindex, hlen⟩ := ih (by omega) h
    rw [List.length_cons]
    omega

theorem State.TreeOk.le_root_of_follow (h : follow s.node s.root p = some j) : j.val ≤ s.root.val :=
  le_trans (Nat.le_add_right ..) (ht.follow_le hf le_rfl h).1

/-- Only the empty path leads back to the root. -/
theorem State.TreeOk.eq_nil_of_follow_root (h : follow s.node s.root p = some s.root) : p = [] :=
  List.eq_nil_of_length_eq_zero (by
    have := (ht.follow_le hf le_rfl h).1
    omega)

/-- Long enough bits lead to a leaf: every internal node has both children (R257). -/
theorem State.TreeOk.exists_prefix {bits : List Bool} (hi : i.val ≤ s.root.val)
    (hlen : i.val + 1 - (leavesOf s.freq).length ≤ bits.length) : ∃ p sym, p <+: bits ∧ LeadsTo s.node i p sym := by
  induction bits generalizing i with
  | nil =>
    rw [List.length_nil] at hlen
    obtain ⟨k, -, hnode⟩ := mem_leavesOf.mp (List.mem_of_getElem? (ht.node_leaf hf (i := i) (by omega)))
    exact ⟨[], k, List.nil_prefix, leadsTo_nil.mpr ⟨_, hnode⟩⟩
  | cons b bits ih =>
    cases hnode : s.node[i] with
    | leaf k c => exact ⟨[], k, List.nil_prefix, leadsTo_nil.mpr ⟨c, hnode⟩⟩
    | internal c l r =>
      obtain ⟨hge, -, hlt⟩ := ht.internal_children hf hi hnode
      have hlt := hlt b
      rw [List.length_cons] at hlen
      obtain ⟨p, k, hp, h⟩ := ih (i := if b then r else l) (by omega) (by omega)
      exact ⟨b :: p, k, List.cons_prefix_cons.mpr ⟨rfl, hp⟩, leadsTo_cons.mpr ⟨c, l, r, hnode, h⟩⟩

theorem State.TreeOk.isChild {c : Word} {l r : NodeIdx} (hi : i.val ≤ s.root.val) (h : s.node[i] = .internal c l r)
    (b : Bool) : IsChild (treeOf s.freq).nodes i.val (if b then r else l).val := by
  obtain ⟨x, -, -, hnode⟩ := ht.merges hf
  refine ⟨c, l, r, (hnode i hi).trans (congrArg some h), ?_⟩
  cases b
  · exact .inl rfl
  · exact .inr rfl

/-- The root leads to every node of the tree (R229). -/
theorem State.TreeOk.exists_follow (hj : j.val ≤ s.root.val) : ∃ p, follow s.node s.root p = some j := by
  obtain ⟨x, hmade, hlen, hnode⟩ := ht.merges hf
  induction hd : s.root.val - j.val using Nat.strongRecOn generalizing j with
  | ind d ih =>
    rcases hj.eq_or_lt with hj | hj
    · exact ⟨[], congrArg some (Fin.ext hj.symm)⟩
    · obtain ⟨i, hchild, -⟩ := hmade.existsUnique_parent (j := j.val) (by omega)
      have hlt := hmade.child_lt hchild
      obtain ⟨c, l, r, hi, hchild⟩ := hchild
      obtain ⟨p, hp⟩ := ih (s.root.val - i) (by omega) (j := ⟨i, by omega⟩) (by simp only; omega) rfl
      have hi := Option.some.inj ((hnode ⟨i, by omega⟩ (by simp only; omega)).symm.trans hi)
      rcases hchild with hl | hr
      · exact ⟨p ++ [false], follow_concat_eq_some.mpr ⟨_, c, l, r, hp, hi, Fin.ext hl⟩⟩
      · exact ⟨p ++ [true], follow_concat_eq_some.mpr ⟨_, c, l, r, hp, hi, Fin.ext hr⟩⟩

/-- The root leads to a node by one path: the node has one parent, and is one of its two children (R229). -/
theorem State.TreeOk.follow_inj (hp : follow s.node s.root p = some j) (hq : follow s.node s.root q = some j) :
    p = q := by
  obtain ⟨x, hmade, -⟩ := ht.merges hf
  induction p using List.reverseRecOn generalizing q j with
  | nil =>
    obtain rfl : s.root = j := Option.some.inj hp
    exact (ht.eq_nil_of_follow_root hf hq).symm
  | append_singleton p b ih =>
    cases q using List.reverseRecOn with
    | nil =>
      obtain rfl : s.root = j := Option.some.inj hq
      exact ht.eq_nil_of_follow_root hf hp
    | append_singleton q b' =>
      obtain ⟨i, c, l, r, hp, hi, hj⟩ := follow_concat_eq_some.mp hp
      obtain ⟨i', c', l', r', hq', hi', hj'⟩ := follow_concat_eq_some.mp hq
      have hile := ht.le_root_of_follow hf hp
      have hchild : IsChild _ i.val j.val := hj ▸ ht.isChild hf hile hi b
      have hchild' : IsChild _ i'.val j.val := hj' ▸ ht.isChild hf (ht.le_root_of_follow hf hq') hi' b'
      obtain rfl : i = i' := Fin.ext (hmade.parent_unique hchild hchild')
      obtain ⟨-, rfl, rfl⟩ := Node.internal.inj (hi.symm.trans hi')
      obtain ⟨-, hne, -⟩ := ht.internal_children hf hile hi
      obtain rfl : b = b' := by
        cases b <;> cases b'
        case false.false | true.true => rfl
        case false.true => exact absurd (hj.trans hj'.symm) hne
        case true.false => exact absurd (hj'.trans hj.symm) hne
      rw [ih hp hq']

/-! The codes of the tree. -/

theorem State.TreeOk.isCode_length (h : s.IsCode sym p) : p.length ≤ (leavesOf s.freq).length - 1 := by
  obtain ⟨i, c, hfollow, -⟩ := h
  have hlen := (ht.follow_le hf le_rfl hfollow).2
  have hpos := length_leavesOf_pos hf
  have hroot := ht.root_val hf
  omega

theorem State.TreeOk.isCode_unique (hp : s.IsCode sym p) (hq : s.IsCode sym q) : p = q := by
  obtain ⟨i, c, hi, hleaf⟩ := hp
  obtain ⟨j, c', hj, hleaf'⟩ := hq
  obtain rfl := ht.leaf_inj hf (ht.le_root_of_follow hf hi) (ht.le_root_of_follow hf hj) hleaf hleaf'
  exact ht.follow_inj hf hi hj

theorem State.TreeOk.exists_isCode : (∃ p, s.IsCode sym p) ↔ s.freq[sym] ≠ 0 := by
  constructor
  · rintro ⟨p, i, c, hi, hleaf⟩
    obtain ⟨-, -, hfreq⟩ := ht.freq_of_leaf hf (ht.le_root_of_follow hf hi) hleaf
    exact hfreq
  · intro h
    obtain ⟨i, hi, c, hleaf⟩ := ht.exists_leaf hf h
    obtain ⟨p, hp⟩ := ht.exists_follow hf hi
    exact ⟨p, i, c, hp, hleaf⟩

/-- GENCODES' table holds exactly the tree's codes (R250, R251). -/
theorem State.TreeOk.codesOf_eq_some : (codesOf s.node s.root)[sym] = some p ↔ s.IsCode sym p := by
  have hsound {q : Code} (h : (codesOf s.node s.root)[sym] = some q) : s.IsCode sym q := by
    rcases walkCodes_eq_some h with h | ⟨p', rfl, h⟩
    · simp at h
    · exact h
  refine ⟨hsound, fun h => ?_⟩
  have hlen := ht.isCode_length hf h
  have hle := length_leavesOf_le s.freq
  have hdeep : p.length < Config.maxCodeLen + 1 := by
    simp only [Config.maxCodeLen]
    omega
  obtain ⟨q, hq⟩ := Option.ne_none_iff_exists'.mp (walkCodes_ne_none (p := []) (t := Vector.replicate 257 none)
    (.inr ⟨p, hdeep, h⟩))
  exact ht.isCode_unique hf (hsound hq) h ▸ hq

theorem State.TreeOk.codesOf_eq_none : (codesOf s.node s.root)[sym] = none ↔ s.freq[sym] = 0 := by
  rw [Option.eq_none_iff_forall_ne_some, ← not_iff_not, not_forall, ← ne_eq (s.freq[sym]), ← ht.exists_isCode hf]
  simp only [not_not, ht.codesOf_eq_some hf]

end Tree

/-- Settles O35: the walk is deep enough, and each symbol has one path at most. -/
theorem gencodesRecordsPaths : Obligations.GencodesRecordsPaths := by
  unfold Obligations.GencodesRecordsPaths
  intro s hpace
  refine ⟨fun htree => exec_of_start_raise hpace (if_neg (by simp [htree])) rfl,
    fun htree => ⟨codesOf s.node s.root, ?_,
      fun hf ht => ⟨fun _ _ => ht.codesOf_eq_some hf, fun _ => ht.codesOf_eq_none hf⟩⟩⟩
  exact exec_of_start_succeed (u := { s with codesValid := true, code := codesOf s.node s.root }) hpace (if_pos htree)

/-- What CODES_VALID says of CODE, on BUILD's tree. -/
theorem State.CodesOk.eq_some {s : State} (hc : s.CodesOk) (ht : s.TreeOk) (hf : LegalTable s.freq) {sym : Symbol}
    {p : Code} : s.code[sym] = some p ↔ s.IsCode sym p := by
  rw [State.CodesOk] at hc
  rw [hc]
  exact ht.codesOf_eq_some hf

/-- Settles O36: no path to a leaf goes on (`LeadsTo.eq_of_prefix`), and none goes through an internal node twice. -/
theorem codesPrefixFree : Obligations.CodesPrefixFree := by
  unfold Obligations.CodesPrefixFree
  intro s hf ht hc
  simp only [hc.eq_some ht hf]
  refine ⟨fun a b p q hp hq => LeadsTo.eq_of_prefix hp hq, fun a p hp => ?_, (ht.exists_isCode hf).mpr ?_⟩
  · have hlen := ht.isCode_length hf hp
    have hle := length_leavesOf_le s.freq
    rw [ht.nleaf_val]
    omega
  · rw [show s.freq[(256 : Symbol)] = 1 from hf.1]
    decide

/-- Settles O37: a walk over the bits reaches a leaf, and of two codes at the start of the bits one begins the other. -/
theorem codesComplete : Obligations.CodesComplete := by
  unfold Obligations.CodesComplete
  intro s bits hf ht hc _ hbits
  simp only [hc.eq_some ht hf]
  have hle := length_leavesOf_le s.freq
  obtain ⟨p, a, hp, hcode⟩ := ht.exists_prefix hf le_rfl (bits := bits) (by rw [ht.root_val hf]; omega)
  refine ⟨a, ⟨p, hcode, hp⟩, ?_⟩
  rintro b ⟨q, hcode', hq⟩
  rcases List.prefix_or_prefix_of_prefix hp hq with hpq | hqp
  · exact (LeadsTo.eq_of_prefix hcode hcode' hpq).symm
  · exact LeadsTo.eq_of_prefix hcode' hcode hqp

end Sys2Proof.Machine
end

section
/-! PROOF. ENCODE (44_encode.md R270-R274; 60_exceptions.md R318): the statements EncodeWritesPayload (O39) and EncodeFails
(O40).

`State.encoding` is ENCODE at the head of its loop. A group with a code takes it to the head of its loop again
(`runOn_encoding_byte`), so the loop takes every group of a segment that has one (`exec_encode`). What it does at the end of
the segment, or at a group without a code, is one more turn. -/
namespace Sys2Proof.Machine

/-! A closed bit stream (R150-R157). -/

/-- What the writer emits when the bits are written to it and it is then closed. -/
def BitWriter.closed (bw : BitWriter) (bits : List Bool) : List OutToken :=
  (bw.writeAll bits).2 ++ (bw.writeAll bits).1.close.2

theorem length_writeAll (bw : BitWriter) (bits : List Bool) :
    (bw.writeAll bits).2.length = (bw.n.val + bits.length) / 8 := by
  obtain ⟨bs, hout, hlen, -, -⟩ := writeAll_spec bw bits
  rw [hout, ← hlen, bytesOut, List.length_map]

/-- The pending bits and the new ones, padded with 0 bits to whole bytes, then EOO. -/
theorem closed_spec {bw : BitWriter} (bits : List Bool) (hwf : bw.wf = true) :
    (bw.writeAll bits).1.close.1 = ⟨0, 0⟩ ∧ ∃ (out : List Byte) (pad : List Bool),
      bw.closed bits = bytesOut out ++ [.eoo] ∧ out.flatMap byteBits = bw.bits ++ bits ++ pad ∧ pad.length < 8 ∧
      (∀ b ∈ pad, b = false) ∧ out.length = (bw.n.val + bits.length + 7) / 8 := by
  obtain ⟨whole, hwhole, hwlen, hwbits, hn⟩ := writeAll_spec bw bits
  obtain ⟨hempty, last, pad, hlast, hlbits, hpad, hzero, hllen⟩ :=
    close_spec (bw.writeAll bits).1 (writeAll_wf bw bits hwf)
  refine ⟨hempty, whole ++ last, pad, ?_, ?_, hpad, hzero, ?_⟩
  · simp [BitWriter.closed, hwhole, hlast, bytesOut]
  · rw [List.flatMap_append, hlbits, ← List.append_assoc, hwbits]
  · rw [List.length_append]
    omega

theorem length_closed {bw : BitWriter} (bits : List Bool) (hwf : bw.wf = true) :
    (bw.closed bits).length = (bw.n.val + bits.length + 7) / 8 + 1 := by
  obtain ⟨-, out, -, hclosed, -, -, -, hlen⟩ := closed_spec bits hwf
  simp [hclosed, bytesOut, hlen]

theorem closed_append (bw : BitWriter) (p q : List Bool) :
    bw.closed (p ++ q) = (bw.writeAll p).2 ++ (bw.writeAll p).1.closed q := by
  simp only [BitWriter.closed, writeAll_append, List.append_assoc]

/-! The epilogue of ENCODE and DECODE (R318). -/

/-- A stream-phase error found inside a segment drains it, discards the pending bits and emits ABT. -/
theorem runOn_raise_abort {e : ErrCode} (bs : List Byte) (info : Word) {tok : InToken} (rest : List InToken) {s : State}
    (he : e.stream = true) (hs : s.segEnded = false) (hin : s.inPort = bytesIn bs ++ tok :: rest)
    (htok : tok.terminates = true) (hroom : s.outPort.length + 1 ≤ s.outDepth) :
    runOn (s.raise e info true) =
      { s with bw := ⟨0, 0⟩, br := ⟨0, 0⟩, inPort := rest, outPort := s.outPort ++ [OutToken.abt] }.failed e info := by
  have hraise : s.raise e info true = { s with pending := [], activity := .errDrain e info true } := by
    simp [State.raise, he, hs]
  rw [hraise, runOn_drain e info true bs tok rest { s with pending := [], activity := .errDrain e info true }
    rfl rfl htok hin, runOn_abandon]
  · rfl
  · exact fun _ => hroom

/-- A stream-phase error found at the segment's terminator discards the pending bits and emits ABT. -/
theorem runOn_raise_ended {e : ErrCode} (info : Word) {s : State} (he : e.stream = true) (hs : s.segEnded = true)
    (hroom : s.outPort.length + 1 ≤ s.outDepth) :
    runOn (s.raise e info true) =
      { s with bw := ⟨0, 0⟩, br := ⟨0, 0⟩, outPort := s.outPort ++ [OutToken.abt] }.failed e info := by
  rw [raise_of_segEnded info true he hs, runOn_abandon e info true s fun _ => hroom]
  rfl

/-! ENCODE's turn on a byte (R270). -/

theorem encodeToken_code {s : State} {b : Byte} {p : Code} (hp : s.code[byteSymbol (s.br.readGroup8 b).1] = some p) :
    encodeToken (.byte b) s = { s with
      br := (s.br.readGroup8 b).2, bw := (s.bw.writeAll p).1, bitCnt := s.bitCnt + BitVec.ofNat 64 p.length
      symCnt := s.symCnt + 1, pending := (s.bw.writeAll p).2, activity := .encode } := by
  simp only [encodeToken, hp]
  generalize s.br.readGroup8 b = g
  generalize s.bw.writeAll p = w
  rfl

theorem encodeToken_noCode {s : State} {b : Byte} (hp : s.code[byteSymbol (s.br.readGroup8 b).1] = none) :
    encodeToken (.byte b) s = { s with br := (s.br.readGroup8 b).2 }.raise .noCode
      ((s.br.readGroup8 b).1.setWidth 32) true := by
  simp only [encodeToken, hp]

/-- The end of ENCODE, EOS having a code. -/
theorem encodeEnd_eq {s : State} {p : Code} (hp : s.code[(256 : Symbol)] = some p) :
    encodeEnd s = { s with
      bw := (s.bw.writeAll p).1.close.1, bitCnt := s.bitCnt + BitVec.ofNat 64 p.length }.succeed (s.bw.closed p) := by
  have hp' : s.code[eosSymbol] = some p := hp
  rw [BitWriter.closed]
  simp only [encodeEnd, hp', Option.getD_some]
  rfl

/-- ENCODE at the head of its loop, started on s: the bytes `bs` are taken, the code bits `bits` are written, and `rest` is
left in the port. -/
def State.encoding (bs : List Byte) (bits : List Bool) (rest : List InToken) (s : State) : State :=
  { s with
    bitCnt := BitVec.ofNat 64 bits.length, symCnt := BitVec.ofNat 32 bs.length, bw := (s.bw.writeAll bits).1
    br := s.br.past bs, inPort := rest, outPort := s.outPort ++ (s.bw.writeAll bits).2, pending := []
    activity := .encode }

/-- ENCODE, started on s, has ended in error e after that much: the pending bits are discarded and ABT is emitted (R318). -/
def State.encodingFailed (bs : List Byte) (bits : List Bool) (rest : List InToken) (e : ErrCode) (info : Word) (s : State) :
    State :=
  { s with
    bitCnt := BitVec.ofNat 64 bits.length, symCnt := BitVec.ofNat 32 bs.length, bw := ⟨0, 0⟩, br := ⟨0, 0⟩
    inPort := rest, outPort := s.outPort ++ (s.bw.writeAll bits).2 ++ [OutToken.abt] }.failed e info

section Loop

variable {s : State} {bs : List Byte} {bits : List Bool} {rest : List InToken}

theorem startEncode_eq (h : s.codesValid = true) : startEncode s = s.encoding [] [] s.inPort := by
  simp [startEncode, h, State.encoding]

theorem State.encoding_code : (s.encoding bs bits rest).code = s.code := rfl

theorem State.encoding_br : (s.encoding bs bits rest).br = s.br.past bs := rfl

/-- The turn that takes a byte. -/
theorem coreMove_encoding_byte (b : Byte) :
    coreMove (s.encoding bs bits (.byte b :: rest)) = some (encodeToken (.byte b) (s.encoding bs bits rest)) := by
  rw [coreMove_token (s := s.encoding bs bits (.byte b :: rest)) rfl (.encode rfl) rfl]
  simp only [InToken.terminates, Bool.or_false]
  rfl

/-- The turn that takes a terminator. -/
theorem coreMove_encoding_end {tok : InToken} (htok : tok.terminates = true) :
    coreMove (s.encoding bs bits (tok :: rest)) =
      some (encodeToken tok ({ s with segEnded := true }.encoding bs bits rest)) := by
  rw [coreMove_token (s := s.encoding bs bits (tok :: rest)) rfl (.encode rfl) rfl, htok, Bool.or_true]
  rfl

/-- A group that has a code: the code is written, and what that completes is emitted. -/
theorem runOn_encoding_byte {b : Byte} {p : Code} (hp : s.code[byteSymbol ((s.br.past bs).readGroup8 b).1] = some p)
    (hroom : s.outPort.length + (s.bw.n.val + (bits ++ p).length) / 8 ≤ s.outDepth) :
    runOn (s.encoding bs bits (.byte b :: rest)) = runOn (s.encoding (bs ++ [b]) (bits ++ p) rest) := by
  have hlen := length_writeAll s.bw (bits ++ p)
  rw [writeAll_append, List.length_append] at hlen
  rw [runOn_move (coreMove_encoding_byte b),
    encodeToken_code (p := p) (by simpa only [State.encoding_br, State.encoding_code] using hp), runOn_emit _ _ rfl]
  · unfold State.encoding
    rw [past_concat, writeAll_append]
    simp [BitVec.ofNat_add]
  · simp only [State.encoding, List.length_append]
    omega

/-- The loop takes every group that has a code. -/
theorem runOn_encoding_bytes {ds : List Byte} {codes : List Code}
    (hcodes : ((s.br.past bs).made ds).map (fun g => s.code[byteSymbol g]) = codes.map some)
    (hroom : s.outPort.length + (s.bw.n.val + (bits ++ codes.flatten).length) / 8 ≤ s.outDepth) :
    runOn (s.encoding bs bits (bytesIn ds ++ rest)) = runOn (s.encoding (bs ++ ds) (bits ++ codes.flatten) rest) := by
  induction ds generalizing bs bits codes with
  | nil =>
    obtain rfl : codes = [] := by simpa using hcodes
    simp [bytesIn]
  | cons b ds ih =>
    cases codes with
    | nil => simp [made_cons] at hcodes
    | cons p codes =>
      rw [made_cons, ← past_concat, List.map_cons, List.map_cons, List.cons.injEq] at hcodes
      obtain ⟨hp, hcodes⟩ := hcodes
      rw [List.flatten_cons, ← List.append_assoc] at hroom ⊢
      rw [List.append_cons]
      refine (runOn_encoding_byte hp ?_).trans (ih hcodes hroom)
      rw [List.length_append] at hroom
      omega

/-- ENCODE takes the groups of a segment's beginning that have codes. -/
theorem exec_encode {codes : List Code} (hpace : s.pace = none) (hvalid : s.codesValid = true)
    (hin : s.inPort = bytesIn bs ++ rest)
    (hcodes : (groups (inputBits s.br bs)).map (fun g => s.code[byteSymbol g]) = codes.map some)
    (hroom : s.outPort.length + (s.bw.n.val + codes.flatten.length) / 8 ≤ s.outDepth) :
    exec .encode s = .next (runOn (s.encoding bs codes.flatten rest)) := by
  rw [groups_inputBits] at hcodes
  rw [exec_eq, start, startEncode_eq hvalid, launch_eager (s := s.encoding _ _ _) hpace, hin,
    runOn_encoding_bytes (bs := []) (bits := []) hcodes hroom]
  rfl

/-- The turn that finds EOI: the EOS code is written and the writer closed (R271). -/
theorem runOn_encoding_eoi {eos : Code} (hwf : s.bw.wf = true) (hwf' : s.br.wf = true)
    (heos : s.code[(256 : Symbol)] = some eos)
    (hroom : s.outPort.length + (s.bw.n.val + (bits ++ eos).length + 7) / 8 + 1 ≤ s.outDepth) :
    runOn (s.encoding bs bits (.eoi :: rest)) = { s.finished with
      bitCnt := BitVec.ofNat 64 (bits ++ eos).length, symCnt := BitVec.ofNat 32 bs.length, bw := ⟨0, 0⟩, br := ⟨0, 0⟩
      inPort := rest, outPort := s.outPort ++ s.bw.closed (bits ++ eos) } := by
  have hlen := length_closed (bits ++ eos) hwf
  rw [closed_append, List.length_append] at hlen
  have hbw : (⟨0, 0⟩ : BitWriter) = ((s.bw.writeAll bits).1.writeAll eos).1.close.1 := by
    rw [← (closed_spec (bits ++ eos) hwf).1, writeAll_append]
  have hbr : (⟨0, 0⟩ : BitReader) = (s.br.past bs).discarded := (discarded_eq_empty _ (past_wf s.br bs hwf')).symm
  rw [runOn_move (coreMove_encoding_end rfl), encodeToken, encodeEnd_eq (p := eos) (by exact heos), runOn_succeed]
  · rw [hbw, hbr, closed_append, List.length_append, BitVec.ofNat_add, ← List.append_assoc]
    rfl
  · simp only [State.encoding, List.length_append]
    omega

/-- The turn that finds IOERR: there is nothing to drain (R273, R318). -/
theorem runOn_encoding_ioerr (hroom : s.outPort.length + (s.bw.n.val + bits.length) / 8 + 1 ≤ s.outDepth) :
    runOn (s.encoding bs bits (.ioerr :: rest)) = s.encodingFailed bs bits rest .io 0 := by
  have hlen := length_writeAll s.bw bits
  rw [runOn_move (coreMove_encoding_end rfl), encodeToken, runOn_raise_ended 0 rfl rfl]
  · rfl
  · simp only [State.encoding, List.length_append]
    omega

/-- The turn that finds a group without a code: the rest of the segment is drained (R274, R318). -/
theorem runOn_encoding_noCode {b : Byte} {tail : List Byte} {tok : InToken} (hs : s.segEnded = false)
    (htok : tok.terminates = true) (hp : s.code[byteSymbol ((s.br.past bs).readGroup8 b).1] = none)
    (hroom : s.outPort.length + (s.bw.n.val + bits.length) / 8 + 1 ≤ s.outDepth) :
    runOn (s.encoding bs bits (.byte b :: (bytesIn tail ++ tok :: rest))) =
      s.encodingFailed bs bits rest .noCode (((s.br.past bs).readGroup8 b).1.setWidth 32) := by
  have hlen := length_writeAll s.bw bits
  rw [runOn_move (coreMove_encoding_byte b),
    encodeToken_noCode (by simpa only [State.encoding_br, State.encoding_code] using hp), State.encoding_br]
  generalize (s.br.past bs).readGroup8 b = g
  rw [runOn_raise_abort tail _ rest rfl (by exact hs) rfl htok]
  · rfl
  · simp only [State.encoding, List.length_append]
    omega

end Loop

/-- Settles O39: every group has a code, so the loop takes the segment, and its end writes the EOS code. -/
theorem encodeWritesPayload : Obligations.EncodeWritesPayload := by
  unfold Obligations.EncodeWritesPayload
  intro s bs rest codes eos hpace hvalid hwf hwf' hin hcodes heos hroom
  rw [Nat.add_assoc s.bw.n.val, ← List.length_append] at hroom
  obtain ⟨-, out, pad, hclosed, hbits, hpad, hzero, -⟩ := closed_spec (codes.flatten ++ eos) hwf
  refine ⟨out, pad, ?_, by rw [hbits, ← List.append_assoc s.bw.bits], hpad, hzero⟩
  rw [exec_encode hpace hvalid hin hcodes, runOn_encoding_eoi hwf hwf' heos hroom, hclosed, List.length_append,
    List.append_assoc]
  rw [List.length_append] at hroom
  omega

/-- Settles O40: the groups before the failing turn have codes, so the loop takes them; IOERR and a group without a code
are each one more turn. -/
theorem encodeFails : Obligations.EncodeFails := by
  unfold Obligations.EncodeFails
  intro s bs codes tail e rest hpace hvalid _ _ hs hin he hcodes hroom bad
  obtain ⟨out, hout, -, hbits, -⟩ := writeAll_spec s.bw codes.flatten
  have hloop := exec_encode (rest := bytesIn tail ++ e :: rest) hpace hvalid (by simpa using hin) hcodes (by omega)
  have hbad {code : ErrCode} {info : Word} (h : runOn (s.encoding bs codes.flatten (bytesIn tail ++ e :: rest)) =
      s.encodingFailed bs codes.flatten rest code info) : bad code info :=
    ⟨out, (s.bw.writeAll codes.flatten).1.bits, by rw [hloop, h, State.encodingFailed, hout], hbits, by simp⟩
  refine ⟨?_, fun g hg hcode => ?_⟩
  · rintro rfl rfl
    exact hbad (runOn_encoding_ioerr hroom)
  · rw [groups_inputBits, made_append, List.getElem?_append_right (by simp), length_made, Nat.sub_self] at hg
    cases tail with
    | nil => simp at hg
    | cons b tail =>
      rw [made_cons, List.getElem?_cons_zero, Option.some.injEq] at hg
      subst hg
      exact hbad (runOn_encoding_noCode hs (terminates_of_eq he) hcode hroom)

end Sys2Proof.Machine
end

section
/-! SUPPORT. DECODE over a segment that holds the codes of bytes and the EOS code (45_decode.md R290, R291, R294, R297).

`State.DecodesFrom` says where DECODE's loop stands by the bits still at hand, whichever of them the reader already holds. A
bit goes to a child, so a path is walked (`DecodesFrom.path`); a byte's leaf goes back to ROOT, so the codes of bytes are
decoded (`DecodesFrom.codes`); the EOS leaf drains the segment and closes the writer (`DecodesFrom.eos`). -/
namespace Sys2Proof.Machine

/-! DECODE's turns that need no token: a leaf, or a bit that is left (R290, R291). -/

theorem coreMove_decode {s : State} {cur : NodeIdx} (hp : s.pending = []) (ha : s.activity = .decode cur) :
    coreMove s = decodeMove cur s := by
  simp only [coreMove, hp, ha]

theorem coreMove_decode_leaf {s : State} {cur : NodeIdx} {sym : Symbol} {c : Word} (hp : s.pending = [])
    (ha : s.activity = .decode cur) (hnode : s.node[cur] = .leaf sym c) : coreMove s = some (decodeLeaf sym s) := by
  simp only [coreMove_decode hp ha, decodeMove, hnode]

theorem coreMove_decode_bit {s : State} {cur l r : NodeIdx} {c : Word} (hp : s.pending = [])
    (ha : s.activity = .decode cur) (hnode : s.node[cur] = .internal c l r) (hn : s.br.n.val ≠ 0) :
    coreMove s = some (decodeBit l r (s.br.readBit 0) s) := by
  simp only [coreMove_decode hp ha, decodeMove, hnode, if_neg hn]

/-- A byte's leaf writes the byte (R291, R297). -/
theorem decodeLeaf_byte (y : Byte) (s : State) : decodeLeaf (byteSymbol y) s = { s with
    bw := (s.bw.writeAll (byteBits y)).1, symCnt := s.symCnt + 1, pending := (s.bw.writeAll (byteBits y)).2
    activity := .decode s.root } := by
  have hne : byteSymbol y ≠ eosSymbol := fun h => absurd y.isLt (by simp [show y.toNat = 256 from congrArg Fin.val h])
  have hbyte : BitVec.ofNat 8 (byteSymbol y).val = y := by simp [byteSymbol]
  simp only [decodeLeaf, if_neg hne, hbyte]
  unfold byteBits
  generalize s.bw.writeAll (lowBits y 8) = w
  rfl

/-- The EOS leaf drops the padding bits and goes to the drain (R294). -/
theorem decodeLeaf_eos (s : State) : decodeLeaf 256 s = { s with br := BitReader.empty, activity := .decodeEnd } :=
  if_pos rfl

/-! The drain behind the EOS code (R294). -/

/-- The drain discards the bytes unchecked. -/
theorem runOn_decodeEnd_bytes (bs : List Byte) (rest : List InToken) (s : State) (hp : s.pending = [])
    (ha : s.activity = .decodeEnd) (hin : s.inPort = bytesIn bs ++ rest) : runOn s = runOn { s with inPort := rest } := by
  induction bs generalizing s with
  | nil => rw [show rest = s.inPort from hin.symm]
  | cons b bs ih =>
    have hmove := runOn_move (coreMove_token hp (.decodeEnd ha) hin)
    simp only [InToken.terminates, Bool.or_false] at hmove
    exact hmove.trans (ih _ hp ha rfl)

/-- EOI ends it, and the writer is closed (R294, R296). -/
theorem runOn_decodeEnd_eoi {s : State} {rest : List InToken} (hp : s.pending = []) (ha : s.activity = .decodeEnd)
    (hin : s.inPort = .eoi :: rest) (hroom : s.outPort.length + s.bw.close.2.length ≤ s.outDepth) :
    runOn s = { s.finished with bw := s.bw.close.1, inPort := rest, outPort := s.outPort ++ s.bw.close.2 } := by
  have hturn (u : State) : decodeEndToken .eoi u = { u with bw := u.bw.close.1 }.succeed u.bw.close.2 := rfl
  rw [runOn_move (coreMove_token hp (.decodeEnd ha) hin), hturn, runOn_succeed]
  · rfl
  · exact hroom

/-! DECODE's loop. -/

/-- DECODE at the head of its loop, started on s: the walk stands at node `cur`, `n` bits are read, the bytes `ys` are
written, the reader is `br`, and `port` is left in the port. -/
def State.decoding (cur : NodeIdx) (n : Nat) (ys : List Byte) (br : BitReader) (port : List InToken) (s : State) : State :=
  { s with
    bitCnt := BitVec.ofNat 64 n, symCnt := BitVec.ofNat 32 ys.length, bw := (s.bw.writeAll (ys.flatMap byteBits)).1
    br := br, inPort := port, outPort := s.outPort ++ (s.bw.writeAll (ys.flatMap byteBits)).2, pending := []
    activity := .decode cur }

/-- From t the core runs on as from the head of DECODE's loop, started on s, at node `cur`: `n` bits are read and the bytes
`ys` written, the segment has the bits `bits` left, and `rest` stands behind its bytes. -/
def State.DecodesFrom (s t : State) (rest : List InToken) (cur : NodeIdx) (n : Nat) (ys : List Byte) (bits : List Bool) :
    Prop :=
  ∃ (br : BitReader) (bs : List Byte), inputBits br bs = bits ∧
    runOn t = runOn (s.decoding cur n ys br (bytesIn bs ++ rest))

section Loop

variable {s t : State} {rest : List InToken} {cur : NodeIdx} {n : Nat} {ys : List Byte} {bits : List Bool}

theorem State.decodesFrom_start {bs : List Byte} (htree : s.treeValid = true) (hin : s.inPort = bytesIn bs ++ rest) :
    s.DecodesFrom (startDecode s) rest s.root 0 [] (inputBits s.br bs) := by
  refine ⟨s.br, bs, rfl, ?_⟩
  rw [← hin]
  simp [startDecode, htree, State.decoding]

theorem decodeBit_decoding (l r : NodeIdx) (got : Bool × BitReader) (br : BitReader) (port : List InToken) :
    decodeBit l r got (s.decoding cur n ys br port) =
      s.decoding (if got.1 then r else l) (n + 1) ys got.2 port := by
  simp [decodeBit, State.decoding, State.countBits, BitVec.ofNat_add]

theorem coreMove_decoding_leaf {sym : Symbol} {c : Word} (br : BitReader) (port : List InToken)
    (hnode : s.node[cur] = .leaf sym c) :
    coreMove (s.decoding cur n ys br port) = some (decodeLeaf sym (s.decoding cur n ys br port)) :=
  coreMove_decode_leaf (s := s.decoding cur n ys br port) rfl rfl hnode

theorem coreMove_decoding_bit {br : BitReader} {c : Word} {l r : NodeIdx} (port : List InToken)
    (hnode : s.node[cur] = .internal c l r) (hn : br.n.val ≠ 0) : coreMove (s.decoding cur n ys br port) =
      some (decodeBit l r (br.readBit 0) (s.decoding cur n ys br port)) :=
  coreMove_decode_bit (s := s.decoding cur n ys br port) rfl rfl hnode hn

/-- With no bit left, the turn takes a byte. -/
theorem coreMove_decoding_byte {br : BitReader} {c : Word} {l r : NodeIdx} (y : Byte) (port : List InToken)
    (hnode : s.node[cur] = .internal c l r) (hn : br.n.val = 0) :
    coreMove (s.decoding cur n ys br (.byte y :: port)) =
      some (decodeBit l r (br.readBit y) (s.decoding cur n ys br port)) := by
  rw [coreMove_token (s := s.decoding cur n ys br (.byte y :: port)) rfl (.decode cur c l r rfl hnode hn) rfl]
  simp only [InToken.terminates, Bool.or_false]
  rfl

/-- A bit goes to the child it selects, whether the reader holds it or takes a byte for it (R290, R155). -/
theorem State.DecodesFrom.bit {b : Bool} {c : Word} {l r : NodeIdx} (h : s.DecodesFrom t rest cur n ys (b :: bits))
    (hnode : s.node[cur] = .internal c l r) :
    s.DecodesFrom t rest (if b then r else l) (n + 1) ys bits := by
  obtain ⟨br, bs, hbits, hrun⟩ := h
  by_cases hn : br.n.val = 0
  · have hnil : br.bits = [] := List.eq_nil_of_length_eq_zero (by simp [hn])
    cases bs with
    | nil => simp [inputBits, hnil] at hbits
    | cons y bs =>
      obtain ⟨hfetch, -⟩ := readBit_fetch br y hn
      rw [inputBits, hnil, List.nil_append, List.flatMap_cons, hfetch, List.cons_append, List.cons.injEq] at hbits
      obtain ⟨rfl, hbits⟩ := hbits
      refine ⟨(br.readBit y).2, bs, hbits, ?_⟩
      rw [hrun, ← decodeBit_decoding l r (br.readBit y) br]
      exact runOn_move (coreMove_decoding_byte y _ hnode hn)
  · obtain ⟨hleft, -⟩ := readBit_left br 0 (by omega)
    rw [inputBits, hleft, List.cons_append, List.cons.injEq] at hbits
    obtain ⟨rfl, hbits⟩ := hbits
    refine ⟨(br.readBit 0).2, bs, hbits, ?_⟩
    rw [hrun, ← decodeBit_decoding l r (br.readBit 0) br]
    exact runOn_move (coreMove_decoding_bit _ hnode hn)

/-- The bits of a path are walked (R250, R290). -/
theorem State.DecodesFrom.path {p : Code} {j : NodeIdx} (h : s.DecodesFrom t rest cur n ys (p ++ bits))
    (hpath : follow s.node cur p = some j) : s.DecodesFrom t rest j (n + p.length) ys bits := by
  induction p generalizing cur n with
  | nil =>
    obtain rfl : cur = j := Option.some.inj hpath
    exact h
  | cons b p ih =>
    obtain ⟨c, l, r, hnode, hpath⟩ := follow_cons_eq_some.mp hpath
    rw [List.length_cons, Nat.add_comm p.length, ← Nat.add_assoc]
    exact ih (h.bit hnode) hpath

/-- A byte's leaf: the byte is written and emitted as far as it completes one, and the walk is back at ROOT (R297). -/
theorem State.DecodesFrom.leaf {y : Byte} {c : Word} (h : s.DecodesFrom t rest cur n ys bits)
    (hnode : s.node[cur] = .leaf (byteSymbol y) c)
    (hroom : s.outPort.length + (s.bw.n.val + 8 * (ys ++ [y]).length) / 8 ≤ s.outDepth) :
    s.DecodesFrom t rest s.root n (ys ++ [y]) bits := by
  obtain ⟨br, bs, hbits, hrun⟩ := h
  refine ⟨br, bs, hbits, ?_⟩
  have hcut : (ys ++ [y]).flatMap byteBits = ys.flatMap byteBits ++ byteBits y := by simp
  have hlen := length_writeAll s.bw ((ys ++ [y]).flatMap byteBits)
  rw [length_flatMap_byteBits, hcut, writeAll_append, List.length_append] at hlen
  rw [hrun, runOn_move (coreMove_decoding_leaf br _ hnode), decodeLeaf_byte, runOn_emit _ _ rfl]
  · unfold State.decoding
    rw [hcut, writeAll_append]
    simp [BitVec.ofNat_add]
  · rw [← hlen, ← Nat.add_assoc] at hroom
    simpa only [State.decoding, List.length_append] using hroom

/-- The codes of bytes are decoded to the bytes. -/
theorem State.DecodesFrom.codes {xs : List Byte} {codes : List Code}
    (h : s.DecodesFrom t rest s.root n ys (codes.flatten ++ bits))
    (hcodes : List.Forall₂ (fun x p => s.IsCode (byteSymbol x) p) xs codes)
    (hroom : s.outPort.length + (s.bw.n.val + 8 * (ys ++ xs).length) / 8 ≤ s.outDepth) :
    s.DecodesFrom t rest s.root (n + codes.flatten.length) (ys ++ xs) bits := by
  induction hcodes generalizing n ys with
  | nil => simpa using h
  | @cons x p xs codes hcode _ ih =>
    obtain ⟨j, c, hpath, hleaf⟩ := hcode
    rw [List.flatten_cons, List.append_assoc] at h
    rw [List.append_cons] at hroom ⊢
    rw [List.flatten_cons, List.length_append, ← Nat.add_assoc]
    refine ih ((h.path hpath).leaf hleaf ?_) hroom
    rw [List.length_append] at hroom
    omega

/-- The EOS leaf: the rest of the segment is discarded and the writer closed (R294, R296). -/
theorem State.DecodesFrom.eos {c : Word} (h : s.DecodesFrom t (.eoi :: rest) cur n ys bits)
    (hnode : s.node[cur] = .leaf 256 c) (hwf : s.bw.wf = true)
    (hroom : s.outPort.length + (s.bw.n.val + 8 * ys.length + 7) / 8 + 1 ≤ s.outDepth) :
    runOn t = { s.finished with
      bitCnt := BitVec.ofNat 64 n, symCnt := BitVec.ofNat 32 ys.length, bw := ⟨0, 0⟩, br := ⟨0, 0⟩, inPort := rest
      outPort := s.outPort ++ s.bw.closed (ys.flatMap byteBits) } := by
  obtain ⟨br, bs, -, hrun⟩ := h
  have hlen := length_closed (ys.flatMap byteBits) hwf
  rw [length_flatMap_byteBits, BitWriter.closed, List.length_append] at hlen
  rw [hrun, runOn_move (coreMove_decoding_leaf br _ hnode), decodeLeaf_eos,
    runOn_decodeEnd_bytes bs (.eoi :: rest) _ rfl rfl rfl, runOn_decodeEnd_eoi rfl rfl rfl]
  · rw [← (closed_spec (ys.flatMap byteBits) hwf).1, BitWriter.closed, ← List.append_assoc]
    rfl
  · simp only [State.decoding, List.length_append]
    omega

theorem exec_decode (hpace : s.pace = none) (htree : s.treeValid = true) :
    exec .decode s = .next (runOn (startDecode s)) := by
  rw [exec_eq, start, launch_eager]
  rw [startDecode, if_pos htree]
  exact hpace

/-- DECODE over the codes of bytes, then the EOS code, then anything. -/
theorem exec_decode_codes {bs xs : List Byte} {codes : List Code} {eos : Code} {tail : List Bool}
    (hpace : s.pace = none) (htree : s.treeValid = true) (hwf : s.bw.wf = true)
    (hin : s.inPort = bytesIn bs ++ .eoi :: rest)
    (hcodes : List.Forall₂ (fun x p => s.IsCode (byteSymbol x) p) xs codes) (heos : s.IsCode 256 eos)
    (hbits : inputBits s.br bs = codes.flatten ++ eos ++ tail)
    (hroom : s.outPort.length + (s.bw.n.val + 8 * xs.length + 7) / 8 + 1 ≤ s.outDepth) :
    exec .decode s = .next { s.finished with
      bitCnt := BitVec.ofNat 64 (codes.flatten.length + eos.length), symCnt := BitVec.ofNat 32 xs.length
      bw := ⟨0, 0⟩, br := ⟨0, 0⟩, inPort := rest, outPort := s.outPort ++ s.bw.closed (xs.flatMap byteBits) } := by
  obtain ⟨j, c, hpath, hleaf⟩ := heos
  have hstart := State.decodesFrom_start htree hin
  rw [hbits, List.append_assoc] at hstart
  have hend := ((hstart.codes hcodes (by simp; omega)).path hpath).eos hleaf hwf hroom
  rw [exec_decode hpace htree, hend, Nat.zero_add]
  rfl

end Loop

end Sys2Proof.Machine
end

section
/-! PROOF. A payload decodes to itself (44_encode.md R276): the statement PayloadDecodesToItself (O56).

`State.Payload` is what passes from ENCODE to DECODE: the codes of the bytes on a tree, then the EOS code, then padding. Which
bits these are depends on the tree alone, and BUILD makes the same codes of the same table (`TreeOk.isCode_congr`). -/
namespace Sys2Proof.Machine

/-! Bit buffers that are empty at a byte boundary. -/

theorem groups_flatMap_byteBits (bs : List Byte) : groups (bs.flatMap byteBits) = bs := by
  simpa using groups_bytes bs [] (by simp)

theorem inputBits_of_empty {br : BitReader} (hn : br.n.val = 0) (bs : List Byte) : inputBits br bs = bs.flatMap byteBits := by
  have hnil : br.bits = [] := List.eq_nil_of_length_eq_zero (by simp [hn])
  rw [inputBits, hnil, List.nil_append]

/-- Whole bytes go through the empty writer as they are. -/
theorem writeAll_bytes (bs : List Byte) :
    BitWriter.empty.writeAll (bs.flatMap byteBits) = (BitWriter.empty, bytesOut bs) := by
  obtain ⟨out, hout, -, hbits, hn⟩ := writeAll_spec BitWriter.empty (bs.flatMap byteBits)
  have hn : (BitWriter.empty.writeAll (bs.flatMap byteBits)).1.n.val = 0 := by
    rw [hn, length_flatMap_byteBits]
    simp [BitWriter.empty]
  have hempty := writer_eq_empty _ (writeAll_wf _ _ writer_empty_wf) hn
  rw [hempty, writer_empty_bits, List.nil_append, List.append_nil] at hbits
  have hbytes : out = bs := by rw [← groups_flatMap_byteBits out, hbits, groups_flatMap_byteBits]
  exact Prod.ext hempty (hbytes ▸ hout)

theorem closed_bytes (bs : List Byte) : BitWriter.empty.closed (bs.flatMap byteBits) = bytesOut bs ++ [.eoo] := by
  rw [BitWriter.closed, writeAll_bytes, close_of_empty rfl]

/-! The payload (R276). -/

/-- `bits` are the codes of the bytes `xs` on the tree in NODE, then the EOS code, `n` bits in all, then anything. -/
def State.Payload (s : State) (xs : List Byte) (n : Nat) (bits : List Bool) : Prop :=
  ∃ (codes : List Code) (eos : Code) (tail : List Bool),
    List.Forall₂ (fun x p => s.IsCode (byteSymbol x) p) xs codes ∧ s.IsCode 256 eos ∧
    bits = codes.flatten ++ eos ++ tail ∧ n = codes.flatten.length + eos.length

/-- A payload on a tree is one on every tree with the same codes. -/
theorem State.Payload.congr {s u : State} {xs : List Byte} {n : Nat} {bits : List Bool} (h : s.Payload xs n bits)
    (hcode : ∀ sym p, s.IsCode sym p → u.IsCode sym p) : u.Payload xs n bits := by
  obtain ⟨codes, eos, tail, hcodes, heos, hbits, hn⟩ := h
  exact ⟨codes, eos, tail, hcodes.imp fun _ _ => hcode _ _, hcode _ _ heos, hbits, hn⟩

section Codes

variable {s : State} {x : List Byte} (ht : s.TreeOk) (hf : LegalTable s.freq)
include ht hf

theorem State.TreeOk.isCode_length_le {sym : Symbol} {p : Code} (h : s.IsCode sym p) : p.length ≤ 256 := by
  have hlen := ht.isCode_length hf h
  have hle := length_leavesOf_le s.freq
  omega

theorem State.TreeOk.exists_eos : ∃ p, s.IsCode 256 p :=
  (ht.exists_isCode hf).mpr (by rw [show s.freq[(256 : Symbol)] = 1 from hf.1]; decide)

/-- Bytes that the table counts have codes. -/
theorem State.TreeOk.exists_codes (hx : ∀ b ∈ x, s.freq[byteSymbol b] ≠ 0) :
    ∃ codes, List.Forall₂ (fun b p => s.IsCode (byteSymbol b) p) x codes := by
  induction x with
  | nil => exact ⟨[], .nil⟩
  | cons b x ih =>
    obtain ⟨p, hp⟩ := (ht.exists_isCode hf).mpr (hx b (by simp))
    obtain ⟨codes, hcodes⟩ := ih fun b hb => hx b (by simp [hb])
    exact ⟨p :: codes, .cons hp hcodes⟩

theorem State.TreeOk.length_codes_le {codes : List Code}
    (h : List.Forall₂ (fun b p => s.IsCode (byteSymbol b) p) x codes) : codes.flatten.length ≤ 256 * x.length := by
  induction h with
  | nil => simp
  | cons hp _ ih =>
    have := ht.isCode_length_le hf hp
    simp only [List.flatten_cons, List.length_append, List.length_cons]
    omega

/-- CODE holds the codes. -/
theorem State.CodesOk.map_code {codes : List Code} (hc : s.CodesOk)
    (h : List.Forall₂ (fun b p => s.IsCode (byteSymbol b) p) x codes) :
    x.map (fun g => s.code[byteSymbol g]) = codes.map some := by
  induction h with
  | nil => rfl
  | cons hp _ ih => rw [List.map_cons, List.map_cons, ih, (hc.eq_some ht hf).mpr hp]

/-- The codes are those of the table: another state's tree of that table has the same (R225, R229). -/
theorem State.TreeOk.isCode_congr {u : State} (ht' : u.TreeOk) (hfreq : u.freq = s.freq) (sym : Symbol) (p : Code)
    (h : s.IsCode sym p) : u.IsCode sym p := by
  have hroot : u.root = s.root := by
    obtain ⟨-, -, -, -, hroot⟩ := ht
    obtain ⟨-, -, -, -, hroot'⟩ := ht'
    rw [hroot, hroot', hfreq]
  obtain ⟨-, -, -, hnode⟩ := ht.merges hf
  obtain ⟨-, -, -, hnode'⟩ := ht'.merges (hfreq ▸ hf)
  have hsame (i : NodeIdx) (hi : i.val ≤ s.root.val) : u.node[i] = s.node[i] :=
    Option.some.inj ((hnode' i (hroot ▸ hi)).symm.trans (hfreq ▸ hnode i hi))
  have hfollow (i j : NodeIdx) (q : Code) (hi : i.val ≤ s.root.val) (hq : follow s.node i q = some j) :
      follow u.node i q = some j := by
    induction q generalizing i with
    | nil => exact hq
    | cons b q ih =>
      obtain ⟨c, l, r, hint, hq⟩ := follow_cons_eq_some.mp hq
      obtain ⟨-, -, hlt⟩ := ht.internal_children hf hi hint
      have := hlt b
      exact follow_cons_eq_some.mpr ⟨c, l, r, (hsame i hi).trans hint, ih _ (by omega) hq⟩
  obtain ⟨j, c, hpath, hleaf⟩ := h
  exact ⟨j, c, hroot ▸ hfollow s.root j p le_rfl hpath, (hsame j (ht.le_root_of_follow hf hpath)).trans hleaf⟩

end Codes

/-- ENCODE writes a payload for bytes that the table counts, behind what the output port holds. -/
theorem exec_encode_payload {s : State} {x : List Byte} {rest : List InToken} (hf : LegalTable s.freq) (ht : s.TreeOk)
    (hc : s.CodesOk) (hvalid : s.codesValid = true) (hpace : s.pace = none) (hbw : s.bw = ⟨0, 0⟩) (hbr : s.br = ⟨0, 0⟩)
    (hin : s.inPort = bytesIn x ++ .eoi :: rest) (hroom : s.outPort.length + 256 * (x.length + 1) + 1 ≤ s.outDepth)
    (hx : ∀ b ∈ x, s.freq[byteSymbol b] ≠ 0) :
    ∃ (payload : List Byte) (n : Nat), s.Payload x n (payload.flatMap byteBits) ∧
      exec .encode s = .next { s.finished with
        bitCnt := BitVec.ofNat 64 n, symCnt := BitVec.ofNat 32 x.length, bw := ⟨0, 0⟩, br := ⟨0, 0⟩, inPort := rest
        outPort := s.outPort ++ bytesOut payload ++ [.eoo] } := by
  obtain ⟨codes, hcodes⟩ := ht.exists_codes hf hx
  obtain ⟨eos, heos⟩ := ht.exists_eos hf
  have hlen := ht.length_codes_le hf hcodes
  have hlen' := ht.isCode_length_le hf heos
  have hgroups : groups (inputBits s.br x) = x := by
    rw [inputBits_of_empty (by rw [hbr]; rfl), groups_flatMap_byteBits]
  obtain ⟨payload, pad, hexec, hbits, -, -⟩ := encodeWritesPayload s x rest codes eos hpace hvalid (by rw [hbw]; rfl)
    (by rw [hbr]; rfl) hin (by rw [hgroups]; exact hc.map_code ht hf hcodes) ((hc.eq_some ht hf).mpr heos) (by
      have : s.bw.n.val = 0 := by rw [hbw]; rfl
      omega)
  have hnil : s.bw.bits = [] := by rw [hbw]; rfl
  exact ⟨payload, _, ⟨codes, eos, pad, hcodes, heos, by rw [hbits, hnil, List.nil_append], rfl⟩, hexec⟩

/-- DECODE over a payload for the bytes `x` writes x behind what the output port holds. -/
theorem exec_decode_payload {u : State} {payload x : List Byte} {n : Nat} {rest : List InToken} (hpace : u.pace = none)
    (htree : u.treeValid = true) (hbw : u.bw = ⟨0, 0⟩) (hbr : u.br = ⟨0, 0⟩)
    (hin : u.inPort = bytesIn payload ++ .eoi :: rest) (hroom : u.outPort.length + x.length + 1 ≤ u.outDepth)
    (hpayload : u.Payload x n (payload.flatMap byteBits)) :
    exec .decode u = .next { u.finished with
      bitCnt := BitVec.ofNat 64 n, symCnt := BitVec.ofNat 32 x.length, bw := ⟨0, 0⟩, br := ⟨0, 0⟩, inPort := rest
      outPort := u.outPort ++ bytesOut x ++ [.eoo] } := by
  obtain ⟨codes, eos, tail, hcodes, heos, hbits, rfl⟩ := hpayload
  have hclosed : u.bw.closed (x.flatMap byteBits) = bytesOut x ++ [.eoo] := hbw ▸ closed_bytes x
  rw [← inputBits_of_empty (br := u.br) (by rw [hbr]; rfl)] at hbits
  rw [exec_decode_codes hpace htree (by rw [hbw]; rfl) hin hcodes heos hbits, hclosed, List.append_assoc]
  have : u.bw.n.val = 0 := by rw [hbw]; rfl
  omega

/-- Settles O56: the payload is one on DECODE's tree too, which is ENCODE's. -/
theorem payloadDecodesToItself : Obligations.PayloadDecodesToItself := by
  unfold Obligations.PayloadDecodesToItself
  intro s u t x rest rest' hf ht hc hvalid hpace hbw hbr hin hout hroom hx hexec htree hnode hroot hpace' hbw' hbr' hout'
    hroom'
  obtain ⟨payload, n, hpayload, hencode⟩ :=
    exec_encode_payload hf ht hc hvalid hpace hbw hbr hin (by simpa [hout] using hroom) hx
  obtain rfl : _ = t := Host.Outcome.next.inj (hencode.symm.trans hexec)
  refine ⟨payload, rfl, by simp [hout], rfl, fun hin' => ?_⟩
  have hpayload' : u.Payload x n (payload.flatMap byteBits) := by
    refine hpayload.congr fun sym p h => ?_
    rwa [State.IsCode, hnode, hroot]
  exact ⟨_, exec_decode_payload hpace' htree hbw' hbr' hin' (by rw [hout', List.length_nil]; omega) hpayload', rfl,
    by simp [hout'], rfl, rfl, rfl⟩

end Sys2Proof.Machine
end

section
/-! PROOF. DECOMPRESS gives back what COMPRESS was given (44_encode.md R276; 30_encoding.md R136, R137): the statement
DecompressInvertsCompress (O57).

Each command of the two sequences is one step from a `State.AtRest` state to another. COMPRESS leaves the header of a legal
table, then a payload on its tree; DECOMPRESS loads the table, makes a tree of it with the same codes, and decodes. -/
namespace Sys2Proof.Machine

/-! COUNT's table (R180). -/

/-- The bytes below k + 1 are those below k and those equal to k. -/
theorem countP_lt_succ (x : List Byte) {k : Nat} (hk : k < 256) :
    x.countP (·.toNat < k + 1) = x.countP (·.toNat < k) + x.count (BitVec.ofNat 8 k) := by
  have heq (b : Byte) : b = BitVec.ofNat 8 k ↔ b.toNat = k := by
    rw [← BitVec.toNat_inj, BitVec.toNat_ofNat, Nat.mod_eq_of_lt hk]
  induction x with
  | nil => rfl
  | cons b x ih =>
    simp only [List.countP_cons, List.count_cons, decide_eq_true_eq, beq_iff_eq, heq, ih]
    split_ifs <;> omega

section Counts

variable {f : FreqTable} {x : List Byte} (hcount : ∀ b : Byte, f[byteSymbol b] = BitVec.ofNat 32 (x.count b))
include hcount

/-- The first k entries count the bytes below k. -/
theorem entrySum_le_countP {k : Nat} (hk : k ≤ 256) : entrySum f k ≤ x.countP (·.toNat < k) := by
  induction k with
  | zero => exact Nat.zero_le _
  | succ k ih =>
    have hval : (byteSymbol (BitVec.ofNat 8 k)).val = k := by
      simp only [byteSymbol, BitVec.toNat_ofNat]
      omega
    have hlast : entrySum f (k + 1) = entrySum f k + f[byteSymbol (BitVec.ofNat 8 k)].toNat := by
      simpa only [hval] using entrySum_succ f (byteSymbol (BitVec.ofNat 8 k))
    have hentry : f[byteSymbol (BitVec.ofNat 8 k)].toNat ≤ x.count (BitVec.ofNat 8 k) := by
      rw [hcount, BitVec.toNat_ofNat]
      exact Nat.mod_le _ _
    have := countP_lt_succ x (k := k) (by omega)
    have := ih (by omega)
    omega

/-- The table of up to MAX_BYTES bytes is legal (R182, R221). -/
theorem legalTable_of_counts (heos : f[256] = 1) (hlen : x.length ≤ Config.maxBytes) : LegalTable f := by
  have hsum : tableSum f = entrySum f 256 + f[(256 : Symbol)].toNat := (entrySum_all f).symm.trans (entrySum_succ f 256)
  have heos' : f[(256 : Symbol)].toNat = 1 := congrArg BitVec.toNat heos
  have hbytes := (entrySum_le_countP hcount le_rfl).trans List.countP_le_length
  have hmax : Config.maxBytes + 1 = Config.cntMax := rfl
  exact ⟨heos, by omega⟩

/-- A byte that occurs has a nonzero count. -/
theorem count_ne_zero (hlen : x.length ≤ Config.maxBytes) {b : Byte} (hb : b ∈ x) : f[byteSymbol b] ≠ 0 := by
  have hpos := List.count_pos_iff.mpr hb
  have hle := List.count_le_length (a := b) (l := x)
  have hmax : Config.maxBytes = 2 ^ 32 - 2 := rfl
  intro h
  have hzero : x.count b % 2 ^ 32 = 0 := by simpa [hcount] using congrArg BitVec.toNat h
  omega

end Counts

/-! COUNT, HDR_EMIT and HDR_LOAD with empty bit buffers. -/

theorem exec_count_bytes {s : State} {x : List Byte} {rest : List InToken} (hpace : s.pace = none) (hbr : s.br = ⟨0, 0⟩)
    (hin : s.inPort = bytesIn x ++ .eoi :: rest) (hlen : x.length ≤ Config.maxBytes) :
    ∃ f : FreqTable, exec .count s = .next { s.finished with
        treeValid := false, codesValid := false, freq := f, symCnt := BitVec.ofNat 32 x.length, br := ⟨0, 0⟩
        inPort := rest } ∧ LegalTable f ∧ ∀ b ∈ x, f[byteSymbol b] ≠ 0 := by
  obtain ⟨f, hexec, heos, hcount⟩ := countBuildsTable s x rest hpace (by rw [hbr]; rfl) hin hlen
  rw [inputBits_of_empty (by rw [hbr]; rfl), groups_flatMap_byteBits] at hcount
  exact ⟨f, hexec, legalTable_of_counts hcount heos hlen, fun b hb => count_ne_zero hcount hlen hb⟩

theorem exec_hdrEmit_bytes {s : State} (hpace : s.pace = none) (hbw : s.bw = ⟨0, 0⟩)
    (hroom : s.outPort.length + 1036 ≤ s.outDepth) : exec .hdrEmit s = .next { s.finished with
      bw := ⟨0, 0⟩, outPort := s.outPort ++ bytesOut (headerBytes s.freq) } := by
  have hwrite : s.bw.writeAll ((headerBytes s.freq).flatMap byteBits) = (⟨0, 0⟩, bytesOut (headerBytes s.freq)) := by
    rw [hbw]
    exact writeAll_bytes _
  have hstart : start .hdrEmit s = { s with bw := ⟨0, 0⟩ }.succeed (bytesOut (headerBytes s.freq)) :=
    (startHdrEmit_eq s).trans (congrArg (fun w => { s with bw := w.1 }.succeed w.2) hwrite)
  exact exec_of_start_write hpace hstart (by simpa [bytesOut] using hroom)

theorem exec_hdrLoad_bytes {s : State} {f : FreqTable} {rest : List InToken} (hpace : s.pace = none)
    (hbr : s.br = ⟨0, 0⟩) (hin : s.inPort = bytesIn (headerBytes f) ++ rest) (hf : LegalTable f) :
    exec .hdrLoad s = .next { s.finished with
      treeValid := false, codesValid := false, freq := f, br := ⟨0, 0⟩, inPort := rest } := by
  have hmade : s.br.made (headerBytes f) = headerBytes f := by
    rw [← groups_inputBits, inputBits_of_empty (by rw [hbr]; rfl), groups_flatMap_byteBits]
  have hpast : s.br.past (headerBytes f) = ⟨0, 0⟩ :=
    reader_eq_empty _ (past_wf _ _ (by rw [hbr]; rfl)) (by rw [past_n, hbr]; rfl)
  rw [exec_hdrLoad_legal hpace (length_headerBytes f) hin (hmade ▸ passes_of_legal hf), hpast]

/-! The steps of COMPRESS and DECOMPRESS (R136, R137). -/

/-- Idle and without error, the bit buffers empty, with these tokens in the ports and the output port of this depth: the
host's next actions are `script`. -/
structure State.AtRest (s : State) (script : List HostAct) (inp : List InToken) (out : List OutToken) (depth : Nat) :
    Prop where
  busy : s.busy = false
  err : s.err = false
  pace : s.pace = none
  bw : s.bw = ⟨0, 0⟩
  br : s.br = ⟨0, 0⟩
  script : s.script = script
  inPort : s.inPort = inp
  outPort : s.outPort = out
  outDepth : s.outDepth = depth

section Commands

variable {s : State} {script : List HostAct} {inp : List InToken} {out : List OutToken} {depth : Nat}

/-- The state in which a command of the script is accepted (R37). -/
def State.issued (s : State) (w : Word) (script : List HostAct) : State := { s with script := script }.accept w

/-- The next step runs the next command of the script (R37). -/
theorem State.AtRest.step_eq {w : Word} {i : Instr} (h : s.AtRest (cmdWrite w :: script) inp out depth)
    (hw : decode w = .ok i) : step s = exec i (s.issued w script) :=
  stepRunsDecodedCommand s w script i h.script h.busy h.err hw

/-- COUNT takes the segment and leaves a legal table that counts its bytes (R180, R181). -/
theorem State.AtRest.count_step {x : List Byte}
    (h : s.AtRest (cmdWrite 0x10 :: script) (bytesIn x ++ .eoi :: inp) out depth) (hlen : x.length ≤ Config.maxBytes) :
    ∃ t, step s = .next t ∧ t.AtRest script inp out depth ∧ LegalTable t.freq ∧ ∀ b ∈ x, t.freq[byteSymbol b] ≠ 0 := by
  obtain ⟨f, hexec, hf, hx⟩ := exec_count_bytes (s := s.issued 0x10 script) h.pace h.br h.inPort hlen
  exact ⟨_, (h.step_eq rfl).trans hexec, ⟨rfl, h.err, h.pace, h.bw, rfl, rfl, rfl, h.outPort, h.outDepth⟩, hf, hx⟩

/-- HDR_EMIT emits the table's header (R190). -/
theorem State.AtRest.hdrEmit_step (h : s.AtRest (cmdWrite 0x13 :: script) inp out depth)
    (hroom : out.length + 1036 ≤ depth) :
    ∃ t, step s = .next t ∧ t.AtRest script inp (out ++ bytesOut (headerBytes s.freq)) depth ∧ t.freq = s.freq := by
  have hexec := exec_hdrEmit_bytes (s := s.issued 0x13 script) h.pace h.bw (h.outPort ▸ h.outDepth ▸ hroom)
  exact ⟨_, (h.step_eq rfl).trans hexec, ⟨rfl, h.err, h.pace, rfl, h.br, rfl, h.inPort,
    congrArg (· ++ bytesOut (headerBytes s.freq)) h.outPort, h.outDepth⟩, rfl⟩

/-- BUILD makes the table's tree (R220, R225). -/
theorem State.AtRest.build_step (h : s.AtRest (cmdWrite 0x20 :: script) inp out depth)
    (hf : LegalTable s.freq) :
    ∃ t, step s = .next t ∧ t.AtRest script inp out depth ∧ t.freq = s.freq ∧ t.treeValid = true ∧ t.TreeOk := by
  have hexec := exec_build_legal (s := s.issued 0x20 script) h.pace hf
  exact ⟨_, (h.step_eq rfl).trans hexec, ⟨rfl, h.err, h.pace, h.bw, h.br, rfl, h.inPort, h.outPort, h.outDepth⟩, rfl, rfl,
    treeOk_of_fields s.node (buildCheck_legal hf) rfl rfl rfl rfl rfl⟩

/-- GENCODES makes the tree's codes (R251). -/
theorem State.AtRest.gencodes_step (h : s.AtRest (cmdWrite 0x30 :: script) inp out depth) (htree : s.treeValid = true)
    (ht : s.TreeOk) :
    ∃ t, step s = .next t ∧ t.AtRest script inp out depth ∧ t.freq = s.freq ∧ t.TreeOk ∧ t.codesValid = true ∧
      t.CodesOk := by
  have hexec := exec_of_start_succeed (i := .gencodes) (s := s.issued 0x30 script)
    (u := { s.issued 0x30 script with codesValid := true, code := codesOf s.node s.root }) h.pace (if_pos htree)
  exact ⟨_, (h.step_eq rfl).trans hexec, ⟨rfl, h.err, h.pace, h.bw, h.br, rfl, h.inPort, h.outPort, h.outDepth⟩, rfl,
    treeOk_of_same ht rfl rfl rfl rfl rfl, rfl, rfl⟩

/-- ENCODE takes the segment and emits its payload and EOO (R270-R272). -/
theorem State.AtRest.encode_step {x : List Byte}
    (h : s.AtRest (cmdWrite 0x40 :: script) (bytesIn x ++ .eoi :: inp) out depth)
    (hf : LegalTable s.freq) (ht : s.TreeOk) (hvalid : s.codesValid = true) (hc : s.CodesOk)
    (hx : ∀ b ∈ x, s.freq[byteSymbol b] ≠ 0) (hroom : out.length + 256 * (x.length + 1) + 1 ≤ depth) :
    ∃ (t : State) (payload : List Byte) (n : Nat), step s = .next t ∧
      t.AtRest script inp (out ++ bytesOut payload ++ [.eoo]) depth ∧ s.Payload x n (payload.flatMap byteBits) := by
  obtain ⟨payload, n, hpayload, hexec⟩ := exec_encode_payload (s := s.issued 0x40 script) hf
    (treeOk_of_same ht rfl rfl rfl rfl rfl) hc hvalid h.pace h.bw h.br h.inPort
    (h.outPort ▸ h.outDepth ▸ hroom) hx
  exact ⟨_, payload, n, (h.step_eq rfl).trans hexec, ⟨rfl, h.err, h.pace, rfl, rfl, rfl, rfl,
    congrArg (· ++ bytesOut payload ++ [.eoo]) h.outPort, h.outDepth⟩, hpayload⟩

/-- HDR_LOAD takes the header and leaves its table (R198). -/
theorem State.AtRest.hdrLoad_step {f : FreqTable} (hf : LegalTable f)
    (h : s.AtRest (cmdWrite 0x14 :: script) (bytesIn (headerBytes f) ++ inp) out depth) :
    ∃ t, step s = .next t ∧ t.AtRest script inp out depth ∧ t.freq = f := by
  have hexec := exec_hdrLoad_bytes (s := s.issued 0x14 script) h.pace h.br h.inPort hf
  exact ⟨_, (h.step_eq rfl).trans hexec, ⟨rfl, h.err, h.pace, h.bw, rfl, rfl, rfl, h.outPort, h.outDepth⟩, rfl⟩

/-- DECODE takes the payload's segment and emits its bytes and EOO (R290, R297). -/
theorem State.AtRest.decode_step {x payload : List Byte} {n : Nat}
    (h : s.AtRest (cmdWrite 0x50 :: script) (bytesIn payload ++ .eoi :: inp) out depth) (htree : s.treeValid = true)
    (hpayload : s.Payload x n (payload.flatMap byteBits)) (hroom : out.length + x.length + 1 ≤ depth) :
    ∃ t, step s = .next t ∧ t.AtRest script inp (out ++ bytesOut x ++ [.eoo]) depth := by
  have hexec := exec_decode_payload (u := s.issued 0x50 script) h.pace htree h.bw h.br h.inPort
    (h.outPort ▸ h.outDepth ▸ hroom) hpayload
  exact ⟨_, (h.step_eq rfl).trans hexec, ⟨rfl, h.err, h.pace, rfl, rfl, rfl, rfl,
    congrArg (· ++ bytesOut x ++ [.eoo]) h.outPort, h.outDepth⟩⟩

/-- A run goes through its first step. -/
theorem run_step {t : State} (h : step s = .next t) (k : Nat) :
    Host.Core.run core (k + 1) s = Host.Core.run core k t := by
  have hcore : core.step s = .next t := h
  simp only [Host.Core.run, hcore]

end Commands

/-- Settles O57: COMPRESS leaves the header of a legal table and a payload on its tree, and DECOMPRESS makes that tree from the
header. -/
theorem decompressInvertsCompress : Obligations.DecompressInvertsCompress := by
  unfold Obligations.DecompressInvertsCompress
  intro s u x rest rest' next next' hlen hbusy herr hpace hbw hbr hout hroom hin hscript hbusy' herr' hpace' hbw' hbr' hout'
    hroom' hscript'
  have h0 : s.AtRest _ _ _ s.outDepth := ⟨hbusy, herr, hpace, hbw, hbr, hscript, hin, hout, rfl⟩
  obtain ⟨s1, hstep1, h1, hf, hx⟩ := h0.count_step hlen
  obtain ⟨s2, hstep2, h2, hfreq2⟩ := h1.hdrEmit_step (by
    simpa using Nat.le_of_add_right_le (Nat.le_of_add_right_le hroom))
  obtain ⟨s3, hstep3, h3, hfreq3, htree, ht3⟩ := h2.build_step (hfreq2 ▸ hf)
  obtain ⟨s4, hstep4, h4, hfreq4, ht, hvalid, hc⟩ := h3.gencodes_step htree ht3
  have hfreq : s4.freq = s1.freq := hfreq4.trans (hfreq3.trans hfreq2)
  obtain ⟨t, payload, n, hstep5, h5, hpayload⟩ := h4.encode_step (hfreq ▸ hf) ht hvalid hc (hfreq ▸ hx)
    (by simpa [bytesOut] using hroom)
  refine ⟨t, headerBytes s1.freq ++ payload, ?_, h5.err, h5.busy, ?_, h5.inPort, fun hin' => ?_⟩
  · rw [run_step hstep1, run_step hstep2, run_step hstep3, run_step hstep4, run_step hstep5]
    rfl
  · rw [h5.outPort]
    simp [bytesOut]
  · have g0 : u.AtRest _ (bytesIn (headerBytes s1.freq) ++ (bytesIn payload ++ .eoi :: rest')) _ u.outDepth :=
      ⟨hbusy', herr', hpace', hbw', hbr', hscript', by simp [hin', bytesIn], hout', rfl⟩
    obtain ⟨u1, hstep1', g1, gfreq1⟩ := g0.hdrLoad_step hf
    obtain ⟨u2, hstep2', g2, gfreq2, htree', ht'⟩ := g1.build_step (gfreq1 ▸ hf)
    have hsame : u2.freq = s4.freq := gfreq2.trans (gfreq1.trans hfreq.symm)
    have hpayload' := hpayload.congr (ht.isCode_congr (hfreq ▸ hf) ht' hsame)
    obtain ⟨v, hstep3', g3⟩ := g2.decode_step htree' hpayload' (by simp; omega)
    refine ⟨v, ?_, g3.err, g3.busy, g3.outPort, g3.inPort⟩
    rw [run_step hstep1', run_step hstep2', run_step hstep3']
    rfl

end Sys2Proof.Machine
end

section
/-! PROOF. DECODE (45_decode.md R290-R297; 60_exceptions.md R318): the statements DecodeWritesSymbols (O41) and
DecodeFindsTruncation (O42).

A segment that decodes is `exec_decode_codes`. In one that does not, the loop takes the codes of the bytes
(`decodesFrom_codes`), and then the terminator is found inside a code (`DecodesFrom.eoi_in_code`,
`DecodesFrom.ioerr_in_code`) or in the drain behind the EOS code (`DecodesFrom.ioerr_in_drain`). The terminator being
consumed, the epilogue drains nothing, and all three end in `State.decodingFailed`. -/
namespace Sys2Proof.Machine

/-- Settles O41: the codes are decoded to their bytes (`exec_decode_codes`), and the closed stream is theirs (`closed_spec`). -/
theorem decodeWritesSymbols : Obligations.DecodeWritesSymbols := by
  unfold Obligations.DecodeWritesSymbols
  intro s bs rest xs codes eos tail hpace htree hwf _ hin hcodes heos hbits hroom
  obtain ⟨-, out, pad, hclosed, hout, hpad, hzero, -⟩ := closed_spec (xs.flatMap byteBits) hwf
  refine ⟨out, pad, ?_, hout, hpad, hzero⟩
  rw [exec_decode_codes hpace htree hwf hin hcodes heos hbits hroom, hclosed, List.append_assoc]

/-- DECODE, started on s, has ended in error e after `n` bits and the bytes `ys`, with `rest` left in the port: the pending
bits are discarded and ABT is emitted (R293, R318). -/
def State.decodingFailed (n : Nat) (ys : List Byte) (rest : List InToken) (e : ErrCode) (info : Word) (s : State) : State :=
  { s with
    bitCnt := BitVec.ofNat 64 n, symCnt := BitVec.ofNat 32 ys.length, bw := ⟨0, 0⟩, br := ⟨0, 0⟩, inPort := rest
    outPort := s.outPort ++ (s.bw.writeAll (ys.flatMap byteBits)).2 ++ [OutToken.abt] }.failed e info

/-- IOERR ends the drain behind the EOS code in E_IO and ABT (R293, R294). -/
theorem runOn_decodeEnd_ioerr {s : State} {rest : List InToken} (hp : s.pending = []) (ha : s.activity = .decodeEnd)
    (hin : s.inPort = .ioerr :: rest) (hroom : s.outPort.length + 1 ≤ s.outDepth) :
    runOn s = { s with
      bw := ⟨0, 0⟩, br := ⟨0, 0⟩, inPort := rest, outPort := s.outPort ++ [OutToken.abt] }.failed .io 0 := by
  rw [runOn_move (coreMove_token hp (.decodeEnd ha) hin), decodeEndToken, runOn_raise_ended 0 rfl (Bool.or_true _)]
  · rfl
  · exact hroom

section Truncation

variable {s t : State} {rest : List InToken} {cur : NodeIdx} {n : Nat} {ys : List Byte} {bits : List Bool}

/-- The codes of the bytes at the start of a segment are decoded. -/
theorem State.decodesFrom_codes {bs : List Byte} {codes : List Code} (htree : s.treeValid = true)
    (hin : s.inPort = bytesIn bs ++ rest)
    (hcodes : List.Forall₂ (fun x p => s.IsCode (byteSymbol x) p) ys codes)
    (hbits : inputBits s.br bs = codes.flatten ++ bits)
    (hroom : s.outPort.length + (s.bw.n.val + 8 * ys.length) / 8 ≤ s.outDepth) :
    s.DecodesFrom (startDecode s) rest s.root codes.flatten.length ys bits := by
  have h := (hbits ▸ State.decodesFrom_start htree hin).codes hcodes hroom
  rwa [Nat.zero_add] at h

/-- With no bit of the segment left, the reader holds none and the port no byte of it. -/
theorem State.DecodesFrom.at_end (h : s.DecodesFrom t rest cur n ys []) :
    ∃ br : BitReader, br.n.val = 0 ∧ runOn t = runOn (s.decoding cur n ys br rest) := by
  obtain ⟨br, bs, hbits, hrun⟩ := h
  have hlen := congrArg List.length hbits
  rw [inputBits, List.length_append, length_reader_bits, length_flatMap_byteBits, List.length_nil] at hlen
  obtain rfl : bs = [] := List.eq_nil_of_length_eq_zero (by omega)
  exact ⟨br, by omega, hrun⟩

/-- The turn that needs a bit and takes a terminator. -/
theorem coreMove_decoding_end {br : BitReader} {c : Word} {l r : NodeIdx} {tok : InToken} (htok : tok.terminates = true)
    (hnode : s.node[cur] = .internal c l r) (hn : br.n.val = 0) :
    coreMove (s.decoding cur n ys br (tok :: rest)) =
      some (decodeToken l r tok ({ s with segEnded := true }.decoding cur n ys br rest)) := by
  rw [coreMove_token (s := s.decoding cur n ys br (tok :: rest)) rfl (.decode cur c l r rfl hnode hn) rfl, htok,
    Bool.or_true]
  rfl

variable (hroom : s.outPort.length + (s.bw.n.val + 8 * ys.length) / 8 + 1 ≤ s.outDepth)
include hroom

/-- ABT has room behind the bytes. -/
theorem room_behind_bytes : (s.outPort ++ (s.bw.writeAll (ys.flatMap byteBits)).2).length + 1 ≤ s.outDepth := by
  rw [List.length_append, length_writeAll, length_flatMap_byteBits]
  exact hroom

/-- The terminator is consumed, so there is nothing to drain (R293). -/
theorem runOn_decoding_raise {e : ErrCode} (info : Word) (br : BitReader) (he : e.stream = true) :
    runOn (({ s with segEnded := true }.decoding cur n ys br rest).raise e info true) =
      s.decodingFailed n ys rest e info := by
  rw [runOn_raise_ended info he rfl]
  · rfl
  · exact room_behind_bytes hroom

/-- EOI inside a code (R292). -/
theorem State.DecodesFrom.eoi_in_code {c : Word} {l r : NodeIdx} (h : s.DecodesFrom t (.eoi :: rest) cur n ys [])
    (hnode : s.node[cur] = .internal c l r) :
    runOn t = s.decodingFailed n ys rest .truncated (BitVec.ofNat 32 ys.length) := by
  obtain ⟨br, hn, hrun⟩ := h.at_end
  rw [hrun, runOn_move (coreMove_decoding_end rfl hnode hn)]
  exact runOn_decoding_raise hroom _ br rfl

/-- IOERR inside a code (R290). -/
theorem State.DecodesFrom.ioerr_in_code {c : Word} {l r : NodeIdx} (h : s.DecodesFrom t (.ioerr :: rest) cur n ys [])
    (hnode : s.node[cur] = .internal c l r) : runOn t = s.decodingFailed n ys rest .io 0 := by
  obtain ⟨br, hn, hrun⟩ := h.at_end
  rw [hrun, runOn_move (coreMove_decoding_end rfl hnode hn)]
  exact runOn_decoding_raise hroom 0 br rfl

/-- IOERR in the drain behind the EOS leaf (R294). -/
theorem State.DecodesFrom.ioerr_in_drain {c : Word} (h : s.DecodesFrom t (.ioerr :: rest) cur n ys bits)
    (hnode : s.node[cur] = .leaf 256 c) : runOn t = s.decodingFailed n ys rest .io 0 := by
  obtain ⟨br, bs, -, hrun⟩ := h
  rw [hrun, runOn_move (coreMove_decoding_leaf br _ hnode), decodeLeaf_eos,
    runOn_decodeEnd_bytes bs (.ioerr :: rest) _ rfl rfl rfl, runOn_decodeEnd_ioerr rfl rfl rfl]
  · rfl
  · exact room_behind_bytes hroom

end Truncation

/-- Settles O42: the loop takes the codes of the bytes; a path to an internal node then leads to a terminator inside a code,
and the EOS code to one in the drain. -/
theorem decodeFindsTruncation : Obligations.DecodeFindsTruncation := by
  unfold Obligations.DecodeFindsTruncation
  intro s bs e rest xs codes hpace htree _ _ hin hcodes hroom bad
  obtain ⟨out, hout, -, hbits, -⟩ := writeAll_spec s.bw (xs.flatMap byteBits)
  have hloop {bits : List Bool} (h : inputBits s.br bs = codes.flatten ++ bits) :
      s.DecodesFrom (startDecode s) (e :: rest) s.root codes.flatten.length xs bits :=
    State.decodesFrom_codes htree hin hcodes h (by omega)
  have hbad {n : Nat} {code : ErrCode} {info : Word} (h : runOn (startDecode s) = s.decodingFailed n xs rest code info) :
      bad n code info :=
    ⟨out, (s.bw.writeAll (xs.flatMap byteBits)).1.bits, by rw [exec_decode hpace htree, h, State.decodingFailed, hout],
      hbits, by simp⟩
  refine ⟨fun part i c l r hpath hnode hpart => ?_, fun eos tail heos hinput => ?_⟩
  · have hwalk := (hloop (hpart.trans (by rw [List.append_nil]))).path (bits := []) hpath
    constructor
    · rintro rfl
      exact hbad (hwalk.eoi_in_code hroom hnode)
    · rintro rfl
      exact hbad (hwalk.ioerr_in_code hroom hnode)
  · rintro rfl
    obtain ⟨j, c, hpath, hleaf⟩ := heos
    have hwalk := (hloop (hinput.trans (List.append_assoc ..))).path hpath
    exact hbad (hwalk.ioerr_in_drain hroom hleaf)

end Sys2Proof.Machine
end

section
/-! PROOF. NOP (46_control.md R305): the statement NopOnlyCompletes (O17). -/
namespace Sys2Proof.Machine

/-- Settles O17: NOP starts in its completion, with no OutWrite pending (R305), so the core's one move performs it. -/
theorem nopOnlyCompletes : Obligations.NopOnlyCompletes := by
  unfold Obligations.NopOnlyCompletes
  intro s hpace
  have hstart : start .nop s = s.succeed [] := rfl
  exact exec_of_start_succeed hpace hstart

end Sys2Proof.Machine
end

section
/-! PROOF. Errors, state preconditions and reset (60_exceptions.md R310, R312, R317, R322; 70_reset_and_hazards.md R350,
R351, R354): the statements CommandEndsInSuccessOrError (O47), StreamCommandsNeedTables (O43) and ResetInputIsSoftReset
(O12).

ERR, ERRCODE and ERRINFO are settled while a command runs: the start and the loops leave them, and only `State.complete`
writes them, together with DONE and BUSY. An ended command makes no further move, so it stays as its completion left it. -/
namespace Sys2Proof.Machine

/-! How a command ends (R310). -/

/-- What the machine records of an error: ERR, ERRCODE and ERRINFO (R35, R40). -/
structure ErrorRecord where
  err : Bool
  errCode : BitVec 8
  errInfo : Word

/-- The record of what stands while a command runs. -/
def Settled.errorRecord (p : Settled) : ErrorRecord := ⟨p.err, p.errCode, p.errInfo⟩

/-- The record of s. -/
def State.errorRecord (s : State) : ErrorRecord := s.settled.errorRecord

theorem State.errorRecord_eq_iff {s t : State} :
    t.errorRecord = s.errorRecord ↔ t.err = s.err ∧ t.errCode = s.errCode ∧ t.errInfo = s.errInfo := by
  simp [State.errorRecord, Settled.errorRecord, State.settled]

/-- A command that found the error record r has ended: in success, which leaves the record, or in an error of R312. -/
structure State.Completed (r : ErrorRecord) (t : State) : Prop where
  done : t.done = true
  busy : t.busy = false
  verdict : t.errorRecord = r ∨ t.err = true ∧ ∃ e : ErrCode, t.errCode = e.toByte

/-- A command that found the error record r runs and has recorded nothing yet, or it has ended and nothing is left to
emit. -/
def State.RunsOrCompleted (r : ErrorRecord) (t : State) : Prop :=
  (t.activity ≠ .idle ∧ t.errorRecord = r) ∨ (t.activity = .idle ∧ t.pending = [] ∧ t.Completed r)

theorem State.complete_completed (v : Option (ErrCode × Word)) (s : State) :
    (s.complete v).Completed s.errorRecord := by
  cases v with
  | none => exact ⟨rfl, rfl, .inl rfl⟩
  | some v => exact ⟨rfl, rfl, .inr ⟨rfl, v.1, rfl⟩⟩

theorem State.complete_activity (v : Option (ErrCode × Word)) (s : State) : (s.complete v).activity = .idle := by
  cases v <;> rfl

/-- Of the moves only the completion writes the record, and after it there is no move. -/
theorem coreMove_runsOrCompleted {r : ErrorRecord} (s t : State) (hs : s.RunsOrCompleted r)
    (h : coreMove s = some t) : t.RunsOrCompleted r := by
  rcases hs with ⟨hrun, hrec⟩ | ⟨hidle, hp, -⟩
  · cases coreMove_move h with
    | emit => exact .inl ⟨hrun, hrec⟩
    | complete v hp =>
      exact .inr ⟨State.complete_activity v s, (State.complete_pending v s).trans hp, hrec ▸ State.complete_completed v s⟩
    | leaf cur sym c hp ha =>
      have hkept := (decodeLeaf_opStep ha sym).settled
      exact .inl ⟨(decodeLeaf_turnFrame sym s).running hrun, (congrArg Settled.errorRecord hkept).trans hrec⟩
    | bit cur c l r hp ha =>
      have hkept := (decodeBit_opStep ha l r 0).settled
      exact .inl ⟨(decodeBit_turnFrame l r _ s).running hrun, (congrArg Settled.errorRecord hkept).trans hrec⟩
    | token tok rest act hp ht =>
      obtain ⟨o, ho⟩ := s.activity.exists_fits
      have hkept := ((ht.taken rest (s.segEnded || tok.terminates)).opStep ho tok).settled
      exact .inl ⟨(ht.frame tok _).running hrun, (congrArg Settled.errorRecord hkept).trans hrec⟩
  · simp [coreMove_idle hp hidle] at h

theorem prepared_errorRecord (i : Instr) (s : State) : (prepared i s).errorRecord = s.errorRecord := by
  cases i <;> simp only [prepared] <;> (repeat' split) <;> rfl

theorem start_runsOrCompleted (i : Instr) (s : State) : (start i s).RunsOrCompleted s.errorRecord :=
  .inl ⟨start_activity i s,
    (congrArg Settled.errorRecord (start_opStep i s).settled).trans (prepared_errorRecord i s)⟩

/-- However far the core has run, a command that no longer runs has completed (R35, R310). -/
theorem exec_completed {i : Instr} {s t : State} (h : exec i s = .next t) (hidle : t.activity = .idle) :
    t.Completed s.errorRecord := by
  rcases exec_keeps coreMove_runsOrCompleted h (start_runsOrCompleted i s) with ⟨hrun, -⟩ | ⟨-, -, hdone⟩
  · exact absurd hidle hrun
  · exact hdone

theorem irq_of_done {s : State} (h : s.done = true) : irq s = s.ie := by
  simp [irq, h]

/-- Settles O47: irq and the codes are their definitions; an ended command has completed, and no command writes IE. -/
theorem commandEndsInSuccessOrError : Obligations.CommandEndsInSuccessOrError := by
  unfold Obligations.CommandEndsInSuccessOrError
  refine ⟨fun s => Bool.and_eq_true_iff, by decide, fun i s t h hidle => ?_⟩
  obtain ⟨hdone, hbusy, hverdict⟩ := exec_completed h hidle
  obtain ⟨-, hie, -⟩ := commandsLeaveHostStateAlone i s t h
  exact ⟨hdone, hbusy, (irq_of_done hdone).trans hie, hverdict.imp_left State.errorRecord_eq_iff.mp⟩

/-! The state preconditions (R317, R354). -/

theorem startEncode_noCodes {s : State} (h : s.codesValid = false) : startEncode s = s.raise .noCodes 0 false :=
  if_neg (by simp [h])

theorem startDecode_noTree {s : State} (h : s.treeValid = false) : startDecode s = s.raise .noTree 0 false :=
  if_neg (by simp [h])

/-- Settles O43: without its table the command starts in an error that is no stream-phase error, whose epilogue only
records it. -/
theorem streamCommandsNeedTables : Obligations.StreamCommandsNeedTables := by
  unfold Obligations.StreamCommandsNeedTables
  intro s hpace
  exact ⟨fun hcodes => exec_of_start_raise hpace (startEncode_noCodes hcodes) rfl,
    fun htree => exec_of_start_raise hpace (startDecode_noTree htree) rfl⟩

/-! Reset (R350, R351). -/

theorem step_resetPin {s : State} {rest : List HostAct} (hs : s.script = .resetPin :: rest) :
    step s = .next { s with script := rest }.doReset := by
  simp [step, hs, hostAct]

theorem writeCtrl_srst {v : Word} (hv : v.getLsbD 1 = true) (s : State) : writeCtrl v s = s.doReset :=
  if_pos hv

theorem step_srst {s : State} {v : Word} {rest : List HostAct} (hs : s.script = .write 0x08 32 v :: rest)
    (hv : v.getLsbD 1 = true) : step s = .next { s with script := rest }.doReset :=
  (step_write (k := 2) hs rfl).trans (congrArg Host.Outcome.next (writeCtrl_srst hv _))

/-- Settles O12: both leave `State.doReset` of the state whose script has moved on. -/
theorem resetInputIsSoftReset : Obligations.ResetInputIsSoftReset := by
  unfold Obligations.ResetInputIsSoftReset
  intro s v rest hv
  exact ⟨{ s with script := rest }.doReset, step_resetPin rfl, step_srst rfl hv⟩

end Sys2Proof.Machine
end
